-- ==== Sys2Proof/Word.lean ====
section
/-! DEFINITION. The word, byte and byte-string types of PNGE (00_scope.md R7, R9). -/

namespace Sys2Proof

/-- A byte (00_scope.md R6: "bytes are 8 bits"). -/
abbrev Byte := BitVec 8

/-- A register value, CRC value or command word: an unsigned 32-bit number (00_scope.md R7). -/
abbrev Word := BitVec 32

/-- A byte string (00_scope.md R9). -/
abbrev Bytes := List Byte

/-- A window offset: the host window offset is 24 bits (00_scope.md R6, 20_memory.md R60). -/
abbrev Offset := BitVec 24

end Sys2Proof
end

