-- ==== Sys2Proof/Machine/Bytes.lean ====
section
/-! DEFINITION. Byte strings and byte order (00_scope.md R9; 20_memory.md R68, R69; 42_deflate.md R175). -/

namespace Sys2Proof.Machine

/-- `be32(v)`, the 4-byte big-endian string of a word (00_scope.md R9). -/
def be32 (v : Word) : Bytes :=
  [v.extractLsb' 24 8, v.extractLsb' 16 8, v.extractLsb' 8 8, v.extractLsb' 0 8]

/-- The word whose big-endian string is these four bytes. -/
def ofBe32 (b0 b1 b2 b3 : Byte) : Word :=
  (b0.setWidth 32 <<< 24) ||| (b1.setWidth 32 <<< 16) ||| (b2.setWidth 32 <<< 8) ||| b3.setWidth 32

/-- The four bytes of a width-4 host write, lowest index first (20_memory.md R65). -/
def le32 (v : Word) : Bytes :=
  [v.extractLsb' 0 8, v.extractLsb' 8 8, v.extractLsb' 16 8, v.extractLsb' 24 8]

/-- The value of a width-4 host read, as 20_memory.md R65 and R66 write it. -/
def ofLe32 (b0 b1 b2 b3 : Byte) : Word :=
  b0.setWidth 32 ||| (b1.setWidth 32 <<< 8) ||| (b2.setWidth 32 <<< 16) ||| (b3.setWidth 32 <<< 24)

/-- `le16(v)` (42_deflate.md R175). -/
def le16 (v : BitVec 16) : Bytes := [v.extractLsb' 0 8, v.extractLsb' 8 8]

/-- `ascii("IHDR")` (00_scope.md R9). -/
def tagIHDR : Bytes := [0x49, 0x48, 0x44, 0x52]

/-- `ascii("IDAT")`. -/
def tagIDAT : Bytes := [0x49, 0x44, 0x41, 0x54]

/-- `ascii("IEND")`. -/
def tagIEND : Bytes := [0x49, 0x45, 0x4E, 0x44]

end Sys2Proof.Machine
end

