-- ==== Sys2Proof/Config.lean ====
section
/-! DEFINITION. What one PNGE instance fixes (00_scope.md R6) and the values the spec leaves free. -/

namespace Sys2Proof

/-- The instances of the compressor COMPRESS (00_scope.md R6: "OPEN; reference instance STORED"). -/
inductive Compressor where
  /-- The reference instance STORED of 42_deflate.md R175. -/
  | stored
  /-- STORED for inputs of at most `limit` bytes and failure beyond: an instance of the law that does fail (log 4). -/
  | storedUpTo (limit : Nat)
  /-- An OPEN instance, told apart by a number so that two instances may differ (42_deflate.md R173). -/
  | vendor (k : Nat)
  deriving DecidableEq, Repr

/-- The parameters of 00_scope.md R6 that a rule inside PNGE uses; a model "takes each as an argument". -/
structure Params where
  /-- RAW_CAP, the size in bytes of the RAW buffer. -/
  rawCap : Nat
  /-- OUT_CAP, the size in bytes of the OUT buffer. -/
  outCap : Nat
  /-- COMPRESS, the DEFLATE engine's function. -/
  compressor : Compressor
  deriving DecidableEq, Repr

/-- The defaults of 00_scope.md R6; COMPRESS stays OPEN (log 3). -/
def Params.default : Params := { rawCap := 65536, outCap := 65536, compressor := .vendor 0 }

/-- FREE VALUE (log 4). What the OPEN compressor number `k` answers for an input, before the law of
42_deflate.md R172 is put on it (`compress`). Only that law may be used. -/
opaque Config.compressRaw : Nat → Bytes → Option Bytes

/-- FREE VALUE (log 6). The byte at an index of a buffer whose contents are unspecified since draw number
`draw` (70_reset_and_hazards.md R270, 44_control.md R212): one value per draw and index, stable. -/
opaque Config.freeByte : (draw index : Nat) → Byte

/-- FREE VALUE (log 7). What a host read under 20_memory.md R71 returns at draw number `draw`. -/
opaque Config.freeWord : (draw : Nat) → Word

/-- FREE VALUE (log 16). BASE divided by 2^24: the platform's choice (00_scope.md R6). -/
opaque Config.baseIndex : Nat

/-- BASE, the host bus address of window offset 0, "aligned to 2^24" (00_scope.md R6). -/
def Config.base : Nat := Config.baseIndex * 2 ^ 24

/-- The host bus address of a window offset (20_memory.md R60, R61). -/
def Config.hostAddress (off : Offset) : Nat := Config.base + off.toNat

end Sys2Proof
end

