-- ==== Sys2Proof/Machine/State.lean ====
section
/-! DEFINITION. The state of PNGE (10_state.md R21), the ways a step can stop, and the state after reset
(70_reset_and_hazards.md R270, R271). -/

namespace Sys2Proof.Machine

/-- A host access: a kind, a window offset, a width in bytes and, for a write, a value (20_memory.md R61). Any
width can be asked for; only 1 and 4 exist (R63). -/
inductive Access where
  | read (off : Offset) (width : Nat)
  | write (off : Offset) (width : Nat) (v : Word)
  deriving DecidableEq, Repr

/-- The answer on the host bus to an access that is no bus error (20_memory.md R61). -/
inductive Reply where
  | ok
  | data (v : Word)
  deriving DecidableEq, Repr

/-- An event on PNGE (20_memory.md R75): a host access, a turn of the ENGINE, or a hardware reset. -/
inductive Event where
  | host (a : Access)
  | engine
  | reset
  deriving DecidableEq, Repr

/-- The errors a command can end in (60_exceptions.md R231). -/
inductive CmdError where
  | badCmd
  | badDim
  | range
  | badLen
  | compFail
  | outOvf
  deriving DecidableEq, Repr

/-- How the machine stops with a fault. -/
inductive Fault where
  /-- A host access that 20_memory.md R62 to R67 call a bus error, raised by `hostAccess` with that access: it
  changes no state, and "a model treats it as a fault of the host's program that ends the run"
  (60_exceptions.md R235). Safe: the hardware would answer with an error response and go on (log 8). -/
  | busError (a : Access)
  deriving DecidableEq, Repr

/-- How the machine answers that it has no meaning. -/
inductive Refusal where
  /-- An instruction without a meaning in this model, raised by `exec` alone. Safe. No arm raises it. -/
  | notModelled (mnemonic : String)
  deriving DecidableEq, Repr

/-- The contents of a byte buffer: the bytes written since its contents were last unspecified, addresses strictly
rising, and the number of the draw every unlisted byte comes from (log 6). -/
structure Memory where
  cells : List Host.Cell
  draw : Nat
  deriving DecidableEq, Repr

/-- A buffer whose every byte is unspecified, by draw number `draw`. -/
def Memory.unspecified (draw : Nat) : Memory := { cells := [], draw := draw }

/-- The state: the record of 10_state.md R21, then the model's own fields. -/
structure State where
  /-- WIDTH, R29. -/
  width : Word
  /-- HEIGHT, R30. -/
  height : Word
  /-- RAW_LEN, R31. -/
  rawLen : Word
  /-- CHUNK_TYPE, R32. -/
  chunkType : Word
  /-- CRC_STATE, R33. -/
  crcState : Word
  /-- OUT_LEN, R35. -/
  outLen : Word
  /-- INT_EN.DONE_IE, R28. -/
  doneIe : Bool
  /-- INT_EN.ERR_IE, R28. -/
  errIe : Bool
  /-- STATUS.BUSY, R27. -/
  busy : Bool
  /-- STATUS.DONE, R27. -/
  done : Bool
  /-- STATUS.ERR, R27. -/
  err : Bool
  /-- STATUS.DROP, R27. -/
  drop : Bool
  /-- STATUS.ERR_CODE, R27. -/
  errCode : BitVec 4
  /-- PENDING, R39. -/
  pending : Word
  /-- RAW_MEM, R40. -/
  rawMem : Memory
  /-- OUT_MEM, R41. -/
  outMem : Memory
  /-- The model's own: the parameters of 00_scope.md R6, which no step changes (log 3). -/
  params : Params
  /-- The model's own: the number of the next draw of a free value (log 7). -/
  draws : Nat
  /-- The model's own: the events still to come, in the total order of 20_memory.md R75 (log 1). -/
  script : List Event
  /-- The model's own: the last answer on the host bus (log 15). -/
  reply : Option Reply
  deriving DecidableEq, Repr

/-- The state after a hardware reset (70_reset_and_hazards.md R270, R271) of an instance with parameters `p`, the
contents of RAW_MEM and OUT_MEM being draws number `draw` and `draw + 1`. -/
def State.resetWith (p : Params) (draw : Nat) : State where
  width := 0x00000064
  height := 0x00000064
  rawLen := 0
  chunkType := 0
  crcState := 0xFFFFFFFF
  outLen := 0
  doneIe := false
  errIe := false
  busy := false
  done := false
  err := false
  drop := false
  errCode := 0
  pending := 0
  rawMem := Memory.unspecified draw
  outMem := Memory.unspecified (draw + 1)
  params := p
  draws := draw + 2
  script := []
  reply := none

/-- The machine right after reset, with the default parameters of 00_scope.md R6. -/
def State.reset : State := State.resetWith Params.default 0

end Sys2Proof.Machine
end

