-- ==== Sys2Proof/Machine/Ops.lean ====
section
/-! DEFINITION. The named operations over the buffers and the state: byte access, the output primitive, the
completion of a command, error recording, and the resets. -/

namespace Sys2Proof.Machine

/-- The byte listed for an address, if one is. -/
def lookup : List Host.Cell → Nat → Option Byte
  | [], _ => none
  | (k, v) :: r, a => if a = k then some v else lookup r a

/-- List a byte at an address, keeping the addresses rising. -/
def insertCell : List Host.Cell → Nat → Byte → List Host.Cell
  | [], a, v => [(a, v)]
  | (k, w) :: r, a, v =>
    if a < k then (a, v) :: (k, w) :: r else if a = k then (a, v) :: r else (k, w) :: insertCell r a v

/-- Addresses strictly rising, none below `lo`. -/
def rising : Nat → List Host.Cell → Bool
  | _, [] => true
  | lo, (k, _) :: r => decide (lo ≤ k) && rising (k + 1) r

/-- The canonical form of a buffer. An unlisted address holds no listed value, so no entry can repeat one; the
free byte an unlisted address reads as is no value the model can compare with (log 6). -/
def Memory.wf (m : Memory) : Bool := rising 0 m.cells

/-- Every listed address is an index of a buffer of `cap` bytes (10_state.md R40, R41). -/
def Memory.within (cap : Nat) (m : Memory) : Bool := m.cells.all fun c => decide (c.1 < cap)

/-- Byte `i` of a buffer: the byte last written, or the unspecified one it has held since its draw. -/
def Memory.read (m : Memory) (i : Nat) : Byte := (lookup m.cells i).getD (Config.freeByte m.draw i)

/-- Write byte `i` of a buffer. -/
def Memory.write (m : Memory) (i : Nat) (v : Byte) : Memory := { m with cells := insertCell m.cells i v }

/-- Write a byte string from index `i` on. -/
def Memory.writeBytes : Memory → Nat → Bytes → Memory
  | m, _, [] => m
  | m, i, b :: bs => (m.write i b).writeBytes (i + 1) bs

/-- Bytes `i` to `i + n - 1` of a buffer. -/
def Memory.readBytes (m : Memory) (i : Nat) : Nat → Bytes
  | 0 => []
  | n + 1 => m.read i :: m.readBytes (i + 1) n

/-- `Raw(n)`, the byte string RAW_MEM[0 : n] (20_memory.md R82). -/
def State.raw (s : State) (n : Nat) : Bytes := s.rawMem.readBytes 0 n

/-- The output stream OUT_MEM[0 : OUT_LEN] (10_state.md R35). -/
def State.outStream (s : State) : Bytes := s.outMem.readBytes 0 s.outLen.toNat

/-- `OutAppend(b)` (20_memory.md R83). -/
def outAppend (b : Bytes) (s : State) : Except CmdError State :=
  if s.outLen.toNat + b.length > s.params.outCap then .error .outOvf
  else .ok { s with
    outMem := s.outMem.writeBytes s.outLen.toNat b
    outLen := BitVec.ofNat 32 (s.outLen.toNat + b.length) }

/-- Replace the whole output stream, from offset 0 (43_encode.md R190). -/
def outReplace (b : Bytes) (s : State) : Except CmdError State :=
  if b.length > s.params.outCap then .error .outOvf
  else .ok { s with outMem := s.outMem.writeBytes 0 b, outLen := BitVec.ofNat 32 b.length }

/-- The code of a command error (60_exceptions.md R231). -/
def CmdError.code : CmdError → BitVec 4
  | .badCmd => 1
  | .badDim => 2
  | .range => 3
  | .badLen => 4
  | .compFail => 5
  | .outOvf => 6

/-- Error recording, the analogue of taking an exception (60_exceptions.md R232): exactly these four fields. -/
def State.raise (e : CmdError) (s : State) : State :=
  { s with err := true, errCode := e.code, busy := false, done := true }

/-- Completion of a command that raised nothing (70_reset_and_hazards.md R275). PENDING keeps its value (log 9). -/
def State.complete (s : State) : State := { s with busy := false, done := true }

/-- The end of a command's step from `s`: completion of what its pseudocode made, or error recording on `s`
itself, since a command that raises has every earlier write discarded (00_scope.md R10, 60_exceptions.md R232). -/
def State.finish (s : State) : Except CmdError State → State
  | .ok t => t.complete
  | .error e => s.raise e

/-- A refused access: DROP <- 1 and nothing else (60_exceptions.md R234). -/
def State.dropped (s : State) : State := { s with drop := true }

/-- Acceptance of a command word (70_reset_and_hazards.md R274). -/
def State.accept (w : Word) (s : State) : State := { s with pending := w, busy := true, done := false }

/-- SOFT_RESET, the way out of the error state (44_control.md R212): OUT_MEM becomes unspecified, by a fresh draw,
when a command was aborted. -/
def State.softReset (s : State) : State :=
  { s with
    busy := false
    done := false
    err := false
    errCode := 0
    drop := false
    pending := 0
    crcState := 0xFFFFFFFF
    outLen := 0
    outMem := if s.busy then Memory.unspecified s.draws else s.outMem
    draws := if s.busy then s.draws + 1 else s.draws }

/-- A host write of `w` to CMD (10_state.md R26, 70_reset_and_hazards.md R274). -/
def State.cmdWrite (w : Word) (s : State) : State :=
  if w = 0x000000FF#32 then s.softReset else if s.busy || s.err then s.dropped else s.accept w

/-- Hardware reset (70_reset_and_hazards.md R270): the parameters are the instance's, the contents of the buffers
are fresh draws, and the events still to come and the host's last answer are the host's, not PNGE's (log 11). -/
def State.hardReset (s : State) : State :=
  { State.resetWith s.params s.draws with script := s.script, reply := s.reply }

end Sys2Proof.Machine
end

