-- ==== Sys2Proof/Machine/Chunk.lean ====
section
/-! DEFINITION. Chunk serialization and the framer's one action (41_framer.md R140 to R145). -/

namespace Sys2Proof.Machine

/-- `Chunk(t, d)` (41_framer.md R140). -/
def chunk (t d : Bytes) : Bytes := be32 (BitVec.ofNat 32 d.length) ++ t ++ d ++ be32 (crc32 (t ++ d))

/-- `SIG` (41_framer.md R142). -/
def sig : Bytes := [0x89, 0x50, 0x4E, 0x47, 0x0D, 0x0A, 0x1A, 0x0A]

/-- `IhdrData(w, h)` (41_framer.md R143). -/
def ihdrData (w h : Word) : Bytes := be32 w ++ be32 h ++ [0x08, 0x06, 0x00, 0x00, 0x00]

/-- `TypeTag(v)` (41_framer.md R145). -/
def typeTag (v : Word) : Bytes := be32 v

/-- `EmitChunk(t, d)` (41_framer.md R141). The CRC unit is shared with the framer (40_crc.md R127). -/
def emitChunk (t d : Bytes) (s : State) : Except CmdError State :=
  match outAppend (chunk t d) s with
  | .error e => .error e
  | .ok s' => .ok { s' with crcState := crcRun crcInitValue (t ++ d) }

/-- The whole stream of one image with IDAT payload `z` (43_encode.md R190). -/
def pngStream (w h : Word) (z : Bytes) : Bytes :=
  sig ++ chunk tagIHDR (ihdrData w h) ++ chunk tagIDAT z ++ chunk tagIEND []

/-- The row stride `S = 1 + 4W` (42_deflate.md R170). -/
def rowStride (w : Nat) : Nat := 1 + 4 * w

/-- The index of the filter-type byte of row `r` (42_deflate.md R170). -/
def filterIndex (w r : Nat) : Nat := r * rowStride w

/-- The index of channel `c` of pixel `x` of row `r` (42_deflate.md R170). -/
def channelIndex (w r x c : Nat) : Nat := r * rowStride w + 1 + 4 * x + c

end Sys2Proof.Machine
end

