-- ==== Sys2Proof/Machine/Zlib.lean ====
section
/-! DEFINITION. Adler-32 and the STORED reference compressor (42_deflate.md R175 to R177). -/

namespace Sys2Proof.Machine

/-- The two running sums of Adler-32, from sums `a` and `b` (42_deflate.md R176). -/
def adlerSums : Nat → Nat → Bytes → Nat × Nat
  | a, b, [] => (a, b)
  | a, b, v :: x =>
    let a' := (a + v.toNat) % 65521
    adlerSums a' ((b + a') % 65521) x

/-- `Adler32(x)` (42_deflate.md R176): `b × 65536 + a`. -/
def adler32 (x : Bytes) : Word :=
  let s := adlerSums 1 0 x
  BitVec.ofNat 32 (s.2 * 65536 + s.1)

/-- The greatest number of bytes in one stored block (42_deflate.md R175). -/
def maxStored : Nat := 65535

/-- One stored block: the header byte, LEN, NLEN and the bytes (42_deflate.md R175). -/
def storedBlock (header : Byte) (b : Bytes) : Bytes :=
  let len := BitVec.ofNat 16 b.length
  [header] ++ le16 len ++ le16 (len ^^^ 0xFFFF#16) ++ b

/-- The stored blocks of `x`: every block but the last has 65535 bytes (42_deflate.md R175). The fuel is spent
once a block; the length of `x` is enough of it. -/
def storedBlocks : Nat → Bytes → Bytes
  | 0, x => storedBlock 0x01 x
  | fuel + 1, x =>
    if x.length ≤ maxStored then storedBlock 0x01 x
    else storedBlock 0x00 (x.take maxStored) ++ storedBlocks fuel (x.drop maxStored)

/-- `STORED(x)` (42_deflate.md R175). It never fails. -/
def stored (x : Bytes) : Bytes := [0x78, 0x01] ++ storedBlocks x.length x ++ be32 (adler32 x)

end Sys2Proof.Machine
end

