-- ==== Sys2Proof/Machine/Inflate.lean ====
section
/-! DEFINITION. Decompression of a zlib stream: what "a conforming zlib stream whose decompression is exactly x"
(42_deflate.md R172) means. The rule names RFC 1950 with compression method 8 and RFC 1951; their contents are
PRESUMED, from outside the spec (log 5). Nothing in a step runs this: it states the law of COMPRESS. -/

namespace Sys2Proof.Machine.Inflate

/-- A bit stream, first bit first. -/
abbrev Bits := List Bool

/-- The bits of a byte, least significant first (RFC 1951, 3.1.1). -/
def byteBits (b : Byte) : Bits :=
  [b.getLsbD 0, b.getLsbD 1, b.getLsbD 2, b.getLsbD 3, b.getLsbD 4, b.getLsbD 5, b.getLsbD 6, b.getLsbD 7]

/-- The bits of a byte string. -/
def bitsOf : Bytes → Bits
  | [] => []
  | b :: bs => byteBits b ++ bitsOf bs

/-- The next `n` bits as a number, least significant first, and the rest. -/
def takeBits : Nat → Bits → Option (Nat × Bits)
  | 0, s => some (0, s)
  | _ + 1, [] => none
  | n + 1, b :: s =>
    match takeBits n s with
    | none => none
    | some (v, rest) => some (b.toNat + 2 * v, rest)

/-- The next `n` bytes, each of the next eight bits. -/
def takeBytes : Nat → Bits → Option (Bytes × Bits)
  | 0, s => some ([], s)
  | n + 1, s =>
    match takeBits 8 s with
    | none => none
    | some (v, s₁) =>
      match takeBytes n s₁ with
      | none => none
      | some (bs, s₂) => some (BitVec.ofNat 8 v :: bs, s₂)

/-- Skip to the next byte boundary: the whole stream is whole bytes. -/
def align (s : Bits) : Bits := s.drop (s.length % 8)

/-- The symbols whose code has `len` bits, in the order of their codes (RFC 1951, 3.2.2). -/
def symbolsOf (lens : List Nat) (len : Nat) : List Nat :=
  (lens.zipIdx.filter fun p => p.1 == len).map Prod.snd

/-- The code lengths are no more than a prefix code allows (RFC 1951, 3.2.2). -/
def kraftOk (lens : List Nat) : Bool :=
  decide ((lens.map fun l => if l = 0 then 0 else 2 ^ (15 - l)).sum ≤ 2 ^ 15)

/-- Read one symbol of the canonical Huffman code with these lengths: `code` is the code read so far (shifted),
`first` the first code of length `len`. -/
def symbolFrom (lens : List Nat) : Nat → Nat → Nat → Nat → Bits → Option (Nat × Bits)
  | 0, _, _, _, _ => none
  | _ + 1, _, _, _, [] => none
  | fuel + 1, len, code, first, b :: s =>
    let code := code + b.toNat
    let syms := symbolsOf lens len
    if code < first + syms.length then (syms[code - first]?).map fun sym => (sym, s)
    else symbolFrom lens fuel (len + 1) (2 * code) (2 * (first + syms.length)) s

/-- Read one symbol; no code is longer than 15 bits. -/
def symbol (lens : List Nat) (s : Bits) : Option (Nat × Bits) := symbolFrom lens 15 1 0 0 s

/-- Base and extra bits of the length symbols 257 to 285 (RFC 1951, 3.2.5). -/
def lengthTable : List (Nat × Nat) :=
  [(3, 0), (4, 0), (5, 0), (6, 0), (7, 0), (8, 0), (9, 0), (10, 0), (11, 1), (13, 1), (15, 1), (17, 1), (19, 2),
   (23, 2), (27, 2), (31, 2), (35, 3), (43, 3), (51, 3), (59, 3), (67, 4), (83, 4), (99, 4), (115, 4), (131, 5),
   (163, 5), (195, 5), (227, 5), (258, 0)]

/-- Base and extra bits of the distance symbols 0 to 29 (RFC 1951, 3.2.5). -/
def distTable : List (Nat × Nat) :=
  [(1, 0), (2, 0), (3, 0), (4, 0), (5, 1), (7, 1), (9, 2), (13, 2), (17, 3), (25, 3), (33, 4), (49, 4), (65, 5),
   (97, 5), (129, 6), (193, 6), (257, 7), (385, 7), (513, 8), (769, 8), (1025, 9), (1537, 9), (2049, 10),
   (3073, 10), (4097, 11), (6145, 11), (8193, 12), (12289, 12), (16385, 13), (24577, 13)]

/-- A base value plus its extra bits. -/
def withExtra (table : List (Nat × Nat)) (sym : Nat) (s : Bits) : Option (Nat × Bits) :=
  match table[sym]? with
  | none => none
  | some (base, extra) => (takeBits extra s).map fun p => (base + p.1, p.2)

/-- Append `n` copies from distance `dist` to the output, which is kept newest byte first. -/
def copyBack : Nat → Nat → Bytes → Option Bytes
  | 0, _, out => some out
  | n + 1, dist, out =>
    match out[dist - 1]? with
    | none => none
    | some b => copyBack n dist (b :: out)

/-- The symbols of one compressed block, up to the end-of-block symbol (RFC 1951, 3.2.3). -/
def blockSymbols (lit dist : List Nat) (window : Nat) : Nat → Bits → Bytes → Option (Bytes × Bits)
  | 0, _, _ => none
  | fuel + 1, s, out =>
    match symbol lit s with
    | none => none
    | some (sym, s₁) =>
      if sym < 256 then blockSymbols lit dist window fuel s₁ (BitVec.ofNat 8 sym :: out)
      else if sym = 256 then some (out, s₁)
      else
        match withExtra lengthTable (sym - 257) s₁ with
        | none => none
        | some (len, s₂) =>
          match symbol dist s₂ with
          | none => none
          | some (dsym, s₃) =>
            match withExtra distTable dsym s₃ with
            | none => none
            | some (d, s₄) =>
              if d ≤ window then
                match copyBack len d out with
                | none => none
                | some out' => blockSymbols lit dist window fuel s₄ out'
              else none

/-- The fixed literal and length code (RFC 1951, 3.2.6). -/
def fixedLit : List Nat :=
  List.replicate 144 8 ++ List.replicate 112 9 ++ List.replicate 24 7 ++ List.replicate 8 8

/-- The fixed distance code (RFC 1951, 3.2.6). -/
def fixedDist : List Nat := List.replicate 32 5

/-- The order of the code-length code's lengths (RFC 1951, 3.2.7). -/
def codeLengthOrder : List Nat := [16, 17, 18, 0, 8, 7, 9, 6, 10, 5, 11, 4, 12, 3, 13, 2, 14, 1, 15]

/-- `n` three-bit numbers. -/
def takeLengths : Nat → Bits → Option (List Nat × Bits)
  | 0, s => some ([], s)
  | n + 1, s =>
    match takeBits 3 s with
    | none => none
    | some (l, s₁) => (takeLengths n s₁).map fun p => (l :: p.1, p.2)

/-- Put the lengths read in the order of RFC 1951, 3.2.7, at their symbols. -/
def codeLengths (ls : List Nat) : List Nat :=
  (List.range 19).map fun sym => (ls[codeLengthOrder.idxOf sym]?).getD 0

/-- Read `total` code lengths with the code-length code, newest first (RFC 1951, 3.2.7). -/
def expandLengths (cl : List Nat) (total : Nat) : Nat → Bits → List Nat → Option (List Nat × Bits)
  | 0, s, acc => if acc.length = total then some (acc.reverse, s) else none
  | fuel + 1, s, acc =>
    if acc.length = total then some (acc.reverse, s)
    else if total < acc.length then none
    else
      match symbol cl s with
      | none => none
      | some (sym, s₁) =>
        if sym < 16 then expandLengths cl total fuel s₁ (sym :: acc)
        else if sym = 16 then
          match acc.head?, takeBits 2 s₁ with
          | some l, some (n, s₂) => expandLengths cl total fuel s₂ (List.replicate (3 + n) l ++ acc)
          | _, _ => none
        else if sym = 17 then
          match takeBits 3 s₁ with
          | some (n, s₂) => expandLengths cl total fuel s₂ (List.replicate (3 + n) 0 ++ acc)
          | none => none
        else
          match takeBits 7 s₁ with
          | some (n, s₂) => expandLengths cl total fuel s₂ (List.replicate (11 + n) 0 ++ acc)
          | none => none

/-- The two codes of a dynamic block (RFC 1951, 3.2.7). -/
def dynamicCodes (s : Bits) : Option (List Nat × List Nat × Bits) :=
  match takeBits 5 s with
  | none => none
  | some (hlit, s₁) =>
    match takeBits 5 s₁ with
    | none => none
    | some (hdist, s₂) =>
      match takeBits 4 s₂ with
      | none => none
      | some (hclen, s₃) =>
        match takeLengths (hclen + 4) s₃ with
        | none => none
        | some (ls, s₄) =>
          let cl := codeLengths ls
          if hlit ≤ 29 ∧ kraftOk cl then
            match expandLengths cl (hlit + 257 + hdist + 1) (hlit + 257 + hdist + 1) s₄ [] with
            | none => none
            | some (lens, s₅) =>
              let lit := lens.take (hlit + 257)
              let dist := lens.drop (hlit + 257)
              if kraftOk lit ∧ kraftOk dist then some (lit, dist, s₅) else none
          else none

/-- One stored block after its header (RFC 1951, 3.2.4). -/
def storedData (s : Bits) (out : Bytes) : Option (Bytes × Bits) :=
  match takeBits 16 (align s) with
  | none => none
  | some (len, s₁) =>
    match takeBits 16 s₁ with
    | none => none
    | some (nlen, s₂) =>
      if len + nlen = 65535 then (takeBytes len s₂).map fun p => (p.1.reverse ++ out, p.2) else none

/-- One block after its BFINAL bit (RFC 1951, 3.2.3): BTYPE 0 stored, 1 fixed, 2 dynamic, 3 reserved. -/
def blockData (window : Nat) (s : Bits) (out : Bytes) : Option (Bytes × Bits) :=
  match takeBits 2 s with
  | none => none
  | some (btype, s₁) =>
    if btype = 0 then storedData s₁ out
    else if btype = 1 then blockSymbols fixedLit fixedDist window (s₁.length + 1) s₁ out
    else if btype = 2 then
      match dynamicCodes s₁ with
      | none => none
      | some (lit, dist, s₂) => blockSymbols lit dist window (s₂.length + 1) s₂ out
    else none

/-- The blocks of a DEFLATE stream, up to the one with BFINAL set. The fuel is spent once a block. -/
def blocks (window : Nat) : Nat → Bits → Bytes → Option (Bytes × Bits)
  | 0, _, _ => none
  | fuel + 1, s, out =>
    match takeBits 1 s with
    | none => none
    | some (final, s₁) =>
      match blockData window s₁ out with
      | none => none
      | some (out', s₂) => if final = 1 then some (out', s₂) else blocks window fuel s₂ out'

/-- The window size a zlib header announces (RFC 1950, 2.2: CINFO is its base-2 logarithm less 8). -/
def windowOf (cmf : Byte) : Nat := 2 ^ (cmf.toNat / 16 + 8)

/-- A zlib header: method 8, a window of at most 32 KiB, a check that makes the pair a multiple of 31, and no
preset dictionary (RFC 1950, 2.2). -/
def headerOk (cmf flg : Byte) : Bool :=
  cmf.toNat % 16 == 8 && decide (cmf.toNat / 16 ≤ 7) && (cmf.toNat * 256 + flg.toNat) % 31 == 0 && !flg.getLsbD 5

/-- Decompression of a zlib stream: header, DEFLATE blocks, the big-endian Adler-32 of the data, and nothing
after it. `none` when the stream does not conform. -/
def decompress : Bytes → Option Bytes
  | cmf :: flg :: z =>
    if headerOk cmf flg then
      let s := bitsOf z
      match blocks (windowOf cmf) (s.length + 1) s [] with
      | none => none
      | some (out, s₁) =>
        let x := out.reverse
        match takeBytes 4 (align s₁) with
        | some ([b0, b1, b2, b3], []) => if ofBe32 b0 b1 b2 b3 = adler32 x then some x else none
        | _ => none
    else none
  | _ => none

end Sys2Proof.Machine.Inflate
end

