-- ==== Sys2Proof/Machine/Compress.lean ====
section
/-! DEFINITION. COMPRESS, the DEFLATE engine's function (42_deflate.md R172, R173). -/

namespace Sys2Proof.Machine

/-- COMPRESS(x): a byte string or failure (`none`), a function of the instance and of `x` alone (42_deflate.md
R173). The reference instance is STORED (R175). An OPEN instance is an opaque function kept to the law of R172:
an answer that is no conforming zlib stream of `x` counts as failure, so the instances are exactly the functions
that meet the law (log 4). -/
def compress : Compressor → Bytes → Option Bytes
  | .stored, x => some (stored x)
  | .storedUpTo limit, x => if x.length ≤ limit then some (stored x) else none
  | .vendor k, x =>
    match Config.compressRaw k x with
    | none => none
    | some z => if Inflate.decompress z = some x then some z else none

end Sys2Proof.Machine
end

