-- ==== Sys2Proof/Machine/Flags.lean ====
section
/-! DEFINITION. The STATUS word, its write-one-to-clear bits, INT_EN and the interrupt output (10_state.md R27,
R28, R43). -/

namespace Sys2Proof.Machine

/-- A flag as bit 0 of a word. -/
def flagBit (b : Bool) : Word := if b then 1 else 0

/-- The STATUS word (10_state.md R27): BUSY bit 0, DONE bit 1, ERR bit 2, DROP bit 3, ERR_CODE bits [11:8]; the
reserved bits read 0. -/
def State.statusWord (s : State) : Word :=
  flagBit s.busy ||| (flagBit s.done <<< 1) ||| (flagBit s.err <<< 2) ||| (flagBit s.drop <<< 3)
    ||| (s.errCode.setWidth 32 <<< 8)

/-- A host write of `v` to STATUS (10_state.md R27): DONE and DROP are cleared by a 1, every other bit ignored. -/
def State.statusWrite (v : Word) (s : State) : State :=
  { s with done := s.done && !v.getLsbD 1, drop := s.drop && !v.getLsbD 3 }

/-- The INT_EN word (10_state.md R28). -/
def State.intEnWord (s : State) : Word := flagBit s.doneIe ||| (flagBit s.errIe <<< 1)

/-- A host write of `v` to INT_EN (10_state.md R28). -/
def State.intEnWrite (v : Word) (s : State) : State := { s with doneIe := v.getLsbD 0, errIe := v.getLsbD 1 }

/-- The interrupt output (10_state.md R43, 60_exceptions.md R236). -/
def State.irq (s : State) : Bool := (s.done && s.doneIe) || (s.err && s.errIe)

end Sys2Proof.Machine
end

