-- ==== Sys2Proof/Machine/Operands.lean ====
section
/-! DEFINITION. The registers as the host reads and writes them (10_state.md R24 to R38) and the implicit operands
of the commands (30_encoding.md R92). -/

namespace Sys2Proof.Machine

/-- The registers of 10_state.md R24. -/
inductive Reg where
  | id | cmd | status | intEn | width | height | rawLen | chunkType | crcState | crcResult | outLen | rawCap | outCap
  deriving DecidableEq, Repr

/-- The offset of a register (10_state.md R24). -/
def Reg.offset : Reg → Offset
  | .id => 0x000
  | .cmd => 0x004
  | .status => 0x008
  | .intEn => 0x00C
  | .width => 0x010
  | .height => 0x014
  | .rawLen => 0x018
  | .chunkType => 0x01C
  | .crcState => 0x020
  | .crcResult => 0x024
  | .outLen => 0x028
  | .rawCap => 0x02C
  | .outCap => 0x030

/-- The register at an offset; the other 4-aligned offsets of the register region are reserved (10_state.md R38). -/
def Reg.at (o : Nat) : Option Reg :=
  match o with
  | 0x000 => some .id
  | 0x004 => some .cmd
  | 0x008 => some .status
  | 0x00C => some .intEn
  | 0x010 => some .width
  | 0x014 => some .height
  | 0x018 => some .rawLen
  | 0x01C => some .chunkType
  | 0x020 => some .crcState
  | 0x024 => some .crcResult
  | 0x028 => some .outLen
  | 0x02C => some .rawCap
  | 0x030 => some .outCap
  | _ => none

/-- The constant of the ID register, "PNGE" (10_state.md R25). -/
def idValue : Word := 0x504E4745#32

/-- The defined value of a register (10_state.md R25 to R37). -/
def State.regView (s : State) : Reg → Word
  | .id => idValue
  | .cmd => 0
  | .status => s.statusWord
  | .intEn => s.intEnWord
  | .width => s.width
  | .height => s.height
  | .rawLen => s.rawLen
  | .chunkType => s.chunkType
  | .crcState => s.crcState
  | .crcResult => crcFinal s.crcState
  | .outLen => s.outLen
  | .rawCap => BitVec.ofNat 32 s.params.rawCap
  | .outCap => BitVec.ofNat 32 s.params.outCap

/-- The registers whose reads while BUSY = 1 are unspecified (20_memory.md R71). -/
def Reg.volatile : Reg → Bool
  | .crcState | .crcResult | .outLen => true
  | .id | .cmd | .status | .intEn | .width | .height | .rawLen | .chunkType | .rawCap | .outCap => false

/-- A write locked while BUSY = 1: dropped then, else its effect (20_memory.md R70). -/
def State.locked (s : State) (effect : State) : State := if s.busy then s.dropped else effect

/-- The effect of a host write of `v` to a register (10_state.md R24 to R37); a write to a read-only register is
ignored "without error and without setting DROP". -/
def State.regWrite (s : State) (v : Word) : Reg → State
  | .cmd => s.cmdWrite v
  | .status => s.statusWrite v
  | .intEn => s.intEnWrite v
  | .width => s.locked { s with width := v }
  | .height => s.locked { s with height := v }
  | .rawLen => s.locked { s with rawLen := v }
  | .chunkType => s.locked { s with chunkType := v }
  | .id | .crcState | .crcResult | .outLen | .rawCap | .outCap => s

/-- `DimOK(w, h)` (42_deflate.md R178). -/
def dimOk (w h : Word) : Bool :=
  decide (1 ≤ w.toNat ∧ w.toNat ≤ 0x7FFFFFFF ∧ 1 ≤ h.toNat ∧ h.toNat ≤ 0x7FFFFFFF)

/-- `RawLenOf(W, H)`, exact (42_deflate.md R171). -/
def rawLenOf (w h : Nat) : Nat := h * (1 + 4 * w)

/-- The payload of CRC_BUF and EMIT_CHUNK: RAW_MEM[0 : RAW_LEN], or RANGE (10_state.md R31, 20_memory.md R82). -/
def State.rawPayload (s : State) : Except CmdError Bytes :=
  if s.rawLen.toNat > s.params.rawCap then .error .range else .ok (s.raw s.rawLen.toNat)

/-- The payload of the IDAT chunk, common to EMIT_IDAT and ENCODE (42_deflate.md R179, 43_encode.md R190): the
checks in the order of 60_exceptions.md R233, then COMPRESS of the bytes as given, no filter byte checked (42_deflate.md
R174). -/
def State.idatPayload (s : State) : Except CmdError Bytes :=
  if dimOk s.width s.height = false then .error .badDim
  else if s.rawLen.toNat > s.params.rawCap then .error .range
  else if s.rawLen.toNat ≠ rawLenOf s.width.toNat s.height.toNat then .error .badLen
  else
    match compress s.params.compressor (s.raw s.rawLen.toNat) with
    | none => .error .compFail
    | some z => .ok z

end Sys2Proof.Machine
end

