-- ==== Sys2Proof/Machine/Bus.lean ====
section
/-! DEFINITION. Host accesses: the address map, widths, alignment and effects (20_memory.md R60 to R73). -/

namespace Sys2Proof.Machine

/-- The regions of the window (20_memory.md R62). -/
inductive Region where
  | registers | rawWindow | outWindow | unmapped
  deriving DecidableEq, Repr

/-- Window offset of RAW_MEM[0] (20_memory.md R62). -/
def rawBase : Nat := 0x400000

/-- Window offset of OUT_MEM[0] (20_memory.md R62). -/
def outBase : Nat := 0x800000

/-- The row of the address map of 20_memory.md R62 an offset lies in. -/
def region (p : Params) (o : Nat) : Region :=
  if o < 0x1000 then .registers
  else if rawBase ≤ o ∧ o < rawBase + p.rawCap then .rawWindow
  else if outBase ≤ o ∧ o < outBase + p.outCap then .outWindow
  else .unmapped

/-- What an access that is no bus error reaches. -/
inductive Target where
  | reg (o : Nat)
  | raw (i : Nat)
  | out (i : Nat)
  deriving DecidableEq, Repr

/-- Decode an access: `none` is a bus error. Widths 1 and 4, width 4 aligned (20_memory.md R63), every byte in one
row of R62, registers by width 4 only (R64), and no write to the OUT window (R66). -/
def target (p : Params) (isWrite : Bool) (off : Offset) (n : Nat) : Option Target :=
  let o := off.toNat
  if n ≠ 1 ∧ n ≠ 4 then none
  else if n = 4 ∧ o % 4 ≠ 0 then none
  else if region p (o + n - 1) ≠ region p o then none
  else
    match region p o with
    | .registers => if n = 4 then some (.reg o) else none
    | .rawWindow => some (.raw (o - rawBase))
    | .outWindow => if isWrite then none else some (.out (o - outBase))
    | .unmapped => none

/-- The value of `n` bytes of a buffer, little-endian (20_memory.md R65, R66, R68). -/
def Memory.value (m : Memory) (i n : Nat) : Word :=
  if n = 1 then (m.read i).setWidth 32
  else ofLe32 (m.read i) (m.read (i + 1)) (m.read (i + 2)) (m.read (i + 3))

/-- The bytes a write of width `n` stores, lowest index first (20_memory.md R65). -/
def storedBytes (n : Nat) (v : Word) : Bytes := if n = 1 then [v.extractLsb' 0 8] else le32 v

/-- An unspecified value of `n` bytes, by a fresh draw (20_memory.md R71). -/
def State.freshValue (s : State) (n : Nat) : Word × State :=
  (if n = 1 then ((Config.freeWord s.draws).extractLsb' 0 8).setWidth 32 else Config.freeWord s.draws,
   { s with draws := s.draws + 1 })

/-- The value a host read returns, and the state after the draw it may take (20_memory.md R64 to R66, R71). -/
def readTarget (s : State) (n : Nat) : Target → Word × State
  | .reg o =>
    match Reg.at o with
    | none => (0, s)
    | some r => if s.busy && r.volatile then s.freshValue 4 else (s.regView r, s)
  | .raw i => (s.rawMem.value i n, s)
  | .out i => if s.busy then s.freshValue n else (s.outMem.value i n, s)

/-- The effect of a host write (20_memory.md R64, R65, R70). A reserved register ignores it (10_state.md R38);
no write reaches the OUT window. -/
def writeTarget (s : State) (n : Nat) (v : Word) : Target → State
  | .reg o =>
    match Reg.at o with
    | none => s
    | some r => s.regWrite v r
  | .raw i => s.locked { s with rawMem := s.rawMem.writeBytes i (storedBytes n v) }
  | .out _ => s

/-- A host access (20_memory.md R61): its answer goes to `reply`; a bus error ends the run (60_exceptions.md R235). -/
def hostAccess (a : Access) (s : State) : Host.Outcome State Fault Refusal :=
  match a with
  | .read off n =>
    match target s.params false off n with
    | none => .fault (.busError a)
    | some t =>
      let r := readTarget s n t
      .next { r.2 with reply := some (.data r.1) }
  | .write off n v =>
    match target s.params true off n with
    | none => .fault (.busError a)
    | some t => .next (writeTarget { s with reply := some .ok } n v t)

end Sys2Proof.Machine
end

