-- ==== Sys2Proof/Syntax.lean ====
section
/-! DEFINITION. The twelve commands of PNGE (30_encoding.md R94), one constructor per row of the opcode table. -/

namespace Sys2Proof

/-- A command. The only operand carried in a command word is the data byte of CRC_BYTE (30_encoding.md R92);
every other operand is implicit in the registers. -/
inductive Instr where
  /-- NOP, 44_control.md R210. -/
  | nop
  /-- CRC_INIT, 40_crc.md R124. -/
  | crcInit
  /-- CRC_BYTE b, 40_crc.md R125. -/
  | crcByte (b : Byte)
  /-- CRC_BUF, 40_crc.md R126. -/
  | crcBuf
  /-- EMIT_SIG, 41_framer.md R147. -/
  | emitSig
  /-- EMIT_IHDR, 41_framer.md R148. -/
  | emitIhdr
  /-- EMIT_IDAT, 42_deflate.md R179. -/
  | emitIdat
  /-- EMIT_IEND, 41_framer.md R150. -/
  | emitIend
  /-- EMIT_CHUNK, 41_framer.md R149. -/
  | emitChunk
  /-- ENCODE, 43_encode.md R190. -/
  | encode
  /-- OUT_CLEAR, 44_control.md R211. -/
  | outClear
  /-- SOFT_RESET, 44_control.md R212. -/
  | softReset
  deriving DecidableEq, Repr

end Sys2Proof
end

