-- ==== Sys2Proof/WellFormed.lean ====
section
/-! DEFINITION. What can be ill-formed: a command word (30_encoding.md R93), the parameters (00_scope.md R6)
and the operand an assembler is given (30_encoding.md R99). Every term of `Instr` is well formed by its type:
its one operand is a byte. -/

namespace Sys2Proof

/-- The opcodes of 30_encoding.md R94 whose words must have bits [31:8] zero: all but CRC_BYTE's. -/
def plainOpcodes : List Byte := [0x00, 0x01, 0x03, 0x10, 0x11, 0x12, 0x13, 0x14, 0x20, 0x30, 0xFF]

/-- A legal command word, in the match and mask form of 30_encoding.md R93. -/
def wordLegal (w : Word) : Bool :=
  (w &&& 0xFFFFFF00#32 == 0 && plainOpcodes.contains (w.setWidth 8)) || w &&& 0xFFFF00FF#32 == 0x00000002#32

/-- The constraint of 00_scope.md R6 on a buffer capacity: "multiple of 4; 4 ≤ cap ≤ 0x400000". -/
def capOk (cap : Nat) : Bool := cap % 4 == 0 && decide (4 ≤ cap) && decide (cap ≤ 0x400000)

/-- The constraints of 00_scope.md R6 on the parameters. -/
def Params.wf (p : Params) : Bool := capOk p.rawCap && capOk p.outCap

/-- The operand check of 30_encoding.md R99: "An assembler must refuse `cmd CRC_BYTE, b` with b > 255". -/
def asmOperand (b : Nat) : Option Byte := if b ≤ 255 then some (BitVec.ofNat 8 b) else none

end Sys2Proof
end

