-- ==== Sys2Proof/Decode.lean ====
section
/-! DEFINITION. Decoding a command word (30_encoding.md R90, R93 to R97), rejecting by name, and the encoder. -/

namespace Sys2Proof

/-- Why a word is illegal (30_encoding.md R95): a reserved opcode, a nonzero RSV field, or a nonzero IMM8
outside CRC_BYTE. Each completes with BAD_CMD. -/
inductive Illegal where
  | reservedOpcode
  | reservedField
  | immediateField
  deriving DecidableEq, Repr

/-- OPC = w[7:0] (30_encoding.md R90). -/
def opcField (w : Word) : Byte := w.extractLsb' 0 8

/-- IMM8 = w[15:8] (30_encoding.md R90, R92). -/
def immField (w : Word) : Byte := w.extractLsb' 8 8

/-- RSV = w[31:16] (30_encoding.md R90). -/
def rsvField (w : Word) : BitVec 16 := w.extractLsb' 16 16

/-- The opcode map of 30_encoding.md R94; every other opcode is reserved. -/
def ofOpcode (opc imm : Byte) : Option Instr :=
  match opc.toNat with
  | 0x00 => some .nop
  | 0x01 => some .crcInit
  | 0x02 => some (.crcByte imm)
  | 0x03 => some .crcBuf
  | 0x10 => some .emitSig
  | 0x11 => some .emitIhdr
  | 0x12 => some .emitIdat
  | 0x13 => some .emitIend
  | 0x14 => some .emitChunk
  | 0x20 => some .encode
  | 0x30 => some .outClear
  | 0xFF => some .softReset
  | _ => none

/-- Decode of a command word (30_encoding.md R93). A decoder needs nothing but the word (R90). -/
def decode (w : Word) : Except Illegal Instr :=
  match ofOpcode (opcField w) (immField w) with
  | none => .error .reservedOpcode
  | some i =>
    if rsvField w ≠ 0 then .error .reservedField
    else if immField w ≠ 0 ∧ opcField w ≠ 0x02 then .error .immediateField
    else .ok i

/-- The opcode of a command (30_encoding.md R94). -/
def opcode : Instr → Byte
  | .nop => 0x00
  | .crcInit => 0x01
  | .crcByte _ => 0x02
  | .crcBuf => 0x03
  | .emitSig => 0x10
  | .emitIhdr => 0x11
  | .emitIdat => 0x12
  | .emitIend => 0x13
  | .emitChunk => 0x14
  | .encode => 0x20
  | .outClear => 0x30
  | .softReset => 0xFF

/-- The IMM8 field of a command: the data byte of CRC_BYTE, 0 for every other (30_encoding.md R90). -/
def immOf : Instr → Byte
  | .crcByte b => b
  | .nop | .crcInit | .crcBuf | .emitSig | .emitIhdr | .emitIdat | .emitIend | .emitChunk | .encode | .outClear
  | .softReset => 0

/-- The command word of a command: RSV, IMM8, OPC from the top down (30_encoding.md R90, R94). -/
def encode (i : Instr) : Word := (0#16 ++ immOf i ++ opcode i : BitVec (16 + 8 + 8))

/-- The command our decoder reads from the table's bits: bit 0 of the table is bit 0 of the command word,
which is one number and is stored in no memory (30_encoding.md R91; log 21). -/
def decodeTableWord (nbits w : Nat) : Option Instr :=
  let v := w % 2 ^ nbits
  if v < 2 ^ 32 then (decode (BitVec.ofNat 32 v)).toOption else none

end Sys2Proof
end

