-- ==== Sys2Proof/Machine/Control.lean ====
section
/-! DEFINITION. The control commands (44_control.md R210 to R212). -/

namespace Sys2Proof.Machine

/-- NOP (44_control.md R210). -/
def execNop (s : State) : Host.Outcome State Fault Refusal := .next (s.finish (.ok s))

/-- OUT_CLEAR (44_control.md R211). -/
def execOutClear (s : State) : Host.Outcome State Fault Refusal := .next (s.finish (.ok { s with outLen := 0 }))

/-- SOFT_RESET (44_control.md R212), performed within the host's CMD write and not completed by the ENGINE. -/
def execSoftReset (s : State) : Host.Outcome State Fault Refusal := .next s.softReset

end Sys2Proof.Machine
end

