-- ==== Sys2Proof/Machine/Crc.lean ====
section
/-! DEFINITION. The CRC commands (40_crc.md R124 to R126). -/

namespace Sys2Proof.Machine

/-- CRC_INIT (40_crc.md R124). -/
def execCrcInit (s : State) : Host.Outcome State Fault Refusal :=
  .next (s.finish (.ok { s with crcState := crcInitValue }))

/-- CRC_BYTE b (40_crc.md R125). -/
def execCrcByte (b : Byte) (s : State) : Host.Outcome State Fault Refusal :=
  .next (s.finish (.ok { s with crcState := crcStep s.crcState b }))

/-- What CRC_BUF makes of a state (40_crc.md R126). -/
def crcBufBody (s : State) : Except CmdError State :=
  match s.rawPayload with
  | .error e => .error e
  | .ok m => .ok { s with crcState := crcRun s.crcState m }

/-- CRC_BUF (40_crc.md R126). -/
def execCrcBuf (s : State) : Host.Outcome State Fault Refusal := .next (s.finish (crcBufBody s))

end Sys2Proof.Machine
end

