-- ==== Sys2Proof/Machine/Deflate.lean ====
section
/-! DEFINITION. The IDAT command (42_deflate.md R179). -/

namespace Sys2Proof.Machine

/-- What EMIT_IDAT makes of a state (42_deflate.md R179). -/
def emitIdatBody (s : State) : Except CmdError State :=
  match s.idatPayload with
  | .error e => .error e
  | .ok z => emitChunk tagIDAT z s

/-- EMIT_IDAT (42_deflate.md R179). -/
def execEmitIdat (s : State) : Host.Outcome State Fault Refusal := .next (s.finish (emitIdatBody s))

end Sys2Proof.Machine
end

