-- ==== Sys2Proof/Machine/Encode.lean ====
section
/-! DEFINITION. Whole-stream encode (43_encode.md R190). -/

namespace Sys2Proof.Machine

/-- What ENCODE makes of a state (43_encode.md R190). -/
def encodeBody (s : State) : Except CmdError State :=
  match s.idatPayload with
  | .error e => .error e
  | .ok z =>
    match outReplace (pngStream s.width s.height z) s with
    | .error e => .error e
    | .ok s' => .ok { s' with crcState := crcRun crcInitValue tagIEND }

/-- ENCODE (43_encode.md R190). -/
def execEncode (s : State) : Host.Outcome State Fault Refusal := .next (s.finish (encodeBody s))

end Sys2Proof.Machine
end

