-- ==== Sys2Proof/Machine/Framer.lean ====
section
/-! DEFINITION. The framer commands (41_framer.md R147 to R150). -/

namespace Sys2Proof.Machine

/-- EMIT_SIG (41_framer.md R147). -/
def execEmitSig (s : State) : Host.Outcome State Fault Refusal := .next (s.finish (outAppend sig s))

/-- What EMIT_IHDR makes of a state (41_framer.md R148). -/
def emitIhdrBody (s : State) : Except CmdError State :=
  if dimOk s.width s.height = false then .error .badDim
  else emitChunk tagIHDR (ihdrData s.width s.height) s

/-- EMIT_IHDR (41_framer.md R148). -/
def execEmitIhdr (s : State) : Host.Outcome State Fault Refusal := .next (s.finish (emitIhdrBody s))

/-- What EMIT_CHUNK makes of a state (41_framer.md R149). -/
def emitChunkBody (s : State) : Except CmdError State :=
  match s.rawPayload with
  | .error e => .error e
  | .ok d => emitChunk (typeTag s.chunkType) d s

/-- EMIT_CHUNK (41_framer.md R149). -/
def execEmitChunk (s : State) : Host.Outcome State Fault Refusal := .next (s.finish (emitChunkBody s))

/-- EMIT_IEND (41_framer.md R150). -/
def execEmitIend (s : State) : Host.Outcome State Fault Refusal := .next (s.finish (emitChunk tagIEND [] s))

end Sys2Proof.Machine
end

