-- ==== Sys2Proof/Machine/Dispatch.lean ====
section
/-! DEFINITION. One arm per command (30_encoding.md R94). -/

namespace Sys2Proof.Machine

-- What performing a command makes of a state.
def exec (i : Instr) (s : State) : Host.Outcome State Fault Refusal :=
  match i with
  | .nop => Sys2Proof.Machine.execNop s
  | .crcInit => Sys2Proof.Machine.execCrcInit s
  | .crcByte b => Sys2Proof.Machine.execCrcByte b s
  | .crcBuf => Sys2Proof.Machine.execCrcBuf s
  | .emitSig => Sys2Proof.Machine.execEmitSig s
  | .emitIhdr => Sys2Proof.Machine.execEmitIhdr s
  | .emitIdat => Sys2Proof.Machine.execEmitIdat s
  | .emitIend => Sys2Proof.Machine.execEmitIend s
  | .emitChunk => Sys2Proof.Machine.execEmitChunk s
  | .encode => Sys2Proof.Machine.execEncode s
  | .outClear => Sys2Proof.Machine.execOutClear s
  | .softReset => Sys2Proof.Machine.execSoftReset s

end Sys2Proof.Machine
end

