-- ==== Sys2Proof/Machine/Engine.lean ====
section
/-! DEFINITION. The ENGINE's step (70_reset_and_hazards.md R275). -/

namespace Sys2Proof.Machine

/-- The ENGINE performs PENDING, all of its effect in this one step (20_memory.md R74): the command it decodes to, or
BAD_CMD for an illegal word (30_encoding.md R95). A latched 0x000000FF is unreachable (log 10). -/
def performPending (s : State) : Host.Outcome State Fault Refusal :=
  match decode s.pending with
  | .ok i => exec i s
  | .error _ => .next (s.raise .badCmd)

/-- A turn of the ENGINE, which "has a step exactly when BUSY = 1". -/
def engineTurn (s : State) : Host.Outcome State Fault Refusal := if s.busy then performPending s else .next s

end Sys2Proof.Machine
end

