-- ==== Sys2Proof/Machine/Step.lean ====
section
/-! DEFINITION. One step: the next event of the total order of 20_memory.md R75. -/

namespace Sys2Proof.Machine

/-- The state with its first event taken off the script. -/
def State.advance (s : State) : State := { s with script := s.script.tail }

/-- One step. The next event of the script happens; when no event is left the ENGINE finishes a pending command
(the weak fairness of 70_reset_and_hazards.md R276, log 2), and an idle PNGE stays as it is (log 12). -/
def step (s : State) : Host.Outcome State Fault Refusal :=
  match s.script with
  | [] => engineTurn s
  | .engine :: _ => engineTurn s.advance
  | .host a :: _ => hostAccess a s.advance
  | .reset :: _ => .next s.advance.hardReset

/-- The command word `w` about to run as the very next step (log 13): accepted into PENDING with the ENGINE's turn
next, or, for SOFT_RESET, which acts at the CMD write (30_encoding.md R96), that write next. -/
def State.withFetchWord (s : State) (nbits w : Nat) : State :=
  let word : Word := BitVec.ofNat 32 (w % 2 ^ nbits)
  if word = 0x000000FF#32 then { s with script := .host (.write 0x004 4 word) :: s.script }
  else { s.accept word with script := .engine :: s.script }

end Sys2Proof.Machine
end

