-- ==== Sys2Proof/Machine/HostAsm.lean ====
section
/-! DEFINITION. The host assembly language (30_encoding.md R98, R99): statements and the events they stand for. -/

namespace Sys2Proof.Machine

/-- The place a statement names (30_encoding.md R98): a register, `RAW+k`, `OUT+k`, or a bare offset. -/
inductive Loc where
  | reg (r : Reg)
  | raw (k : Nat)
  | out (k : Nat)
  | abs (off : Offset)
  deriving DecidableEq, Repr

/-- An offset of the window, or `none` for a number outside it. -/
def toOffset (o : Nat) : Option Offset := if o < 2 ^ 24 then some (BitVec.ofNat 24 o) else none

/-- The offset of a place (30_encoding.md R98). -/
def Loc.offset : Loc → Option Offset
  | .reg r => some r.offset
  | .raw k => toOffset (0x400000 + k)
  | .out k => toOffset (0x800000 + k)
  | .abs off => some off

/-- A statement of the host assembly (30_encoding.md R98) or a pseudo-instruction (R99). `cmdByte b` is
`cmd CRC_BYTE, b` with the operand as written; `wait polls` is a `wait` in which `polls` reads of STATUS come before
the ENGINE's turn (log 14). -/
inductive Stmt where
  | wr32 (x : Loc) (v : Word)
  | wr8 (x : Loc) (v : Byte)
  | rd32 (x : Loc)
  | rd8 (x : Loc)
  | cmd (i : Instr)
  | cmdByte (b : Nat)
  | wait (polls : Nat)
  | ack
  | wrbytes (k : Nat) (bs : Bytes)
  | setraw (n : Word)
  | settype (a b c d : Byte)
  deriving DecidableEq, Repr

/-- `wr32 X, v`. -/
def wr32At (off : Offset) (v : Word) : Event := .host (.write off 4 v)

/-- `wr8 X, v`. -/
def wr8At (off : Offset) (v : Byte) : Event := .host (.write off 1 (v.setWidth 32))

/-- `rd32 STATUS`. -/
def pollStatus : Event := .host (.read Reg.status.offset 4)

/-- `wrbytes RAW+k, b0 b1 …`: one `wr8` a byte, in order (30_encoding.md R99). -/
def assembleBytes : Nat → Bytes → Option (List Event)
  | _, [] => some []
  | k, b :: bs =>
    match (Loc.raw k).offset, assembleBytes (k + 1) bs with
    | some off, some es => some (wr8At off b :: es)
    | _, _ => none

/-- The events a statement stands for; `none` where an assembler refuses it (30_encoding.md R99). -/
def Stmt.assemble : Stmt → Option (List Event)
  | .wr32 x v => x.offset.map fun off => [wr32At off v]
  | .wr8 x v => x.offset.map fun off => [wr8At off v]
  | .rd32 x => x.offset.map fun off => [.host (.read off 4)]
  | .rd8 x => x.offset.map fun off => [.host (.read off 1)]
  | .cmd i => some [wr32At Reg.cmd.offset (encode i)]
  | .cmdByte b => (asmOperand b).map fun imm => [wr32At Reg.cmd.offset (encode (.crcByte imm))]
  | .wait polls => some (List.replicate polls pollStatus ++ [.engine, pollStatus])
  | .ack => some [wr32At Reg.status.offset 0x0000000A]
  | .wrbytes k bs => assembleBytes k bs
  | .setraw n => some [wr32At Reg.rawLen.offset n]
  | .settype a b c d => some [wr32At Reg.chunkType.offset (ofBe32 a b c d)]

/-- The events of a host program, statement after statement. -/
def assemble : List Stmt → Option (List Event)
  | [] => some []
  | st :: sts =>
    match st.assemble, assemble sts with
    | some es, some rest => some (es ++ rest)
    | _, _ => none

end Sys2Proof.Machine
end

