-- ==== Sys2Proof/Machine/Reader.lean ====
section
/-! DEFINITION. Reading a PNG stream back, as the laws of 43_encode.md R192 do. Nothing in a step runs this. -/

namespace Sys2Proof.Machine

/-- A big-endian word at the front of a byte string, and the rest. -/
def readBe32 : Bytes → Option (Word × Bytes)
  | b0 :: b1 :: b2 :: b3 :: rest => some (ofBe32 b0 b1 b2 b3, rest)
  | _ => none

/-- One chunk at the front of a byte string: its type and payload, when its length field and its CRC agree with its
bytes (the "round-trip CRC check" of 43_encode.md R192(b)), and the rest. -/
def readChunk (p : Bytes) : Option ((Bytes × Bytes) × Bytes) :=
  match readBe32 p with
  | none => none
  | some (len, q) =>
    let t := q.take 4
    let d := (q.drop 4).take len.toNat
    if t.length = 4 ∧ d.length = len.toNat then
      match readBe32 (q.drop (4 + len.toNat)) with
      | none => none
      | some (c, rest) => if c = crc32 (t ++ d) then some ((t, d), rest) else none
    else none

/-- Chunks up to the end of the byte string; the fuel is spent once a chunk. -/
def readChunks : Nat → Bytes → Option (List (Bytes × Bytes))
  | _, [] => some []
  | 0, _ :: _ => none
  | fuel + 1, b :: p =>
    match readChunk (b :: p) with
    | none => none
    | some (c, rest) => (readChunks fuel rest).map fun cs => c :: cs

/-- A PNG stream read back: the signature, then chunks (43_encode.md R192(a), (b)). -/
def readPng (p : Bytes) : Option (List (Bytes × Bytes)) :=
  if p.take 8 = sig then readChunks p.length (p.drop 8) else none

/-- The fields of an IHDR payload (41_framer.md R143). -/
structure Ihdr where
  width : Word
  height : Word
  bitDepth : Byte
  colourType : Byte
  compression : Byte
  filter : Byte
  interlace : Byte
  deriving DecidableEq, Repr

/-- An IHDR payload parsed back (43_encode.md R192(c)). -/
def readIhdr (d : Bytes) : Option Ihdr :=
  match readBe32 d with
  | none => none
  | some (w, d₁) =>
    match readBe32 d₁ with
    | some (h, [bd, ct, cm, fm, il]) =>
      some { width := w, height := h, bitDepth := bd, colourType := ct, compression := cm, filter := fm, interlace := il }
    | _ => none

end Sys2Proof.Machine
end

