-- ==== Sys2Proof/Safety.lean ====
section
/-! DEFINITION. The terms claims are made in: the invariant of a PNGE state, safe runs, the end of a run, and the
effect of a command on the output stream. -/

namespace Sys2Proof.Machine

/-- A state that PNGE can be in: the parameters are legal (00_scope.md R6), the stream fits (10_state.md R35), the
STATUS fields agree (R27, R231; 93 U10), a pending command is not SOFT_RESET (30_encoding.md R96) and was accepted
without error (70_reset_and_hazards.md R274), both buffers are canonical and inside their capacity (R40, R41), and no
draw of a free value is ever taken twice. -/
structure State.Inv (s : State) : Prop where
  params : s.params.wf = true
  outLen : s.outLen.toNat ≤ s.params.outCap
  noCode : s.err = false → s.errCode = 0
  code : s.err = true → 1 ≤ s.errCode.toNat ∧ s.errCode.toNat ≤ 6
  busyDone : s.busy = true → s.done = false
  busyErr : s.busy = true → s.err = false
  pending : s.busy = true → s.pending ≠ 0x000000FF#32
  rawWf : s.rawMem.wf = true
  rawIn : s.rawMem.within s.params.rawCap = true
  outWf : s.outMem.wf = true
  outIn : s.outMem.within s.params.outCap = true
  rawDraw : s.rawMem.draw < s.draws
  outDraw : s.outMem.draw < s.draws

/-- The state with a host program and a schedule in front of it (log 1, log 13). -/
def State.withScript (s : State) (es : List Event) : State := { s with script := es }

/-- An event that is an access of the host. -/
def Event.isHost : Event → Bool
  | .host _ => true
  | .engine => false
  | .reset => false

/-- The run is over (70_reset_and_hazards.md R279): the host has performed its last access and BUSY = 0. Turns of the
ENGINE and resets that stand after that are no part of the run. -/
def State.runOver (s : State) : Bool := !s.script.any Event.isHost && !s.busy

/-- The PNG a run produced, if any, of the run's final state (70_reset_and_hazards.md R279). -/
def State.png (s : State) : Option Bytes := if s.err then none else some s.outStream

/-- A run of `k` steps that meets no bus error, the safe runs of 70_reset_and_hazards.md R279. -/
def SafeRun (k : Nat) (s t : State) : Prop := Sys2Proof.core.run k s = .next t

/-- The run from `s` ends at `t` after `k` steps (70_reset_and_hazards.md R279): `t` is the first of its states at which it
is over, and `t` is its result. -/
def RunEnds (k : Nat) (s t : State) : Prop :=
  SafeRun k s t ∧ t.runOver = true ∧ ∀ j < k, ∀ u : State, SafeRun j s u → u.runOver = false

/-- The run from `s` ends as a fault (70_reset_and_hazards.md R279): after `k` steps the host's access `a` gets a bus
error. -/
def RunFaults (k : Nat) (s : State) (a : Access) : Prop := ∃ t, SafeRun k s t ∧ step t = .fault (.busError a)

/-- Commands performed one after another, stopping after the first that ends in an error, as the sticky ERR makes
PNGE do (60_exceptions.md R238). -/
def performAll : List Instr → State → Host.Outcome State Fault Refusal
  | [], s => .next s
  | i :: is, s =>
    match exec i s with
    | .next t => if t.err then .next t else performAll is t
    | .fault f => .fault f
    | .refused r => .refused r

/-- `t` has the byte string `b` written into OUT_MEM from index `at0` on, and every other byte of `s` unchanged. -/
def WrittenAt (at0 : Nat) (b : Bytes) (s t : State) : Prop :=
  t.outMem.readBytes at0 b.length = b ∧
    ∀ a, a < at0 ∨ at0 + b.length ≤ a → t.outMem.read a = s.outMem.read a

/-- `t` is `s` after a command that appended `b` to the stream, left `crc` in CRC_STATE and completed: OUT_LEN grew by
the length of `b`, its bytes stand at the old OUT_LEN, and nothing else changed (20_memory.md R83,
70_reset_and_hazards.md R275). -/
def Appended (b : Bytes) (crc : Word) (s t : State) : Prop :=
  WrittenAt s.outLen.toNat b s t ∧ t.outLen.toNat = s.outLen.toNat + b.length ∧
    t = { s with outMem := t.outMem, outLen := t.outLen, crcState := crc, busy := false, done := true }

/-- An event by which the ERR bit may fall (60_exceptions.md R238): a CMD write of SOFT_RESET, or a hardware reset. -/
def Event.clearsError : Event → Bool
  | .reset => true
  | .host (.write off n w) => off == Reg.cmd.offset && n == 4 && w == 0x000000FF#32
  | .host (.read _ _) => false
  | .engine => false

end Sys2Proof.Machine
end

