-- ==== Sys2Proof/Certificates/Slice0/Obligations.lean ====
section
/-! DEFINITION. The statements for the provers. Each cites the rule of spec/ it formalises; where one rests on a
choice of the model's, its docstring names the log entry. -/

open Sys2Proof Sys2Proof.Machine

/-! ## Reset and the invariant -/

/-- 70_reset_and_hazards.md R271, both columns. A hardware reset leaves every register at its reset value and both
buffers unspecified; the SOFT_RESET write leaves STATUS, PENDING, CRC_STATE and OUT_LEN at theirs and the rest
unchanged, OUT_MEM unspecified when a command was aborted; the constants do not move. (That an unspecified byte is a
free value of a fresh draw is the model's choice, log 6 and 7; that the parameters and the host's events survive a reset
is log 11.) -/
def Obligations.ResetAndSoftResetState : Prop :=
  (∀ (s : State) (r : List Event), s.script = .reset :: r →
    ∃ t, step s = .next t ∧ t.width = 0x64 ∧ t.height = 0x64 ∧ t.rawLen = 0 ∧ t.chunkType = 0 ∧
      t.crcState = 0xFFFFFFFF ∧ t.regView .crcResult = 0 ∧ t.outLen = 0 ∧ t.intEnWord = 0 ∧ t.statusWord = 0 ∧
      t.busy = false ∧ t.done = false ∧ t.err = false ∧ t.drop = false ∧ t.errCode = 0 ∧ t.pending = 0 ∧
      t.irq = false ∧
      (∃ d₁ d₂, s.draws ≤ d₁ ∧ s.draws ≤ d₂ ∧ d₁ ≠ d₂ ∧ (∀ i, t.rawMem.read i = Config.freeByte d₁ i) ∧
        ∀ i, t.outMem.read i = Config.freeByte d₂ i) ∧
      (∀ c ∈ [Reg.id, Reg.rawCap, Reg.outCap], t.regView c = s.regView c) ∧ t.script = r) ∧
  (∀ (s : State) (r : List Event), s.script = .host (.write Reg.cmd.offset 4 0x000000FF) :: r →
    ∃ t, step s = .next t ∧ t.width = s.width ∧ t.height = s.height ∧ t.rawLen = s.rawLen ∧
      t.chunkType = s.chunkType ∧ t.crcState = 0xFFFFFFFF ∧ t.outLen = 0 ∧ t.intEnWord = s.intEnWord ∧
      t.statusWord = 0 ∧ t.busy = false ∧ t.done = false ∧ t.err = false ∧ t.drop = false ∧ t.errCode = 0 ∧
      t.pending = 0 ∧ (∀ i, t.rawMem.read i = s.rawMem.read i) ∧
      (s.busy = false → ∀ i, t.outMem.read i = s.outMem.read i) ∧
      (s.busy = true → ∃ d, s.draws ≤ d ∧ ∀ i, t.outMem.read i = Config.freeByte d i) ∧
      (∀ c ∈ [Reg.id, Reg.rawCap, Reg.outCap], t.regView c = s.regView c) ∧ t.script = r)

/-- The state after reset is a PNGE state, for every legal choice of the parameters, and so is `State.reset`. -/
def Obligations.InvariantHoldsAtReset : Prop :=
  (∀ (p : Params) (d : Nat), p.wf = true → (State.resetWith p d).Inv) ∧ State.reset.Inv

/-- Every step keeps the invariant, from every state that has it: the parameters stay legal, the stream fits OUT_CAP,
ERR = 0 implies ERR_CODE = 0, BUSY = 1 implies DONE = 0, both buffers stay canonical and in bounds, no free draw repeats. -/
def Obligations.StepKeepsInvariant : Prop :=
  ∀ s t : State, s.Inv → step s = .next t → t.Inv

/-- On every run from reset, whatever the parameters and whatever the host does in whatever order with the ENGINE: the
invariants of 10_state.md R27 and R35, no reserved ERR_CODE (60_exceptions.md R231), and parameters that never move. -/
def Obligations.StatusInvariantsOnEveryRun : Prop :=
  ∀ (p : Params) (d k : Nat) (es : List Event) (t : State), p.wf = true →
    SafeRun k ((State.resetWith p d).withScript es) t →
    (t.err = false → t.errCode = 0) ∧ (t.busy = true → t.done = false) ∧ t.outLen.toNat ≤ t.params.outCap ∧
      t.errCode.toNat ≤ 6 ∧ t.params = p

/-! ## Encoding -/

/-- Decode and encode agree both ways: every command with every operand byte decodes back from its word, and a word
that decodes is the word of its command, so no bit of it is dropped (30_encoding.md R90, R93, R94). -/
def Obligations.DecodeEncodeAgree : Prop :=
  (∀ i : Instr, decode (encode i) = .ok i) ∧ ∀ (w : Word) (i : Instr), decode w = .ok i → encode i = w

/-- 30_encoding.md R93: the words the decoder takes are exactly the legal ones, in the rule's field form and in its match
and mask form. -/
def Obligations.DecodeTakesExactlyTheLegalWords : Prop :=
  ∀ w : Word,
    ((∃ i, decode w = .ok i) ↔
      (w.extractLsb' 0 8 ∈ ([0x00, 0x01, 0x02, 0x03, 0x10, 0x11, 0x12, 0x13, 0x14, 0x20, 0x30, 0xFF] : List Byte) ∧
        w.extractLsb' 16 16 = 0 ∧ (w.extractLsb' 0 8 ≠ 0x02 → w.extractLsb' 8 8 = 0))) ∧
    ((∃ i, decode w = .ok i) ↔ wordLegal w = true)

/-- 30_encoding.md R94: the full words and the opcodes of the twelve commands, and that every other opcode is reserved. -/
def Obligations.CommandWordsOfTheOpcodeMap : Prop :=
  decode 0x00000000 = .ok .nop ∧ decode 0x00000001 = .ok .crcInit ∧
    (∀ b : Byte, decode ((b.setWidth 32 <<< 8) ||| 0x02) = .ok (.crcByte b)) ∧ decode 0x00000003 = .ok .crcBuf ∧
    decode 0x00000010 = .ok .emitSig ∧ decode 0x00000011 = .ok .emitIhdr ∧ decode 0x00000012 = .ok .emitIdat ∧
    decode 0x00000013 = .ok .emitIend ∧ decode 0x00000014 = .ok .emitChunk ∧ decode 0x00000020 = .ok .encode ∧
    decode 0x00000030 = .ok .outClear ∧ decode 0x000000FF = .ok .softReset ∧
    ∀ w : Word,
      w.extractLsb' 0 8 ∉ ([0x00, 0x01, 0x02, 0x03, 0x10, 0x11, 0x12, 0x13, 0x14, 0x20, 0x30, 0xFF] : List Byte) →
      ∀ i, decode w ≠ .ok i

/-- 30_encoding.md R95: an illegal word that is accepted completes with BAD_CMD and no other effect; the reserved opcodes,
a nonzero RSV field and a nonzero IMM8 outside CRC_BYTE are all illegal, and so is a word with OPC 0xFF and any bit of
[31:8] set. -/
def Obligations.IllegalWordsCompleteWithBadCmd : Prop :=
  (∀ s : State, s.busy = true → (∀ i, decode s.pending ≠ .ok i) →
    engineTurn s = .next { s with err := true, errCode := 1, busy := false, done := true }) ∧
  (∀ (w : Word) (o : Byte), w.extractLsb' 0 8 = o →
    (0x04 ≤ o.toNat ∧ o.toNat ≤ 0x0F ∨ 0x15 ≤ o.toNat ∧ o.toNat ≤ 0x1F ∨ 0x21 ≤ o.toNat ∧ o.toNat ≤ 0x2F ∨
      0x31 ≤ o.toNat ∧ o.toNat ≤ 0xFE) → ∀ i, decode w ≠ .ok i) ∧
  (∀ w : Word, w.extractLsb' 16 16 ≠ 0 → ∀ i, decode w ≠ .ok i) ∧
  (∀ w : Word, w.extractLsb' 8 8 ≠ 0 → w.extractLsb' 0 8 ≠ 0x02 → ∀ i, decode w ≠ .ok i) ∧
  (∀ w : Word, w.extractLsb' 0 8 = 0xFF → w.extractLsb' 8 24 ≠ 0 → ∀ i, decode w ≠ .ok i)

/-- 30_encoding.md R98, R99: the offset a place stands for, what each statement and pseudo-instruction stands for, and
that `cmd CRC_BYTE, b` with b > 255 is refused. (The form of `wait`, with its polls before the ENGINE's turn counted, and
that a place outside the window is refused are the model's, log 14.) -/
def Obligations.HostAssemblyExpansions : Prop :=
  ((∀ r : Reg, (Loc.reg r).offset = some r.offset) ∧
    (∀ k : Nat, k < 0xC00000 → (Loc.raw k).offset = some (BitVec.ofNat 24 (0x400000 + k))) ∧
    (∀ k : Nat, k < 0x800000 → (Loc.out k).offset = some (BitVec.ofNat 24 (0x800000 + k))) ∧
    (∀ off : Offset, (Loc.abs off).offset = some off) ∧
    (∀ k : Nat, 0xC00000 ≤ k → (Loc.raw k).offset = none) ∧ ∀ k : Nat, 0x800000 ≤ k → (Loc.out k).offset = none) ∧
  (∀ (x : Loc) (off : Offset), x.offset = some off →
    (∀ v : Word, (Stmt.wr32 x v).assemble = some [.host (.write off 4 v)]) ∧
    (∀ v : Byte, (Stmt.wr8 x v).assemble = some [.host (.write off 1 (v.setWidth 32))]) ∧
    (Stmt.rd32 x).assemble = some [.host (.read off 4)] ∧ (Stmt.rd8 x).assemble = some [.host (.read off 1)]) ∧
  (∀ x : Loc, x.offset = none →
    (∀ v : Word, (Stmt.wr32 x v).assemble = none) ∧ (∀ v : Byte, (Stmt.wr8 x v).assemble = none) ∧
      (Stmt.rd32 x).assemble = none ∧ (Stmt.rd8 x).assemble = none) ∧
  (∀ i : Instr, (Stmt.cmd i).assemble = some [.host (.write 0x004 4 (encode i))]) ∧
  (∀ b : Nat, b ≤ 255 → (Stmt.cmdByte b).assemble =
    some [.host (.write 0x004 4 ((BitVec.ofNat 32 b <<< 8) ||| 0x02))]) ∧
  (∀ b : Nat, 255 < b → (Stmt.cmdByte b).assemble = none) ∧
  (∀ polls : Nat, (Stmt.wait polls).assemble =
    some (List.replicate polls (.host (.read 0x008 4)) ++ [.engine, .host (.read 0x008 4)])) ∧
  Stmt.ack.assemble = some [.host (.write 0x008 4 0x0000000A)] ∧
  (∀ n : Word, (Stmt.setraw n).assemble = some [.host (.write 0x018 4 n)]) ∧
  (∀ a b c d : Byte, (Stmt.settype a b c d).assemble = some [.host (.write 0x01C 4
    ((a.setWidth 32 <<< 24) ||| (b.setWidth 32 <<< 16) ||| (c.setWidth 32 <<< 8) ||| d.setWidth 32))]) ∧
  (∀ k : Nat, (Stmt.wrbytes k []).assemble = some []) ∧
  (∀ (k : Nat) (b : Byte) (bs : Bytes) (es : List Event), k < 0xC00000 →
    (Stmt.wrbytes (k + 1) bs).assemble = some es →
    (Stmt.wrbytes k (b :: bs)).assemble =
      some (.host (.write (BitVec.ofNat 24 (0x400000 + k)) 1 (b.setWidth 32)) :: es)) ∧
  (∀ (k : Nat) (b : Byte) (bs : Bytes), 0xC00000 < k + (b :: bs).length → (Stmt.wrbytes k (b :: bs)).assemble = none) ∧
  assemble [] = some [] ∧
  ∀ (st : Stmt) (sts : List Stmt) (es es' : List Event), st.assemble = some es → assemble sts = some es' →
    assemble (st :: sts) = some (es ++ es')

/-! ## The CRC unit -/

/-- 40_crc.md R121: the table is eight bit steps from each index, and it is the one listed in section 4 of that file. -/
def Obligations.CrcTableIsTheListedOne : Prop :=
  (∀ c : Word, bitStep c = if c.getLsbD 0 = true then (c >>> 1) ^^^ 0xEDB88320 else c >>> 1) ∧
  (∀ i : Byte, crcTable i = bitStep^[8] (i.setWidth 32)) ∧
  (List.range 256).map (fun i => crcTable (BitVec.ofNat 8 i)) = crcListing ∧
  crcTable 0x01 = 0x77073096 ∧ crcTable 0x80 = 0xEDB88320 ∧ crcTable 0xFF = 0x2D02EF8D

/-- 40_crc.md R122 and R123: the step, the run and its laws; a CRC may be computed in pieces. -/
def Obligations.CrcStepAndRun : Prop :=
  (∀ (s : Word) (b : Byte), crcStep s b = crcTable ((s ^^^ b.setWidth 32).setWidth 8) ^^^ (s >>> 8)) ∧
  (∀ s : Word, (s >>> 8).extractLsb' 24 8 = 0) ∧
  (∀ s : Word, crcRun s [] = s) ∧
  (∀ (s : Word) (b : Byte) (m : Bytes), crcRun s ([b] ++ m) = crcRun (crcStep s b) m) ∧
  (∀ m : Bytes, crc32 m = crcRun 0xFFFFFFFF m ^^^ 0xFFFFFFFF) ∧
  crc32 [] = 0x00000000 ∧
  ∀ (s : Word) (m₁ m₂ : Bytes), crcRun s (m₁ ++ m₂) = crcRun (crcRun s m₁) m₂

/-- 40_crc.md R124: CRC_INIT completes in every state, setting CRC_STATE and leaving everything else but the completion
bits; CRC_RESULT then reads 0; doing it again changes nothing more; a word with OPC 0x01 and any other bit is illegal. -/
def Obligations.CrcInitResult : Prop :=
  (∀ s : State, ∃ t, exec .crcInit s = .next t ∧
    t = { s with crcState := 0xFFFFFFFF, busy := false, done := true } ∧ t.regView .crcResult = 0 ∧
    exec .crcInit t = .next t) ∧
  decode 0x00000001 = .ok .crcInit ∧
  ∀ w : Word, w.extractLsb' 0 8 = 0x01 → w.extractLsb' 8 24 ≠ 0 → ∀ i, decode w ≠ .ok i

/-- 40_crc.md R125: CRC_BYTE completes in every state with every byte, and the rule's corner cases and example. -/
def Obligations.CrcByteResult : Prop :=
  (∀ (b : Byte) (s : State),
    exec (.crcByte b) s = .next { s with crcState := crcStep s.crcState b, busy := false, done := true }) ∧
  (∀ b : Byte, decode ((b.setWidth 32 <<< 8) ||| 0x02) = .ok (.crcByte b)) ∧
  crcStep 0xFFFFFFFF 0x00 = 0x2DFD1072 ∧ crcStep 0 0x00 = 0 ∧ crcStep 0xFFFFFFFF 0xFF = 0x00FFFFFF ∧
  crcStep 0xFFFFFFFF 0x49 = 0x22FDE946

/-- 40_crc.md R126: CRC_BUF completes whenever RAW_LEN ≤ RAW_CAP (equality included), else ends in RANGE with CRC_STATE
unchanged; RAW_LEN = 0 leaves CRC_STATE; after CRC_INIT the result is the CRC-32 of the buffer; the rule's example. -/
def Obligations.CrcBufResult : Prop :=
  (∀ s : State, s.rawLen.toNat ≤ s.params.rawCap → exec .crcBuf s =
    .next { s with crcState := crcRun s.crcState (s.raw s.rawLen.toNat), busy := false, done := true }) ∧
  (∀ s : State, s.params.rawCap < s.rawLen.toNat → exec .crcBuf s =
    .next { s with err := true, errCode := 3, busy := false, done := true }) ∧
  (∀ s : State, s.rawLen = 0 → exec .crcBuf s = .next { s with busy := false, done := true }) ∧
  (∀ s t u : State, s.rawLen.toNat ≤ s.params.rawCap → exec .crcInit s = .next t → exec .crcBuf t = .next u →
    u.regView .crcResult = crc32 (s.raw s.rawLen.toNat)) ∧
  decode 0x00000003 = .ok .crcBuf ∧
  (crcRun 0xFFFFFFFF [0x49, 0x45, 0x4E, 0x44] = 0x51BD9F7D ∧ crc32 [0x49, 0x45, 0x4E, 0x44] = 0xAE426082)

/-- CRC_BUF is CRC_BYTE of every valid RAW byte in turn: the two ways to feed the CRC unit leave the very same state
(40_crc.md R125, R126). -/
def Obligations.CrcBufIsCrcByteOfEveryByte : Prop :=
  ∀ s : State, s.err = false → 0 < s.rawLen.toNat → s.rawLen.toNat ≤ s.params.rawCap →
    performAll ((s.raw s.rawLen.toNat).map Instr.crcByte) s = exec .crcBuf s

/-! ## The framer -/

/-- 20_memory.md R83: OutAppend appends, byte for byte at OUT_LEN and nowhere else, or raises OUT_OVF; appending nothing
changes nothing. -/
def Obligations.OutAppendAppendsOrOverflows : Prop :=
  (∀ (b : Bytes) (s : State), s.params.outCap < s.outLen.toNat + b.length → outAppend b s = .error .outOvf) ∧
  (∀ (b : Bytes) (s : State), s.params.wf = true → s.outLen.toNat + b.length ≤ s.params.outCap →
    ∃ t, outAppend b s = .ok t ∧ WrittenAt s.outLen.toNat b s t ∧ t.outLen.toNat = s.outLen.toNat + b.length ∧
      t = { s with outMem := t.outMem, outLen := t.outLen }) ∧
  ∀ s : State, s.Inv → outAppend [] s = .ok s

/-- 41_framer.md R141: a successful EmitChunk appends the chunk and leaves the CRC of type and payload in CRC_STATE;
CRC_RESULT is then the chunk's last four bytes, read big-endian; if OutAppend raises, so does EmitChunk. -/
def Obligations.EmitChunkAction : Prop :=
  (∀ (t d : Bytes) (s : State), s.params.wf = true → s.outLen.toNat + (chunk t d).length ≤ s.params.outCap →
    ∃ u, emitChunk t d s = .ok u ∧ WrittenAt s.outLen.toNat (chunk t d) s u ∧
      u.outLen.toNat = s.outLen.toNat + (chunk t d).length ∧ u.crcState = crcRun 0xFFFFFFFF (t ++ d) ∧
      u = { s with outMem := u.outMem, outLen := u.outLen, crcState := u.crcState } ∧
      u.regView .crcResult = crc32 (t ++ d) ∧
      u.outMem.readBytes (u.outLen.toNat - 4) 4 = be32 (u.regView .crcResult)) ∧
  ∀ (t d : Bytes) (s : State), s.params.outCap < s.outLen.toNat + (chunk t d).length →
    emitChunk t d s = .error .outOvf ∧ (s.finish (emitChunk t d s)).crcState = s.crcState

/-- 41_framer.md R140: the serialized form of a chunk: length, type, payload and CRC, in 12 + len(d) bytes. -/
def Obligations.ChunkSerializedForm : Prop :=
  ∀ t d : Bytes, t.length = 4 →
    (chunk t d).length = 12 + d.length ∧ (chunk t d).take 4 = be32 (BitVec.ofNat 32 d.length) ∧
      ((chunk t d).drop 4).take 4 = t ∧ ((chunk t d).drop 8).take d.length = d ∧
      (chunk t d).drop (8 + d.length) = be32 (crc32 (t ++ d))

/-- 41_framer.md R146: the length field of every chunk PNGE frames is its payload's length exactly, within the PNG limit. -/
def Obligations.LengthFieldIsExact : Prop :=
  ∀ (t d : Bytes) (s u : State), t.length = 4 → s.params.wf = true → emitChunk t d s = .ok u →
    d.length ≤ s.params.outCap - 12 ∧ s.params.outCap - 12 < 2 ^ 22 ∧ d.length ≤ 2 ^ 31 - 1 ∧
      ∃ len rest, readBe32 (chunk t d) = some (len, rest) ∧ len.toNat = d.length

/-- 41_framer.md R147: EMIT_SIG appends the eight signature bytes whenever they fit, whatever OUT_LEN is, and leaves
CRC_STATE; else OUT_OVF and nothing else. -/
def Obligations.EmitSigResult : Prop :=
  (∀ s : State, s.params.wf = true → s.outLen.toNat + 8 ≤ s.params.outCap →
    ∃ t, exec .emitSig s = .next t ∧ Appended [0x89, 0x50, 0x4E, 0x47, 0x0D, 0x0A, 0x1A, 0x0A] s.crcState s t) ∧
  (∀ s : State, s.params.outCap < s.outLen.toNat + 8 →
    exec .emitSig s = .next { s with err := true, errCode := 6, busy := false, done := true }) ∧
  decode 0x00000010 = .ok .emitSig

/-- 41_framer.md R148: EMIT_IHDR appends the IHDR chunk of WIDTH × HEIGHT when both are in range and the 25 bytes fit;
BAD_DIM first, then OUT_OVF; the rule's corner cases and example. -/
def Obligations.EmitIhdrResult : Prop :=
  (∀ s : State, s.params.wf = true → dimOk s.width s.height = true → s.outLen.toNat + 25 ≤ s.params.outCap →
    ∃ t, exec .emitIhdr s = .next t ∧
      Appended (chunk tagIHDR (ihdrData s.width s.height))
        (crcRun 0xFFFFFFFF (tagIHDR ++ ihdrData s.width s.height)) s t) ∧
  (∀ s : State, dimOk s.width s.height = false →
    exec .emitIhdr s = .next { s with err := true, errCode := 2, busy := false, done := true }) ∧
  (∀ s : State, dimOk s.width s.height = true → s.params.outCap < s.outLen.toNat + 25 →
    exec .emitIhdr s = .next { s with err := true, errCode := 6, busy := false, done := true }) ∧
  decode 0x00000011 = .ok .emitIhdr ∧ (∀ w h : Word, ihdrData w h = be32 w ++ be32 h ++ [0x08, 0x06, 0x00, 0x00, 0x00]) ∧
  dimOk 0x7FFFFFFF 1 = true ∧ be32 0x7FFFFFFF = [0x7F, 0xFF, 0xFF, 0xFF] ∧ (∀ h : Word, dimOk 0x80000000 h = false) ∧
  chunk tagIHDR (ihdrData 100 100) =
    [0x00, 0x00, 0x00, 0x0D, 0x49, 0x48, 0x44, 0x52, 0x00, 0x00, 0x00, 0x64, 0x00, 0x00, 0x00, 0x64, 0x08, 0x06, 0x00,
     0x00, 0x00, 0x70, 0xE2, 0x95, 0x54] ∧
  crc32 (tagIHDR ++ ihdrData 100 100) = 0x70E29554

/-- 41_framer.md R149: EMIT_CHUNK appends the chunk of CHUNK_TYPE and the valid RAW bytes; RANGE first, then OUT_OVF; an
empty IEND chunk is EMIT_IEND's; the tag is not checked; the rule's example. -/
def Obligations.EmitChunkResult : Prop :=
  (∀ s : State, s.params.wf = true → s.rawLen.toNat ≤ s.params.rawCap →
    s.outLen.toNat + 12 + s.rawLen.toNat ≤ s.params.outCap →
    ∃ t, exec .emitChunk s = .next t ∧
      Appended (chunk (be32 s.chunkType) (s.raw s.rawLen.toNat))
        (crcRun 0xFFFFFFFF (be32 s.chunkType ++ s.raw s.rawLen.toNat)) s t) ∧
  (∀ s : State, s.params.rawCap < s.rawLen.toNat →
    exec .emitChunk s = .next { s with err := true, errCode := 3, busy := false, done := true }) ∧
  (∀ s : State, s.rawLen.toNat ≤ s.params.rawCap → s.params.outCap < s.outLen.toNat + 12 + s.rawLen.toNat →
    exec .emitChunk s = .next { s with err := true, errCode := 6, busy := false, done := true }) ∧
  (∀ s : State, s.chunkType = 0x49454E44 → s.rawLen = 0 → exec .emitChunk s = exec .emitIend s) ∧
  (∀ t : Bytes, t.length = 4 → (chunk t []).length = 12) ∧
  decode 0x00000014 = .ok .emitChunk ∧ be32 0 = [0x00, 0x00, 0x00, 0x00] ∧
  chunk (be32 0x61626364) [0x68, 0x69] =
    [0x00, 0x00, 0x00, 0x02, 0x61, 0x62, 0x63, 0x64, 0x68, 0x69, 0x6E, 0x9F, 0x5A, 0x33]

/-- 41_framer.md R144 and R150: EMIT_IEND appends the twelve bytes of the IEND chunk whenever they fit and leaves its CRC
in CRC_STATE whatever it was before; else OUT_OVF. -/
def Obligations.EmitIendResult : Prop :=
  (∀ s : State, s.params.wf = true → s.outLen.toNat + 12 ≤ s.params.outCap →
    ∃ t, exec .emitIend s = .next t ∧
      Appended [0x00, 0x00, 0x00, 0x00, 0x49, 0x45, 0x4E, 0x44, 0xAE, 0x42, 0x60, 0x82] 0x51BD9F7D s t ∧
      t.regView .crcResult = 0xAE426082) ∧
  (∀ s : State, s.params.outCap < s.outLen.toNat + 12 →
    exec .emitIend s = .next { s with err := true, errCode := 6, busy := false, done := true }) ∧
  decode 0x00000013 = .ok .emitIend ∧
  chunk tagIEND [] = [0x00, 0x00, 0x00, 0x00, 0x49, 0x45, 0x4E, 0x44, 0xAE, 0x42, 0x60, 0x82]

/-! ## The DEFLATE engine -/

/-- 42_deflate.md R178: DimOK is both fields between 1 and 0x7FFFFFFF, that is, both positive as two's complement. -/
def Obligations.DimOkIsPositiveAsSigned : Prop :=
  ∀ w h : Word,
    (dimOk w h = true ↔ (1 ≤ w.toNat ∧ w.toNat ≤ 0x7FFFFFFF) ∧ 1 ≤ h.toNat ∧ h.toNat ≤ 0x7FFFFFFF) ∧
    (dimOk w h = true ↔ 0 < w.toInt ∧ 0 < h.toInt)

/-- 42_deflate.md R170 and R171: the layout tiles the raw buffer: every index below RawLenOf is the filter byte of one row
or one channel of one pixel, every such byte is below it, and no two are the same; RawLenOf fits 64 bits. -/
def Obligations.ScanlineLayoutTilesTheBuffer : Prop :=
  (∀ w h i : Nat, i < rawLenOf w h →
    (∃ r < h, i = r * (1 + 4 * w)) ∨ ∃ r < h, ∃ x < w, ∃ c < 4, i = r * (1 + 4 * w) + 1 + 4 * x + c) ∧
  (∀ w h r : Nat, r < h → filterIndex w r = r * (1 + 4 * w) ∧ filterIndex w r < rawLenOf w h ∧
    ∀ x < w, ∀ c < 4, channelIndex w r x c = r * (1 + 4 * w) + 1 + 4 * x + c ∧ channelIndex w r x c < rawLenOf w h ∧
      ∀ r', filterIndex w r' ≠ channelIndex w r x c) ∧
  (∀ w r x c r' x' c' : Nat, x < w → x' < w → c < 4 → c' < 4 →
    channelIndex w r x c = channelIndex w r' x' c' → r = r' ∧ x = x' ∧ c = c') ∧
  rawLenOf 100 100 = 40100 ∧ ∀ w h : Nat, w < 2 ^ 31 → h < 2 ^ 31 → rawLenOf w h < 2 ^ 64

/-- 42_deflate.md R172, R175: every instance of COMPRESS answers only with a zlib stream whose
decompression is exactly its input; STORED never fails. (What decompression is comes from RFC 1950 and RFC 1951, log 5;
that the OPEN instance is kept to the law by construction is log 4.) -/
def Obligations.CompressedStreamDecompresses : Prop :=
  (∀ (c : Compressor) (x z : Bytes), compress c x = some z → Inflate.decompress z = some x) ∧
    ∀ x : Bytes, compress .stored x = some (stored x)

/-- 42_deflate.md R177: the length of STORED output. -/
def Obligations.StoredOutputLength : Prop :=
  (∀ x : Bytes, (stored x).length = x.length + 6 + 5 * max 1 ((x.length + 65534) / 65535)) ∧
  (∀ x : Bytes, x.length ≤ 65535 → (stored x).length = x.length + 11) ∧
  ∀ x : Bytes, x.length = 40100 → (stored x).length = 40111

/-- 42_deflate.md R175, R176: the blocks of STORED: all but the last of 65535 bytes, the last of 1 to 65535 (or empty for
empty input), each with its header, LEN and NLEN, between the zlib header and the big-endian Adler-32; and Adler-32 itself:
a from 1 and b from 0, each byte v of the input in order putting (a + v) mod 65521 in a and then (b + a) mod 65521 in b, and
the result b × 65536 + a, exactly. -/
def Obligations.StoredBlockStructure : Prop :=
  (∀ x : Bytes, ∃ (full : List Bytes) (last : Bytes),
    x = full.flatten ++ last ∧ (∀ b ∈ full, b.length = 65535) ∧ last.length ≤ 65535 ∧ (x ≠ [] → 1 ≤ last.length) ∧
      stored x = [0x78, 0x01] ++
        (full.map fun b => [0x00] ++ le16 (BitVec.ofNat 16 b.length) ++ le16 (BitVec.ofNat 16 b.length ^^^ 0xFFFF) ++ b).flatten ++
        ([0x01] ++ le16 (BitVec.ofNat 16 last.length) ++ le16 (BitVec.ofNat 16 last.length ^^^ 0xFFFF) ++ last) ++
        be32 (adler32 x)) ∧
  (∀ x : Bytes,
    let sums := x.foldl (fun (p : Nat × Nat) (v : Byte) =>
      ((p.1 + v.toNat) % 65521, (p.2 + (p.1 + v.toNat) % 65521) % 65521)) (1, 0)
    (adler32 x).toNat = sums.2 * 65536 + sums.1) ∧
  adler32 [] = 0x00000001

/-- 42_deflate.md R179: EMIT_IDAT appends the IDAT chunk of the compressed raw scanlines when every check passes; the
errors BAD_DIM, RANGE, BAD_LEN, COMP_FAIL, OUT_OVF in that order; the rule's example with STORED. -/
def Obligations.EmitIdatResult : Prop :=
  (∀ (s : State) (z : Bytes), s.params.wf = true → dimOk s.width s.height = true → s.rawLen.toNat ≤ s.params.rawCap →
    s.rawLen.toNat = s.height.toNat * (1 + 4 * s.width.toNat) →
    compress s.params.compressor (s.raw s.rawLen.toNat) = some z →
    s.outLen.toNat + 12 + z.length ≤ s.params.outCap →
    ∃ t, exec .emitIdat s = .next t ∧ Appended (chunk tagIDAT z) (crcRun 0xFFFFFFFF (tagIDAT ++ z)) s t ∧
      t.regView .crcResult = crc32 (tagIDAT ++ z)) ∧
  (∀ s : State, dimOk s.width s.height = false →
    exec .emitIdat s = .next { s with err := true, errCode := 2, busy := false, done := true }) ∧
  (∀ s : State, dimOk s.width s.height = true → s.params.rawCap < s.rawLen.toNat →
    exec .emitIdat s = .next { s with err := true, errCode := 3, busy := false, done := true }) ∧
  (∀ s : State, dimOk s.width s.height = true → s.rawLen.toNat ≤ s.params.rawCap →
    s.rawLen.toNat ≠ s.height.toNat * (1 + 4 * s.width.toNat) →
    exec .emitIdat s = .next { s with err := true, errCode := 4, busy := false, done := true }) ∧
  (∀ s : State, dimOk s.width s.height = true → s.rawLen.toNat ≤ s.params.rawCap →
    s.rawLen.toNat = s.height.toNat * (1 + 4 * s.width.toNat) →
    compress s.params.compressor (s.raw s.rawLen.toNat) = none →
    exec .emitIdat s = .next { s with err := true, errCode := 5, busy := false, done := true }) ∧
  (∀ (s : State) (z : Bytes), dimOk s.width s.height = true → s.rawLen.toNat ≤ s.params.rawCap →
    s.rawLen.toNat = s.height.toNat * (1 + 4 * s.width.toNat) →
    compress s.params.compressor (s.raw s.rawLen.toNat) = some z → s.params.outCap < s.outLen.toNat + 12 + z.length →
    exec .emitIdat s = .next { s with err := true, errCode := 6, busy := false, done := true }) ∧
  decode 0x00000012 = .ok .emitIdat ∧ chunk tagIDAT (stored [0x00, 0xF9, 0xF4, 0xE8, 0x05]) =
    [0x00, 0x00, 0x00, 0x10, 0x49, 0x44, 0x41, 0x54, 0x78, 0x01, 0x01, 0x05, 0x00, 0xFA, 0xFF, 0x00, 0xF9, 0xF4, 0xE8,
     0x05, 0x08, 0x9A, 0x02, 0xDB, 0x41, 0x51, 0x1C, 0x66]

/-! ## ENCODE -/

/-- 43_encode.md R190: ENCODE writes the whole stream from offset 0 whatever OUT_LEN was, when every check passes; the
errors in order; the length of the stream, with STORED too. -/
def Obligations.EncodeResult : Prop :=
  (∀ (s : State) (z : Bytes), s.params.wf = true → dimOk s.width s.height = true → s.rawLen.toNat ≤ s.params.rawCap →
    s.rawLen.toNat = s.height.toNat * (1 + 4 * s.width.toNat) →
    compress s.params.compressor (s.raw s.rawLen.toNat) = some z → 57 + z.length ≤ s.params.outCap →
    ∃ t png, exec .encode s = .next t ∧
      png = sig ++ chunk tagIHDR (ihdrData s.width s.height) ++ chunk tagIDAT z ++ chunk tagIEND [] ∧
      png.length = 57 + z.length ∧ WrittenAt 0 png s t ∧ t.outLen.toNat = png.length ∧ t.outStream = png ∧
      t = { s with outMem := t.outMem, outLen := t.outLen, crcState := 0x51BD9F7D, busy := false, done := true }) ∧
  (∀ s : State, dimOk s.width s.height = false →
    exec .encode s = .next { s with err := true, errCode := 2, busy := false, done := true }) ∧
  (∀ s : State, dimOk s.width s.height = true → s.params.rawCap < s.rawLen.toNat →
    exec .encode s = .next { s with err := true, errCode := 3, busy := false, done := true }) ∧
  (∀ s : State, dimOk s.width s.height = true → s.rawLen.toNat ≤ s.params.rawCap →
    s.rawLen.toNat ≠ s.height.toNat * (1 + 4 * s.width.toNat) →
    exec .encode s = .next { s with err := true, errCode := 4, busy := false, done := true }) ∧
  (∀ s : State, dimOk s.width s.height = true → s.rawLen.toNat ≤ s.params.rawCap →
    s.rawLen.toNat = s.height.toNat * (1 + 4 * s.width.toNat) →
    compress s.params.compressor (s.raw s.rawLen.toNat) = none →
    exec .encode s = .next { s with err := true, errCode := 5, busy := false, done := true }) ∧
  (∀ (s : State) (z : Bytes), dimOk s.width s.height = true → s.rawLen.toNat ≤ s.params.rawCap →
    s.rawLen.toNat = s.height.toNat * (1 + 4 * s.width.toNat) →
    compress s.params.compressor (s.raw s.rawLen.toNat) = some z → s.params.outCap < 57 + z.length →
    exec .encode s = .next { s with err := true, errCode := 6, busy := false, done := true }) ∧
  (∀ (w h : Word) (x : Bytes), x.length ≤ 65535 → (pngStream w h (stored x)).length = 68 + x.length) ∧
  (∀ (w h : Word) (z : Bytes),
    pngStream w h z = sig ++ chunk tagIHDR (ihdrData w h) ++ chunk tagIDAT z ++ chunk tagIEND []) ∧
  decode 0x00000020 = .ok .encode ∧
  pngStream 1 1 (stored [0x00, 0xF9, 0xF4, 0xE8, 0x05]) =
    [0x89, 0x50, 0x4E, 0x47, 0x0D, 0x0A, 0x1A, 0x0A, 0x00, 0x00, 0x00, 0x0D, 0x49, 0x48, 0x44, 0x52, 0x00, 0x00, 0x00, 0x01,
     0x00, 0x00, 0x00, 0x01, 0x08, 0x06, 0x00, 0x00, 0x00, 0x1F, 0x15, 0xC4, 0x89, 0x00, 0x00, 0x00, 0x10, 0x49, 0x44, 0x41,
     0x54, 0x78, 0x01, 0x01, 0x05, 0x00, 0xFA, 0xFF, 0x00, 0xF9, 0xF4, 0xE8, 0x05, 0x08, 0x9A, 0x02, 0xDB, 0x41, 0x51, 0x1C,
     0x66, 0x00, 0x00, 0x00, 0x00, 0x49, 0x45, 0x4E, 0x44, 0xAE, 0x42, 0x60, 0x82]

/-- 43_encode.md R191: ENCODE and the sequence OUT_CLEAR; EMIT_SIG; EMIT_IHDR; EMIT_IDAT; EMIT_IEND succeed on the same
states and leave the same stream, OUT_LEN and CRC_STATE. On failure ENCODE writes nothing, while the sequence ends at one
command, the first that fails, and keeps what the commands before it left: the stream is the signature and the chunks they
framed, the IDAT chunk being that of COMPRESS's answer for the raw scanlines. -/
def Obligations.EncodeEqualsTheStepSequence : Prop :=
  ∀ s : State, s.params.wf = true → s.err = false →
    ∃ t u, exec .encode s = .next t ∧
      performAll [.outClear, .emitSig, .emitIhdr, .emitIdat, .emitIend] s = .next u ∧ t.err = u.err ∧
      (t.err = false → t.outStream = u.outStream ∧ t.outLen = u.outLen ∧ t.crcState = u.crcState) ∧
      (t.err = true → t.outMem = s.outMem ∧ t.outLen = s.outLen ∧ t.crcState = s.crcState ∧
        ∃ (before : List Instr) (failing : Instr) (after : List Instr) (v : State),
          [.outClear, .emitSig, .emitIhdr, .emitIdat, .emitIend] = before ++ failing :: after ∧
          performAll before s = .next v ∧ v.err = false ∧ exec failing v = .next u ∧
          u.outMem = v.outMem ∧ u.outLen = v.outLen ∧ u.crcState = v.crcState ∧
          ((failing = .emitSig ∧ u.outStream = []) ∨ (failing = .emitIhdr ∧ u.outStream = sig) ∨
            (failing = .emitIdat ∧ u.outStream = sig ++ chunk tagIHDR (ihdrData s.width s.height)) ∨
            (failing = .emitIend ∧ ∃ z, compress s.params.compressor (s.raw s.rawLen.toNat) = some z ∧
              u.outStream = sig ++ chunk tagIHDR (ihdrData s.width s.height) ++ chunk tagIDAT z)))

/-- 43_encode.md R192: every stream a successful ENCODE leaves reads back: the signature, then exactly the chunks IHDR,
IDAT and IEND with right lengths and CRCs; the IHDR fields; an IDAT payload that decompresses to the raw scanlines, whose
row starts are 0 exactly where the host's are. (Decompression is log 5's.) -/
def Obligations.EncodeOutputReadsBack : Prop :=
  ∀ s t : State, s.params.wf = true → exec .encode s = .next t → t.err = false →
    t.outStream.take 8 = sig ∧
    ∃ z x, readPng t.outStream = some [(tagIHDR, ihdrData s.width s.height), (tagIDAT, z), (tagIEND, [])] ∧
      readIhdr (ihdrData s.width s.height) = some (Ihdr.mk s.width s.height 8 6 0 0 0) ∧
      Inflate.decompress z = some x ∧ x = s.raw s.rawLen.toNat ∧
      x.length = rawLenOf s.width.toNat s.height.toNat ∧
      ((∀ r < s.height.toNat, x[filterIndex s.width.toNat r]? = some 0) ↔
        ∀ r < s.height.toNat, s.rawMem.read (filterIndex s.width.toNat r) = 0)

/-- 43_encode.md R193, 42_deflate.md R173: what ENCODE answers, its stream and its error, depends on WIDTH, HEIGHT,
Raw(RAW_LEN), COMPRESS and the capacities alone, not on anything else the two states hold. -/
def Obligations.EncodeDependsOnItsInputsOnly : Prop :=
  ∀ s s' t t' : State, s.params.wf = true → s.params = s'.params → s.width = s'.width → s.height = s'.height →
    s.rawLen = s'.rawLen → s.raw (min s.rawLen.toNat s.params.rawCap) = s'.raw (min s.rawLen.toNat s.params.rawCap) →
    s.err = false → s'.err = false → exec .encode s = .next t → exec .encode s' = .next t' →
    t.err = t'.err ∧ (t.err = true → t.errCode = t'.errCode) ∧
      (t.err = false → t.outStream = t'.outStream ∧ t.outLen = t'.outLen ∧ t.crcState = t'.crcState)

/-! ## Control commands and the protocol -/

/-- 44_control.md R210: NOP completes and does nothing else, in every state; while BUSY = 1 or ERR = 1 its CMD write is
dropped; from STATUS = 0 it leaves STATUS = 2. -/
def Obligations.NopResult : Prop :=
  decode 0x00000000 = .ok .nop ∧
  (∀ s : State, exec .nop s = .next { s with busy := false, done := true }) ∧
  (∀ s : State, s.busy = true ∨ s.err = true → s.cmdWrite 0x00000000 = { s with drop := true }) ∧
  ∀ (s : State) (r : List Event), s.busy = false → s.statusWord = 0 →
    s.script = .host (.write Reg.cmd.offset 4 0x00000000) :: .engine :: r →
    ∃ t, SafeRun 2 s t ∧ t.statusWord = 0x00000002 ∧ t.script = r

/-- 44_control.md R211: OUT_CLEAR completes in every state, empties the stream, erases no byte and leaves CRC_STATE. -/
def Obligations.OutClearResult : Prop :=
  decode 0x00000030 = .ok .outClear ∧ ∀ s : State, ∃ t, exec .outClear s = .next t ∧ t = { s with outLen := 0, busy := false, done := true } ∧
    t.outStream = [] ∧ ∀ a, t.outMem.read a = s.outMem.read a

/-- 44_control.md R212, 30_encoding.md R96: SOFT_RESET completes in every state, busy or in error, within the host's CMD
write of exactly its word; it clears STATUS, PENDING, CRC_STATE and OUT_LEN, the interrupt falls, and OUT_MEM turns
unspecified only when a command was aborted (as free values of a fresh draw: log 6). -/
def Obligations.SoftResetResult : Prop :=
  (∀ s : State, ∃ t, exec .softReset s = .next t ∧
    t = { s with
      busy := false, done := false, err := false, errCode := 0, drop := false, pending := 0,
      crcState := 0xFFFFFFFF, outLen := 0, outMem := t.outMem, draws := t.draws } ∧
    t.statusWord = 0 ∧ t.irq = false ∧
    (s.busy = false → t.outMem = s.outMem ∧ t.draws = s.draws) ∧
    (s.busy = true → (∀ i, t.outMem.read i = Config.freeByte s.draws i) ∧ s.draws < t.draws)) ∧
  ∀ (s : State) (r : List Event), s.script = .host (.write Reg.cmd.offset 4 0x000000FF) :: r →
    step s = exec .softReset { s with script := r, reply := some .ok }

/-- 70_reset_and_hazards.md R274: a host write to CMD does exactly one of: SOFT_RESET, a drop, or acceptance; after an
acceptance the next host access sees BUSY = 1; an illegal word is accepted like any other and, when the ENGINE performs it,
completes with BAD_CMD. -/
def Obligations.CmdWriteAcceptsOrDrops : Prop :=
  (∀ (s : State) (w : Word) (r : List Event), s.script = .host (.write Reg.cmd.offset 4 w) :: r →
    (w = 0x000000FF → step s = .next ({ s with script := r, reply := some .ok } : State).softReset) ∧
    (w ≠ 0x000000FF → s.busy = true ∨ s.err = true →
      step s = .next { s with script := r, reply := some .ok, drop := true }) ∧
    (w ≠ 0x000000FF → s.busy = false → s.err = false →
      ∃ t, step s = .next t ∧
        t = { s with script := r, reply := some .ok, pending := w, busy := true, done := false } ∧
        (t.regView .status).getLsbD 0 = true)) ∧
  ∀ (s : State) (w : Word) (r : List Event), (∀ i, decode w ≠ .ok i) → s.busy = false → s.err = false →
    s.script = .host (.write Reg.cmd.offset 4 w) :: .engine :: r →
    SafeRun 2 s { s with
      script := r, reply := some .ok, pending := w, busy := false, done := true, err := true, errCode := 1 }

/-- 70_reset_and_hazards.md R275: a step with a command pending and the ENGINE's turn next is exec of the decoded command,
or BAD_CMD for an illegal word. The model's choices: that the ENGINE's turn comes when no event is left is log 2 (DESIGN
CHOICE, unsafe: the fairness R276 assumes); that a turn with BUSY = 0 leaves the state is log 12 (R275 says only that the
ENGINE then has no step); that a latched SOFT_RESET word, which no run reaches, is performed as SOFT_RESET is log 10; that
the state withFetchWord makes runs exactly the word's command next is log 13. -/
def Obligations.StepPerformsThePendingCommand : Prop :=
  (∀ (s : State) (i : Instr), s.busy = true → s.script = [] ∨ s.script.head? = some .engine →
    decode s.pending = .ok i → step s = exec i { s with script := s.script.tail }) ∧
  (∀ s : State, s.busy = true → s.script = [] ∨ s.script.head? = some .engine →
    (∀ i, decode s.pending ≠ .ok i) →
    step s = .next { s with script := s.script.tail, err := true, errCode := 1, busy := false, done := true }) ∧
  (∀ s : State, s.busy = false → s.script = [] ∨ s.script.head? = some .engine →
    step s = .next { s with script := s.script.tail }) ∧
  ∀ (s : State) (w : Word) (i : Instr), decode w = .ok i → ∃ u, step (s.withFetchWord 32 w.toNat) = exec i u ∧
    u.width = s.width ∧ u.height = s.height ∧ u.rawLen = s.rawLen ∧ u.chunkType = s.chunkType ∧
    u.crcState = s.crcState ∧ u.outLen = s.outLen ∧ u.rawMem = s.rawMem ∧ u.outMem = s.outMem ∧
    u.params = s.params ∧ u.script = s.script

/-- 70_reset_and_hazards.md R276, 30_encoding.md R99: every `wait` terminates, whatever command is pending and however many
polls come before the ENGINE's turn: the last poll reads STATUS with BUSY = 0 and DONE = 1. A `wait` begun with BUSY = 0
ends too, its last poll reading BUSY = 0, and changes nothing but the host's answer. (The form of `wait` is log 14's; that
the ENGINE's turn comes is the fairness the rule assumes, log 2; that an ENGINE turn with BUSY = 0 is a stutter is log
12.) -/
def Obligations.EveryWaitTerminates : Prop :=
  (∀ (s : State) (polls : Nat) (es r : List Event), s.Inv → s.busy = true → (Stmt.wait polls).assemble = some es →
    s.script = es ++ r →
    ∃ t v, SafeRun es.length s t ∧ t.script = r ∧ t.busy = false ∧ t.done = true ∧ t.reply = some (.data v) ∧
      v.getLsbD 0 = false ∧ v.getLsbD 1 = true) ∧
  ∀ (s : State) (polls : Nat) (es r : List Event), s.busy = false → (Stmt.wait polls).assemble = some es →
    s.script = es ++ r →
    ∃ v, SafeRun es.length s { s with script := r, reply := some (.data v) } ∧ v = s.statusWord ∧ v.getLsbD 0 = false

/-- Program P5 of 95_test_vectors.md, for every value: a WIDTH write racing an ENCODE has two admitted outcomes, the write
dropped or the ENCODE done first, and both leave the same stream (20_memory.md R70, 70_reset_and_hazards.md R275). -/
def Obligations.RacingWriteHasTwoOutcomes : Prop :=
  ∀ (s : State) (v : Word) (r : List Event), s.busy = false → s.err = false → s.drop = false →
    ∃ t u : State,
      SafeRun 3 (s.withScript ([.host (.write Reg.cmd.offset 4 0x20), .host (.write Reg.width.offset 4 v), .engine] ++ r))
        t ∧
      SafeRun 3 (s.withScript ([.host (.write Reg.cmd.offset 4 0x20), .engine, .host (.write Reg.width.offset 4 v)] ++ r))
        u ∧
      t.width = s.width ∧ t.drop = true ∧ u.width = v ∧ u.drop = false ∧
      t.outStream = u.outStream ∧ t.outLen = u.outLen ∧ t.err = u.err ∧ t.errCode = u.errCode

/-! ## Registers, flags and the interrupt -/

/-- 10_state.md R27: the fields of the STATUS word, its reserved bits, and the write-one-to-clear write, accepted while
BUSY = 1 too. -/
def Obligations.StatusWordAndWrite : Prop :=
  (∀ s : State, s.statusWord.getLsbD 0 = s.busy ∧ s.statusWord.getLsbD 1 = s.done ∧ s.statusWord.getLsbD 2 = s.err ∧
    s.statusWord.getLsbD 3 = s.drop ∧ s.statusWord.extractLsb' 4 4 = 0 ∧ s.statusWord.extractLsb' 8 4 = s.errCode ∧
    s.statusWord.extractLsb' 12 20 = 0) ∧
  ∀ (s : State) (v : Word) (r : List Event), s.script = .host (.write Reg.status.offset 4 v) :: r →
    step s = .next { s with
      script := r, reply := some .ok, done := if v.getLsbD 1 then false else s.done,
      drop := if v.getLsbD 3 then false else s.drop }

/-- 10_state.md R28 to R32: writes to INT_EN take effect in every state; writes to WIDTH, HEIGHT, RAW_LEN and CHUNK_TYPE
take all 32 bits while idle, and each reads back as written. -/
def Obligations.RegisterWritesReadBack : Prop :=
  (∀ (s : State) (v : Word) (r : List Event), s.script = .host (.write Reg.intEn.offset 4 v) :: r →
    ∃ t, step s = .next t ∧ t.regView .intEn = v &&& 0x3 ∧
      t = { s with script := r, reply := some .ok, doneIe := v.getLsbD 0, errIe := v.getLsbD 1 }) ∧
  ∀ (s : State) (v : Word) (r : List Event), s.busy = false →
    (s.script = .host (.write Reg.width.offset 4 v) :: r →
      step s = .next { s with script := r, reply := some .ok, width := v }) ∧
    (s.script = .host (.write Reg.height.offset 4 v) :: r →
      step s = .next { s with script := r, reply := some .ok, height := v }) ∧
    (s.script = .host (.write Reg.rawLen.offset 4 v) :: r →
      step s = .next { s with script := r, reply := some .ok, rawLen := v }) ∧
    (s.script = .host (.write Reg.chunkType.offset 4 v) :: r →
      step s = .next { s with script := r, reply := some .ok, chunkType := v }) ∧
    ∀ t : State, t.regView .width = t.width ∧ t.regView .height = t.height ∧ t.regView .rawLen = t.rawLen ∧
      t.regView .chunkType = t.chunkType

/-- 10_state.md R24 to R37, 20_memory.md R71: a read of a register answers its value and moves nothing, for every register
while BUSY = 0, and for every register but CRC_STATE, CRC_RESULT and OUT_LEN while BUSY = 1. -/
def Obligations.RegisterReadValues : Prop :=
  ∀ (s : State) (r : Reg) (es : List Event), s.script = .host (.read r.offset 4) :: es →
    s.busy = false ∨ (r ≠ .crcState ∧ r ≠ .crcResult ∧ r ≠ .outLen) →
    ∃ v, step s = .next { s with script := es, reply := some (.data v) } ∧
      (r = .id → v = 0x504E4745) ∧ (r = .cmd → v = 0) ∧ (r = .status → v = s.statusWord) ∧
      (r = .intEn → v = s.intEnWord) ∧ (r = .width → v = s.width) ∧ (r = .height → v = s.height) ∧
      (r = .rawLen → v = s.rawLen) ∧ (r = .chunkType → v = s.chunkType) ∧ (r = .crcState → v = s.crcState) ∧
      (r = .crcResult → v = s.crcState ^^^ 0xFFFFFFFF) ∧ (r = .outLen → v = s.outLen) ∧
      (r = .rawCap → v = BitVec.ofNat 32 s.params.rawCap) ∧ (r = .outCap → v = BitVec.ofNat 32 s.params.outCap)

/-- 10_state.md R24, R38: a write to a read-only register or to a reserved offset is ignored without error and without
setting DROP, and a reserved offset reads 0, in every state. -/
def Obligations.ReadOnlyAndReservedOffsets : Prop :=
  (∀ (s : State) (r : Reg) (v : Word) (es : List Event),
    r ∈ [Reg.id, .crcState, .crcResult, .outLen, .rawCap, .outCap] → s.script = .host (.write r.offset 4 v) :: es →
    step s = .next { s with script := es, reply := some .ok }) ∧
  (∀ (s : State) (off : Offset) (v : Word) (es : List Event), off.toNat % 4 = 0 → 0x034 ≤ off.toNat →
    off.toNat ≤ 0xFFC → s.script = .host (.write off 4 v) :: es →
    step s = .next { s with script := es, reply := some .ok }) ∧
  ∀ (s : State) (off : Offset) (es : List Event), off.toNat % 4 = 0 → 0x034 ≤ off.toNat → off.toNat ≤ 0xFFC →
    s.script = .host (.read off 4) :: es → step s = .next { s with script := es, reply := some (.data 0) }

/-- 20_memory.md R71: while BUSY = 1 a read of CRC_STATE, CRC_RESULT, OUT_LEN or the OUT window returns an unspecified
value, a fresh draw for each read, and changes no state of PNGE. (The form of the draw is log 7's: the statement holds
whatever value it is.) -/
def Obligations.VolatileReadsWhileBusy : Prop :=
  ∀ (s : State) (off : Offset) (n : Nat) (es : List Event), s.busy = true →
    s.script = .host (.read off n) :: es →
    (n = 4 ∧ (off = Reg.crcState.offset ∨ off = Reg.crcResult.offset ∨ off = Reg.outLen.offset)) ∨
      ((n = 1 ∨ n = 4 ∧ off.toNat % 4 = 0) ∧ 0x800000 ≤ off.toNat ∧ off.toNat + n ≤ 0x800000 + s.params.outCap) →
    s.params.wf = true →
    step s = .next { s with
      script := es, draws := s.draws + 1,
      reply := some (.data (if n = 1 then ((Config.freeWord s.draws).setWidth 8).setWidth 32 else Config.freeWord s.draws)) }

/-- 20_memory.md R72: no read of any offset has a side effect: only the host's answer, the events still to come and the
model's draw counter move, and with BUSY = 0 not even the counter. -/
def Obligations.ReadsHaveNoSideEffect : Prop :=
  ∀ (s t : State) (off : Offset) (n : Nat) (es : List Event), s.script = .host (.read off n) :: es →
    step s = .next t →
    t = { s with script := es, reply := t.reply, draws := t.draws } ∧ (s.busy = false → t.draws = s.draws)

/-- 10_state.md R43, 60_exceptions.md R236, R237: IRQ is the level of its two causes; after a completion with DONE_IE it is
high; an error raises both causes in one step; a STATUS write clearing DONE with the error cause masked or absent lowers
it; an INT_EN write masks each cause; the acceptance of the next command, a SOFT_RESET write and a reset lower it. It falls
at no other step: from a PNGE state a step that lowers it is one of these, and one that lowers it while the error cause is
enabled and present is an INT_EN write masking that cause, a SOFT_RESET write or a reset. -/
def Obligations.InterruptLevel : Prop :=
  (∀ s : State, s.irq = true ↔ (s.done = true ∧ s.doneIe = true) ∨ (s.err = true ∧ s.errIe = true)) ∧
  (∀ (i : Instr) (s t : State), i ≠ .softReset → exec i s = .next t → s.doneIe = true → t.irq = true) ∧
  (∀ (i : Instr) (s t : State), s.err = false → exec i s = .next t → t.err = true →
    t.done = true ∧ (s.doneIe = true ∨ s.errIe = true → t.irq = true)) ∧
  (∀ (s t : State) (v : Word) (r : List Event), s.script = .host (.write Reg.status.offset 4 v) :: r →
    v.getLsbD 1 = true → s.err = false ∨ s.errIe = false → step s = .next t → t.irq = false) ∧
  (∀ (s t : State) (v : Word) (r : List Event), s.script = .host (.write Reg.intEn.offset 4 v) :: r →
    step s = .next t →
    (t.irq = true ↔ (s.done = true ∧ v.getLsbD 0 = true) ∨ (s.err = true ∧ v.getLsbD 1 = true))) ∧
  (∀ (s t : State) (w : Word) (r : List Event), s.script = .host (.write Reg.cmd.offset 4 w) :: r →
    w ≠ 0x000000FF → s.busy = false → s.err = false → step s = .next t → t.irq = false) ∧
  (∀ (s t : State) (e : Event) (r : List Event), s.script = e :: r → e.clearsError = true → step s = .next t →
    t.irq = false) ∧
  ∀ s t : State, s.Inv → s.irq = true → step s = .next t → t.irq = false →
    ∃ e r, s.script = e :: r ∧
      (e.clearsError = true ∨
        (∃ v : Word, e = .host (.write Reg.intEn.offset 4 v) ∧ (s.err = true → s.errIe = true → v.getLsbD 1 = false)) ∨
        ((∃ v : Word, e = .host (.write Reg.status.offset 4 v) ∧ v.getLsbD 1 = true) ∧ (s.err = false ∨ s.errIe = false)) ∨
        ((∃ w : Word, e = .host (.write Reg.cmd.offset 4 w)) ∧ s.busy = false ∧ s.err = false))

/-! ## The buffers and the bus -/

/-- 20_memory.md R65, R68, R70: the RAW window: reads in every state; writes of one byte or of four, lowest address first,
that change those bytes and nothing else, or, while BUSY = 1, only DROP. -/
def Obligations.RawWindowAccess : Prop :=
  (∀ (s : State) (i : Nat) (es : List Event), s.params.wf = true → i < s.params.rawCap →
    s.script = .host (.read (BitVec.ofNat 24 (0x400000 + i)) 1) :: es →
    step s = .next { s with script := es, reply := some (.data ((s.rawMem.read i).setWidth 32)) }) ∧
  (∀ (s : State) (i : Nat) (es : List Event), s.params.wf = true → i % 4 = 0 → i < s.params.rawCap →
    s.script = .host (.read (BitVec.ofNat 24 (0x400000 + i)) 4) :: es →
    ∃ v, step s = .next { s with script := es, reply := some (.data v) } ∧
      ∀ j < 4, v.extractLsb' (8 * j) 8 = s.rawMem.read (i + j)) ∧
  (∀ (s : State) (i n : Nat) (v : Word) (es : List Event), s.params.wf = true → n = 1 ∨ n = 4 ∧ i % 4 = 0 →
    i < s.params.rawCap → s.busy = false →
    s.script = .host (.write (BitVec.ofNat 24 (0x400000 + i)) n v) :: es →
    ∃ t, step s = .next t ∧ t = { s with script := es, reply := some .ok, rawMem := t.rawMem } ∧
      (∀ j < n, t.rawMem.read (i + j) = v.extractLsb' (8 * j) 8) ∧
      ∀ a, a < i ∨ i + n ≤ a → t.rawMem.read a = s.rawMem.read a) ∧
  ∀ (s : State) (i n : Nat) (v : Word) (es : List Event), s.params.wf = true → n = 1 ∨ n = 4 ∧ i % 4 = 0 →
    i < s.params.rawCap → s.busy = true →
    s.script = .host (.write (BitVec.ofNat 24 (0x400000 + i)) n v) :: es →
    step s = .next { s with script := es, reply := some .ok, drop := true }

/-- 20_memory.md R66, 10_state.md R41: the OUT window: while BUSY = 0 reads of one byte or four return the stored bytes, at
indices past OUT_LEN too; every write is a bus error, in every state. -/
def Obligations.OutWindowAccess : Prop :=
  (∀ (s : State) (i : Nat) (es : List Event), s.params.wf = true → i < s.params.outCap → s.busy = false →
    s.script = .host (.read (BitVec.ofNat 24 (0x800000 + i)) 1) :: es →
    step s = .next { s with script := es, reply := some (.data ((s.outMem.read i).setWidth 32)) }) ∧
  (∀ (s : State) (i : Nat) (es : List Event), s.params.wf = true → i % 4 = 0 → i < s.params.outCap → s.busy = false →
    s.script = .host (.read (BitVec.ofNat 24 (0x800000 + i)) 4) :: es →
    ∃ v, step s = .next { s with script := es, reply := some (.data v) } ∧
      ∀ j < 4, v.extractLsb' (8 * j) 8 = s.outMem.read (i + j)) ∧
  ∀ (s : State) (off : Offset) (n : Nat) (v : Word) (es : List Event), 0x800000 ≤ off.toNat →
    off.toNat < 0x800000 + s.params.outCap → s.params.wf = true → s.script = .host (.write off n v) :: es →
    step s = .fault (.busError (.write off n v))

/-- 20_memory.md R62 to R67, 60_exceptions.md R235: which accesses are bus errors, exactly: a step with a host access next
faults if and only if the access is not one the address map admits, and the fault is the only way a step stops. -/
def Obligations.BusErrorsExactly : Prop :=
  ∀ (s : State) (a : Access) (es : List Event) (w : Bool) (off : Offset) (n : Nat), s.params.wf = true →
    s.script = .host a :: es →
    ((w = false ∧ a = .read off n) ∨ (w = true ∧ ∃ v, a = .write off n v)) →
    (step s = .fault (.busError a) ↔
      ¬ ((n = 4 ∧ off.toNat % 4 = 0 ∧ off.toNat < 0x1000) ∨
        ((n = 1 ∨ n = 4 ∧ off.toNat % 4 = 0) ∧ 0x400000 ≤ off.toNat ∧ off.toNat < 0x400000 + s.params.rawCap) ∨
        (w = false ∧ (n = 1 ∨ n = 4 ∧ off.toNat % 4 = 0) ∧ 0x800000 ≤ off.toNat ∧
          off.toNat < 0x800000 + s.params.outCap))) ∧
    (step s ≠ .fault (.busError a) → ∃ t, step s = .next t)

/-- 60_exceptions.md R234: a refused CMD write (BUSY = 1 or ERR = 1) or a locked write while BUSY = 1 sets DROP and nothing
else, ERR, ERR_CODE and IRQ included; and DROP, once 1, falls only at a STATUS write with bit 3, a SOFT_RESET write or a
hardware reset. -/
def Obligations.DropsSetOnlyDrop : Prop :=
  (∀ (s : State) (w : Word) (r : List Event), w ≠ 0x000000FF → s.busy = true ∨ s.err = true →
    s.script = .host (.write Reg.cmd.offset 4 w) :: r →
    ∃ t, step s = .next t ∧ t = { s with script := r, reply := some .ok, drop := true } ∧ t.irq = s.irq) ∧
  (∀ (s : State) (g : Reg) (v : Word) (r : List Event), g ∈ [Reg.width, .height, .rawLen, .chunkType] → s.busy = true →
    s.script = .host (.write g.offset 4 v) :: r →
    ∃ t, step s = .next t ∧ t = { s with script := r, reply := some .ok, drop := true } ∧ t.irq = s.irq) ∧
  (∀ (s : State) (off : Offset) (n : Nat) (v : Word) (r : List Event), s.busy = true → s.params.wf = true →
    n = 1 ∨ n = 4 ∧ off.toNat % 4 = 0 → 0x400000 ≤ off.toNat → off.toNat < 0x400000 + s.params.rawCap →
    s.script = .host (.write off n v) :: r →
    ∃ t, step s = .next t ∧ t = { s with script := r, reply := some .ok, drop := true } ∧ t.irq = s.irq) ∧
  ∀ s t : State, s.Inv → s.drop = true → step s = .next t → t.drop = false →
    ∃ e r, s.script = e :: r ∧ (e.clearsError = true ∨
      ∃ v : Word, e = .host (.write Reg.status.offset 4 v) ∧ v.getLsbD 3 = true)

/-! ## Rules of the whole machine -/

/-- 60_exceptions.md R232: a command that ends in an error changes ERR, ERR_CODE, BUSY and DONE and nothing else, with a
code of R231, and IRQ rises if ERR_IE = 1; a command that raises nothing leaves ERR and ERR_CODE as they were. -/
def Obligations.CommandErrorsAreTransactional : Prop :=
  (∀ (i : Instr) (s t : State), s.err = false → exec i s = .next t →
    (t.err = true → ∃ e : CmdError, t = { s with err := true, errCode := e.code, busy := false, done := true } ∧
      1 ≤ e.code.toNat ∧ e.code.toNat ≤ 6 ∧ (s.errIe = true → t.irq = true)) ∧
    (t.err = false → i = .softReset ∨ (t.errCode = s.errCode ∧ t.busy = false ∧ t.done = true))) ∧
  ∀ s t : State, s.err = false → s.busy = true → engineTurn s = .next t → t.err = true →
    ∃ e : CmdError, t = { s with err := true, errCode := e.code, busy := false, done := true } ∧
      (s.errIe = true → t.irq = true)

/-- 60_exceptions.md R238, R239: ERR is sticky: from ERR = 1 a step that is not a SOFT_RESET write or a hardware reset
keeps ERR and the first ERR_CODE, and no command runs: CRC_STATE, OUT_LEN, OUT_MEM and PENDING keep their values and BUSY
stays 0. -/
def Obligations.ErrorIsSticky : Prop :=
  ∀ s t : State, s.Inv → s.err = true → step s = .next t →
    (∀ e ∈ s.script.head?, Event.clearsError e = false) →
    t.err = true ∧ t.errCode = s.errCode ∧ t.busy = false ∧ t.crcState = s.crcState ∧ t.outLen = s.outLen ∧
      t.outMem = s.outMem ∧ t.pending = s.pending

/-- 20_memory.md R70, R81, 10_state.md R39: while BUSY = 1 nothing but a reset changes the inputs of the pending command: no
step, of the host or of the ENGINE, moves WIDTH, HEIGHT, RAW_LEN, CHUNK_TYPE or RAW_MEM, and in a PNGE state PENDING moves
only at the SOFT_RESET write, which clears it and BUSY. (That PENDING keeps its value at the command's completion is the
model's, log 9.) -/
def Obligations.InputsLockedWhileBusy : Prop :=
  ∀ s t : State, s.busy = true → step s = .next t → s.script.head? ≠ some .reset →
    t.width = s.width ∧ t.height = s.height ∧ t.rawLen = s.rawLen ∧ t.chunkType = s.chunkType ∧ t.rawMem = s.rawMem ∧
      (s.Inv → t.pending = s.pending ∨
        s.script.head? = some (.host (.write Reg.cmd.offset 4 0x000000FF)) ∧ t.pending = 0 ∧ t.busy = false)

/-- 10_state.md R33, R35, R40, R41: only a command, SOFT_RESET or a reset changes CRC_STATE, OUT_LEN or OUT_MEM: a host
access that is not the SOFT_RESET write leaves them; and the ENGINE never writes RAW_MEM or the host's registers. -/
def Obligations.HostAndEngineWriteTheirOwn : Prop :=
  (∀ (s t : State) (a : Access) (es : List Event), s.script = .host a :: es → step s = .next t →
    Event.clearsError (.host a) = false →
    t.crcState = s.crcState ∧ t.outLen = s.outLen ∧ t.outMem = s.outMem ∧ t.err = s.err ∧ t.errCode = s.errCode) ∧
  ∀ (s t : State), engineTurn s = .next t →
    t.width = s.width ∧ t.height = s.height ∧ t.rawLen = s.rawLen ∧ t.chunkType = s.chunkType ∧ t.rawMem = s.rawMem ∧
      t.doneIe = s.doneIe ∧ t.errIe = s.errIe

/-- 20_memory.md R76: if BUSY = 1 and after some events, none of them a SOFT_RESET write or a reset, BUSY = 0, then the
pending command was performed: the run has a state with the same inputs whose ENGINE turn completed it, with the command of
a legal word, or with BAD_CMD and nothing else for an illegal one. (That a turn also comes when no event is left is log
2.) -/
def Obligations.IdleAgainMeansCompleted : Prop :=
  ∀ (s t : State) (k : Nat), s.Inv → s.busy = true → SafeRun k s t → t.busy = false →
    (∀ e ∈ s.script, Event.clearsError e = false) →
    ∃ (j : Nat) (u v : State), j < k ∧ SafeRun j s u ∧ step u = .next v ∧ u.busy = true ∧ u.pending = s.pending ∧
      u.width = s.width ∧ u.height = s.height ∧ u.rawLen = s.rawLen ∧ u.chunkType = s.chunkType ∧
      u.rawMem = s.rawMem ∧ u.crcState = s.crcState ∧ u.outMem = s.outMem ∧ u.outLen = s.outLen ∧
      (u.script = [] ∨ u.script.head? = some .engine) ∧
      (∀ i, decode s.pending = .ok i → step u = exec i { u with script := u.script.tail }) ∧
      ((∀ i, decode s.pending ≠ .ok i) →
        v = { u with script := u.script.tail, err := true, errCode := 1, busy := false, done := true }) ∧
      v.busy = false ∧ v.done = true

/-- 70_reset_and_hazards.md R279: when a run ends. It is over exactly when BUSY = 0 and no access of the host is left,
whatever turns of the ENGINE and resets stand after it; its PNG, if any, is OUT_MEM[0 : OUT_LEN] when ERR = 0. Every run
ends, within one step more than its events: at one state, once, or as the fault of the host's next access, never both.
Turns of the ENGINE after the end change nothing, and events other than accesses put after a run that ends by its own
events change nothing of where it ends and of its result. (That the events to come are one finite list is log 1, that the
ENGINE's turn comes when none is left log 2, and that its turn with BUSY = 0 is a stutter log 12.) -/
def Obligations.EveryRunEnds : Prop :=
  (∀ s : State, s.runOver = true ↔ s.busy = false ∧ ∀ a : Access, .host a ∉ s.script) ∧
  (∀ s : State, (s.err = false → s.png = some (s.outMem.readBytes 0 s.outLen.toNat)) ∧ (s.err = true → s.png = none)) ∧
  (∀ s : State, (∃ k t, k ≤ s.script.length + 1 ∧ RunEnds k s t) ∨ ∃ k a, k < s.script.length ∧ RunFaults k s a) ∧
  (∀ (s t : State) (k j : Nat) (a : Access), RunEnds k s t → ¬ RunFaults j s a) ∧
  (∀ (s t u : State) (j k : Nat), RunEnds j s t → RunEnds k s u → j = k ∧ t = u) ∧
  (∀ (s : State) (k : Nat) (a : Access), RunFaults k s a →
    ∃ t r, SafeRun k s t ∧ t.script = .host a :: r ∧ ∀ j ≤ k, ∀ u : State, SafeRun j s u → u.runOver = false) ∧
  (∀ s : State, s.runOver = true → s.script = [] ∨ s.script.head? = some .engine →
    step s = .next { s with script := s.script.tail }) ∧
  ∀ (s t : State) (k : Nat) (es : List Event), k ≤ s.script.length → RunEnds k s t →
    (∀ a : Access, .host a ∉ es) →
    RunEnds k { s with script := s.script ++ es } { t with script := t.script ++ es }
end

