-- ==== Sys2Proof/Laws/Memory.lean ====
section
/-! SUPPORT. The laws of the buffers: read after write, the frame of a write, and that every write keeps the
canonical form and the bounds. -/

namespace Sys2Proof.Machine

theorem lookup_insertCell_same (c : List Host.Cell) (a : Nat) (v : Byte) : lookup (insertCell c a v) a = some v := by
  induction c with
  | nil => simp [insertCell, lookup]
  | cons kw r ih =>
    obtain ⟨k, w⟩ := kw
    simp only [insertCell]
    split
    · simp [lookup]
    · split
      · simp [lookup]
      · simp [lookup, *]

theorem lookup_insertCell_ne (c : List Host.Cell) {a b : Nat} (v : Byte) (h : b ≠ a) :
    lookup (insertCell c a v) b = lookup c b := by
  induction c with
  | nil => simp [insertCell, lookup, h]
  | cons kw r ih =>
    obtain ⟨k, w⟩ := kw
    simp only [insertCell]
    split
    · simp [lookup, h]
    · split
      · subst_vars; simp [lookup, h]
      · simp only [lookup, ih]

@[simp] theorem Memory.read_write_same (m : Memory) (i : Nat) (v : Byte) : (m.write i v).read i = v := by
  simp [Memory.read, Memory.write, lookup_insertCell_same]

theorem Memory.read_write_ne (m : Memory) {i j : Nat} (v : Byte) (h : j ≠ i) : (m.write i v).read j = m.read j := by
  simp [Memory.read, Memory.write, lookup_insertCell_ne _ _ h]

@[simp] theorem Memory.write_draw (m : Memory) (i : Nat) (v : Byte) : (m.write i v).draw = m.draw := rfl

@[simp] theorem Memory.writeBytes_draw (m : Memory) (i : Nat) (b : Bytes) : (m.writeBytes i b).draw = m.draw := by
  induction b generalizing m i with
  | nil => rfl
  | cons v b ih => simp [Memory.writeBytes, ih]

/-- A write of a byte string leaves every byte outside it alone. -/
theorem Memory.read_writeBytes_out (m : Memory) (i : Nat) (b : Bytes) {a : Nat} (h : a < i ∨ i + b.length ≤ a) :
    (m.writeBytes i b).read a = m.read a := by
  induction b generalizing m i with
  | nil => rfl
  | cons v b ih =>
    simp only [List.length_cons] at h
    rw [Memory.writeBytes, ih _ _ (by omega), Memory.read_write_ne _ _ (by omega)]

/-- A byte written reads back. -/
theorem Memory.read_writeBytes_in (m : Memory) (i : Nat) (b : Bytes) {j : Nat} (h : j < b.length) :
    (m.writeBytes i b).read (i + j) = b[j] := by
  induction b generalizing m i j with
  | nil => simp at h
  | cons v b ih =>
    cases j with
    | zero => rw [Memory.writeBytes, Memory.read_writeBytes_out _ _ _ (by omega)]; simp
    | succ j =>
      have := ih (m.write i v) (i + 1) (j := j) (by simpa using h)
      simpa [Memory.writeBytes, Nat.add_assoc, Nat.add_comm 1] using this

@[simp] theorem Memory.readBytes_length (m : Memory) (i n : Nat) : (m.readBytes i n).length = n := by
  induction n generalizing i with
  | zero => rfl
  | succ n ih => simp [Memory.readBytes, ih]

/-- Two buffers that agree on a range read the same bytes there. -/
theorem Memory.readBytes_congr {m m' : Memory} {i n : Nat} (h : ∀ a, i ≤ a → a < i + n → m.read a = m'.read a) :
    m.readBytes i n = m'.readBytes i n := by
  induction n generalizing i with
  | zero => rfl
  | succ n ih =>
    simp only [Memory.readBytes]
    rw [h i (by omega) (by omega), ih fun a h₁ h₂ => h a (by omega) (by omega)]

theorem Memory.readBytes_append (m : Memory) (i n k : Nat) :
    m.readBytes i (n + k) = m.readBytes i n ++ m.readBytes (i + n) k := by
  induction n generalizing i with
  | zero => simp [Memory.readBytes]
  | succ n ih => simp [Memory.readBytes, Nat.succ_add, ih, Nat.add_assoc]

/-- A byte string written reads back whole. -/
@[simp] theorem Memory.readBytes_writeBytes (m : Memory) (i : Nat) (b : Bytes) :
    (m.writeBytes i b).readBytes i b.length = b := by
  induction b generalizing m i with
  | nil => rfl
  | cons v b ih =>
    simp only [Memory.writeBytes, List.length_cons, Memory.readBytes, ih]
    rw [Memory.read_writeBytes_out _ _ _ (by omega)]; simp

/-- What stood before a write reads as before. -/
theorem Memory.readBytes_writeBytes_before (m : Memory) {i n k : Nat} (b : Bytes) (h : i + n ≤ k) :
    (m.writeBytes k b).readBytes i n = m.readBytes i n :=
  Memory.readBytes_congr fun _ _ _ => Memory.read_writeBytes_out _ _ _ (by omega)

/-- A raised lower bound still holds of the lower one. -/
theorem rising_mono {lo hi : Nat} {c : List Host.Cell} (h : lo ≤ hi) (hc : rising hi c = true) : rising lo c = true := by
  cases c with
  | nil => rfl
  | cons kw r => simp only [rising, Bool.and_eq_true, decide_eq_true_eq] at hc ⊢; exact ⟨by omega, hc.2⟩

theorem rising_insertCell {lo a : Nat} {c : List Host.Cell} (v : Byte) (hlo : lo ≤ a) (hc : rising lo c = true) :
    rising lo (insertCell c a v) = true := by
  induction c generalizing lo with
  | nil => simp [insertCell, rising, hlo]
  | cons kw r ih =>
    obtain ⟨k, w⟩ := kw
    simp only [rising, Bool.and_eq_true, decide_eq_true_eq] at hc
    simp only [insertCell]
    split
    · simp only [rising, Bool.and_eq_true, decide_eq_true_eq]; exact ⟨hlo, by omega, hc.2⟩
    · split
      · subst_vars; simp only [rising, Bool.and_eq_true, decide_eq_true_eq]; exact hc
      · simp only [rising, Bool.and_eq_true, decide_eq_true_eq]; exact ⟨hc.1, ih (by omega) hc.2⟩

/-- A write keeps the canonical form. -/
theorem Memory.write_wf {m : Memory} (i : Nat) (v : Byte) (h : m.wf = true) : (m.write i v).wf = true :=
  rising_insertCell v (Nat.zero_le i) h

theorem Memory.writeBytes_wf {m : Memory} (i : Nat) (b : Bytes) (h : m.wf = true) : (m.writeBytes i b).wf = true := by
  induction b generalizing m i with
  | nil => exact h
  | cons v b ih => exact ih _ (Memory.write_wf i v h)

@[simp] theorem Memory.unspecified_wf (d : Nat) : (Memory.unspecified d).wf = true := rfl

@[simp] theorem Memory.unspecified_within (cap d : Nat) : (Memory.unspecified d).within cap = true := rfl

@[simp] theorem Memory.unspecified_draw (d : Nat) : (Memory.unspecified d).draw = d := rfl

@[simp] theorem Memory.unspecified_read (d i : Nat) : (Memory.unspecified d).read i = Config.freeByte d i := rfl

theorem mem_insertCell {c : List Host.Cell} {a : Nat} {v : Byte} {x : Host.Cell} (h : x ∈ insertCell c a v) :
    x = (a, v) ∨ x ∈ c := by
  induction c with
  | nil => simpa [insertCell] using h
  | cons kw r ih =>
    obtain ⟨k, w⟩ := kw
    simp only [insertCell] at h
    split at h
    · simpa using h
    · split at h
      · rcases List.mem_cons.1 h with h | h
        · exact .inl h
        · exact .inr (List.mem_cons_of_mem _ h)
      · rcases List.mem_cons.1 h with h | h
        · exact .inr (h ▸ List.mem_cons_self)
        · exact (ih h).imp_right (List.mem_cons_of_mem _)

theorem Memory.within_iff {cap : Nat} {m : Memory} : m.within cap = true ↔ ∀ x ∈ m.cells, x.1 < cap := by
  simp [Memory.within]

/-- A write inside a buffer keeps its bounds. -/
theorem Memory.write_within {cap : Nat} {m : Memory} {i : Nat} (v : Byte) (hi : i < cap) (h : m.within cap = true) :
    (m.write i v).within cap = true := by
  rw [Memory.within_iff] at h ⊢
  intro x hx
  rcases mem_insertCell hx with rfl | hx
  · exact hi
  · exact h x hx

theorem Memory.writeBytes_within {cap : Nat} {m : Memory} {i : Nat} {b : Bytes} (hi : i + b.length ≤ cap)
    (h : m.within cap = true) : (m.writeBytes i b).within cap = true := by
  induction b generalizing m i with
  | nil => exact h
  | cons v b ih =>
    simp only [List.length_cons] at hi
    exact ih (by omega) (Memory.write_within v (by omega) h)

end Sys2Proof.Machine
end

