-- ==== Sys2Proof/Laws/State.lean ====
section
/-! SUPPORT. What each named update of the state leaves in each field: true by definition, for simp. -/

namespace Sys2Proof.Machine

@[simp] theorem State.complete_width (s : State) : s.complete.width = s.width := rfl
@[simp] theorem State.complete_height (s : State) : s.complete.height = s.height := rfl
@[simp] theorem State.complete_rawLen (s : State) : s.complete.rawLen = s.rawLen := rfl
@[simp] theorem State.complete_chunkType (s : State) : s.complete.chunkType = s.chunkType := rfl
@[simp] theorem State.complete_crcState (s : State) : s.complete.crcState = s.crcState := rfl
@[simp] theorem State.complete_outLen (s : State) : s.complete.outLen = s.outLen := rfl
@[simp] theorem State.complete_doneIe (s : State) : s.complete.doneIe = s.doneIe := rfl
@[simp] theorem State.complete_errIe (s : State) : s.complete.errIe = s.errIe := rfl
@[simp] theorem State.complete_busy (s : State) : s.complete.busy = false := rfl
@[simp] theorem State.complete_done (s : State) : s.complete.done = true := rfl
@[simp] theorem State.complete_err (s : State) : s.complete.err = s.err := rfl
@[simp] theorem State.complete_drop (s : State) : s.complete.drop = s.drop := rfl
@[simp] theorem State.complete_errCode (s : State) : s.complete.errCode = s.errCode := rfl
@[simp] theorem State.complete_pending (s : State) : s.complete.pending = s.pending := rfl
@[simp] theorem State.complete_rawMem (s : State) : s.complete.rawMem = s.rawMem := rfl
@[simp] theorem State.complete_outMem (s : State) : s.complete.outMem = s.outMem := rfl
@[simp] theorem State.complete_params (s : State) : s.complete.params = s.params := rfl
@[simp] theorem State.complete_draws (s : State) : s.complete.draws = s.draws := rfl
@[simp] theorem State.complete_script (s : State) : s.complete.script = s.script := rfl
@[simp] theorem State.complete_reply (s : State) : s.complete.reply = s.reply := rfl

@[simp] theorem State.raise_width (e : CmdError) (s : State) : (s.raise e).width = s.width := rfl
@[simp] theorem State.raise_height (e : CmdError) (s : State) : (s.raise e).height = s.height := rfl
@[simp] theorem State.raise_rawLen (e : CmdError) (s : State) : (s.raise e).rawLen = s.rawLen := rfl
@[simp] theorem State.raise_chunkType (e : CmdError) (s : State) : (s.raise e).chunkType = s.chunkType := rfl
@[simp] theorem State.raise_crcState (e : CmdError) (s : State) : (s.raise e).crcState = s.crcState := rfl
@[simp] theorem State.raise_outLen (e : CmdError) (s : State) : (s.raise e).outLen = s.outLen := rfl
@[simp] theorem State.raise_doneIe (e : CmdError) (s : State) : (s.raise e).doneIe = s.doneIe := rfl
@[simp] theorem State.raise_errIe (e : CmdError) (s : State) : (s.raise e).errIe = s.errIe := rfl
@[simp] theorem State.raise_busy (e : CmdError) (s : State) : (s.raise e).busy = false := rfl
@[simp] theorem State.raise_done (e : CmdError) (s : State) : (s.raise e).done = true := rfl
@[simp] theorem State.raise_err (e : CmdError) (s : State) : (s.raise e).err = true := rfl
@[simp] theorem State.raise_drop (e : CmdError) (s : State) : (s.raise e).drop = s.drop := rfl
@[simp] theorem State.raise_errCode (e : CmdError) (s : State) : (s.raise e).errCode = e.code := rfl
@[simp] theorem State.raise_pending (e : CmdError) (s : State) : (s.raise e).pending = s.pending := rfl
@[simp] theorem State.raise_rawMem (e : CmdError) (s : State) : (s.raise e).rawMem = s.rawMem := rfl
@[simp] theorem State.raise_outMem (e : CmdError) (s : State) : (s.raise e).outMem = s.outMem := rfl
@[simp] theorem State.raise_params (e : CmdError) (s : State) : (s.raise e).params = s.params := rfl
@[simp] theorem State.raise_draws (e : CmdError) (s : State) : (s.raise e).draws = s.draws := rfl
@[simp] theorem State.raise_script (e : CmdError) (s : State) : (s.raise e).script = s.script := rfl
@[simp] theorem State.raise_reply (e : CmdError) (s : State) : (s.raise e).reply = s.reply := rfl

@[simp] theorem State.dropped_width (s : State) : s.dropped.width = s.width := rfl
@[simp] theorem State.dropped_height (s : State) : s.dropped.height = s.height := rfl
@[simp] theorem State.dropped_rawLen (s : State) : s.dropped.rawLen = s.rawLen := rfl
@[simp] theorem State.dropped_chunkType (s : State) : s.dropped.chunkType = s.chunkType := rfl
@[simp] theorem State.dropped_crcState (s : State) : s.dropped.crcState = s.crcState := rfl
@[simp] theorem State.dropped_outLen (s : State) : s.dropped.outLen = s.outLen := rfl
@[simp] theorem State.dropped_doneIe (s : State) : s.dropped.doneIe = s.doneIe := rfl
@[simp] theorem State.dropped_errIe (s : State) : s.dropped.errIe = s.errIe := rfl
@[simp] theorem State.dropped_busy (s : State) : s.dropped.busy = s.busy := rfl
@[simp] theorem State.dropped_done (s : State) : s.dropped.done = s.done := rfl
@[simp] theorem State.dropped_err (s : State) : s.dropped.err = s.err := rfl
@[simp] theorem State.dropped_drop (s : State) : s.dropped.drop = true := rfl
@[simp] theorem State.dropped_errCode (s : State) : s.dropped.errCode = s.errCode := rfl
@[simp] theorem State.dropped_pending (s : State) : s.dropped.pending = s.pending := rfl
@[simp] theorem State.dropped_rawMem (s : State) : s.dropped.rawMem = s.rawMem := rfl
@[simp] theorem State.dropped_outMem (s : State) : s.dropped.outMem = s.outMem := rfl
@[simp] theorem State.dropped_params (s : State) : s.dropped.params = s.params := rfl
@[simp] theorem State.dropped_draws (s : State) : s.dropped.draws = s.draws := rfl
@[simp] theorem State.dropped_script (s : State) : s.dropped.script = s.script := rfl
@[simp] theorem State.dropped_reply (s : State) : s.dropped.reply = s.reply := rfl

@[simp] theorem State.accept_width (w : Word) (s : State) : (s.accept w).width = s.width := rfl
@[simp] theorem State.accept_height (w : Word) (s : State) : (s.accept w).height = s.height := rfl
@[simp] theorem State.accept_rawLen (w : Word) (s : State) : (s.accept w).rawLen = s.rawLen := rfl
@[simp] theorem State.accept_chunkType (w : Word) (s : State) : (s.accept w).chunkType = s.chunkType := rfl
@[simp] theorem State.accept_crcState (w : Word) (s : State) : (s.accept w).crcState = s.crcState := rfl
@[simp] theorem State.accept_outLen (w : Word) (s : State) : (s.accept w).outLen = s.outLen := rfl
@[simp] theorem State.accept_doneIe (w : Word) (s : State) : (s.accept w).doneIe = s.doneIe := rfl
@[simp] theorem State.accept_errIe (w : Word) (s : State) : (s.accept w).errIe = s.errIe := rfl
@[simp] theorem State.accept_busy (w : Word) (s : State) : (s.accept w).busy = true := rfl
@[simp] theorem State.accept_done (w : Word) (s : State) : (s.accept w).done = false := rfl
@[simp] theorem State.accept_err (w : Word) (s : State) : (s.accept w).err = s.err := rfl
@[simp] theorem State.accept_drop (w : Word) (s : State) : (s.accept w).drop = s.drop := rfl
@[simp] theorem State.accept_errCode (w : Word) (s : State) : (s.accept w).errCode = s.errCode := rfl
@[simp] theorem State.accept_pending (w : Word) (s : State) : (s.accept w).pending = w := rfl
@[simp] theorem State.accept_rawMem (w : Word) (s : State) : (s.accept w).rawMem = s.rawMem := rfl
@[simp] theorem State.accept_outMem (w : Word) (s : State) : (s.accept w).outMem = s.outMem := rfl
@[simp] theorem State.accept_params (w : Word) (s : State) : (s.accept w).params = s.params := rfl
@[simp] theorem State.accept_draws (w : Word) (s : State) : (s.accept w).draws = s.draws := rfl
@[simp] theorem State.accept_script (w : Word) (s : State) : (s.accept w).script = s.script := rfl
@[simp] theorem State.accept_reply (w : Word) (s : State) : (s.accept w).reply = s.reply := rfl

@[simp] theorem State.softReset_width (s : State) : s.softReset.width = s.width := rfl
@[simp] theorem State.softReset_height (s : State) : s.softReset.height = s.height := rfl
@[simp] theorem State.softReset_rawLen (s : State) : s.softReset.rawLen = s.rawLen := rfl
@[simp] theorem State.softReset_chunkType (s : State) : s.softReset.chunkType = s.chunkType := rfl
@[simp] theorem State.softReset_crcState (s : State) : s.softReset.crcState = 0xFFFFFFFF#32 := rfl
@[simp] theorem State.softReset_outLen (s : State) : s.softReset.outLen = 0 := rfl
@[simp] theorem State.softReset_doneIe (s : State) : s.softReset.doneIe = s.doneIe := rfl
@[simp] theorem State.softReset_errIe (s : State) : s.softReset.errIe = s.errIe := rfl
@[simp] theorem State.softReset_busy (s : State) : s.softReset.busy = false := rfl
@[simp] theorem State.softReset_done (s : State) : s.softReset.done = false := rfl
@[simp] theorem State.softReset_err (s : State) : s.softReset.err = false := rfl
@[simp] theorem State.softReset_drop (s : State) : s.softReset.drop = false := rfl
@[simp] theorem State.softReset_errCode (s : State) : s.softReset.errCode = 0 := rfl
@[simp] theorem State.softReset_pending (s : State) : s.softReset.pending = 0 := rfl
@[simp] theorem State.softReset_rawMem (s : State) : s.softReset.rawMem = s.rawMem := rfl
@[simp] theorem State.softReset_outMem (s : State) : s.softReset.outMem = (if s.busy then Memory.unspecified s.draws else s.outMem) := rfl
@[simp] theorem State.softReset_params (s : State) : s.softReset.params = s.params := rfl
@[simp] theorem State.softReset_draws (s : State) : s.softReset.draws = (if s.busy then s.draws + 1 else s.draws) := rfl
@[simp] theorem State.softReset_script (s : State) : s.softReset.script = s.script := rfl
@[simp] theorem State.softReset_reply (s : State) : s.softReset.reply = s.reply := rfl

@[simp] theorem State.hardReset_width (s : State) : s.hardReset.width = 0x64#32 := rfl
@[simp] theorem State.hardReset_height (s : State) : s.hardReset.height = 0x64#32 := rfl
@[simp] theorem State.hardReset_rawLen (s : State) : s.hardReset.rawLen = 0 := rfl
@[simp] theorem State.hardReset_chunkType (s : State) : s.hardReset.chunkType = 0 := rfl
@[simp] theorem State.hardReset_crcState (s : State) : s.hardReset.crcState = 0xFFFFFFFF#32 := rfl
@[simp] theorem State.hardReset_outLen (s : State) : s.hardReset.outLen = 0 := rfl
@[simp] theorem State.hardReset_doneIe (s : State) : s.hardReset.doneIe = false := rfl
@[simp] theorem State.hardReset_errIe (s : State) : s.hardReset.errIe = false := rfl
@[simp] theorem State.hardReset_busy (s : State) : s.hardReset.busy = false := rfl
@[simp] theorem State.hardReset_done (s : State) : s.hardReset.done = false := rfl
@[simp] theorem State.hardReset_err (s : State) : s.hardReset.err = false := rfl
@[simp] theorem State.hardReset_drop (s : State) : s.hardReset.drop = false := rfl
@[simp] theorem State.hardReset_errCode (s : State) : s.hardReset.errCode = 0 := rfl
@[simp] theorem State.hardReset_pending (s : State) : s.hardReset.pending = 0 := rfl
@[simp] theorem State.hardReset_rawMem (s : State) : s.hardReset.rawMem = Memory.unspecified s.draws := rfl
@[simp] theorem State.hardReset_outMem (s : State) : s.hardReset.outMem = Memory.unspecified (s.draws + 1) := rfl
@[simp] theorem State.hardReset_params (s : State) : s.hardReset.params = s.params := rfl
@[simp] theorem State.hardReset_draws (s : State) : s.hardReset.draws = s.draws + 2 := rfl
@[simp] theorem State.hardReset_script (s : State) : s.hardReset.script = s.script := rfl
@[simp] theorem State.hardReset_reply (s : State) : s.hardReset.reply = s.reply := rfl

@[simp] theorem State.statusWrite_width (v : Word) (s : State) : (s.statusWrite v).width = s.width := rfl
@[simp] theorem State.statusWrite_height (v : Word) (s : State) : (s.statusWrite v).height = s.height := rfl
@[simp] theorem State.statusWrite_rawLen (v : Word) (s : State) : (s.statusWrite v).rawLen = s.rawLen := rfl
@[simp] theorem State.statusWrite_chunkType (v : Word) (s : State) : (s.statusWrite v).chunkType = s.chunkType := rfl
@[simp] theorem State.statusWrite_crcState (v : Word) (s : State) : (s.statusWrite v).crcState = s.crcState := rfl
@[simp] theorem State.statusWrite_outLen (v : Word) (s : State) : (s.statusWrite v).outLen = s.outLen := rfl
@[simp] theorem State.statusWrite_doneIe (v : Word) (s : State) : (s.statusWrite v).doneIe = s.doneIe := rfl
@[simp] theorem State.statusWrite_errIe (v : Word) (s : State) : (s.statusWrite v).errIe = s.errIe := rfl
@[simp] theorem State.statusWrite_busy (v : Word) (s : State) : (s.statusWrite v).busy = s.busy := rfl
@[simp] theorem State.statusWrite_done (v : Word) (s : State) : (s.statusWrite v).done = (s.done && !v.getLsbD 1) := rfl
@[simp] theorem State.statusWrite_err (v : Word) (s : State) : (s.statusWrite v).err = s.err := rfl
@[simp] theorem State.statusWrite_drop (v : Word) (s : State) : (s.statusWrite v).drop = (s.drop && !v.getLsbD 3) := rfl
@[simp] theorem State.statusWrite_errCode (v : Word) (s : State) : (s.statusWrite v).errCode = s.errCode := rfl
@[simp] theorem State.statusWrite_pending (v : Word) (s : State) : (s.statusWrite v).pending = s.pending := rfl
@[simp] theorem State.statusWrite_rawMem (v : Word) (s : State) : (s.statusWrite v).rawMem = s.rawMem := rfl
@[simp] theorem State.statusWrite_outMem (v : Word) (s : State) : (s.statusWrite v).outMem = s.outMem := rfl
@[simp] theorem State.statusWrite_params (v : Word) (s : State) : (s.statusWrite v).params = s.params := rfl
@[simp] theorem State.statusWrite_draws (v : Word) (s : State) : (s.statusWrite v).draws = s.draws := rfl
@[simp] theorem State.statusWrite_script (v : Word) (s : State) : (s.statusWrite v).script = s.script := rfl
@[simp] theorem State.statusWrite_reply (v : Word) (s : State) : (s.statusWrite v).reply = s.reply := rfl

@[simp] theorem State.intEnWrite_width (v : Word) (s : State) : (s.intEnWrite v).width = s.width := rfl
@[simp] theorem State.intEnWrite_height (v : Word) (s : State) : (s.intEnWrite v).height = s.height := rfl
@[simp] theorem State.intEnWrite_rawLen (v : Word) (s : State) : (s.intEnWrite v).rawLen = s.rawLen := rfl
@[simp] theorem State.intEnWrite_chunkType (v : Word) (s : State) : (s.intEnWrite v).chunkType = s.chunkType := rfl
@[simp] theorem State.intEnWrite_crcState (v : Word) (s : State) : (s.intEnWrite v).crcState = s.crcState := rfl
@[simp] theorem State.intEnWrite_outLen (v : Word) (s : State) : (s.intEnWrite v).outLen = s.outLen := rfl
@[simp] theorem State.intEnWrite_doneIe (v : Word) (s : State) : (s.intEnWrite v).doneIe = v.getLsbD 0 := rfl
@[simp] theorem State.intEnWrite_errIe (v : Word) (s : State) : (s.intEnWrite v).errIe = v.getLsbD 1 := rfl
@[simp] theorem State.intEnWrite_busy (v : Word) (s : State) : (s.intEnWrite v).busy = s.busy := rfl
@[simp] theorem State.intEnWrite_done (v : Word) (s : State) : (s.intEnWrite v).done = s.done := rfl
@[simp] theorem State.intEnWrite_err (v : Word) (s : State) : (s.intEnWrite v).err = s.err := rfl
@[simp] theorem State.intEnWrite_drop (v : Word) (s : State) : (s.intEnWrite v).drop = s.drop := rfl
@[simp] theorem State.intEnWrite_errCode (v : Word) (s : State) : (s.intEnWrite v).errCode = s.errCode := rfl
@[simp] theorem State.intEnWrite_pending (v : Word) (s : State) : (s.intEnWrite v).pending = s.pending := rfl
@[simp] theorem State.intEnWrite_rawMem (v : Word) (s : State) : (s.intEnWrite v).rawMem = s.rawMem := rfl
@[simp] theorem State.intEnWrite_outMem (v : Word) (s : State) : (s.intEnWrite v).outMem = s.outMem := rfl
@[simp] theorem State.intEnWrite_params (v : Word) (s : State) : (s.intEnWrite v).params = s.params := rfl
@[simp] theorem State.intEnWrite_draws (v : Word) (s : State) : (s.intEnWrite v).draws = s.draws := rfl
@[simp] theorem State.intEnWrite_script (v : Word) (s : State) : (s.intEnWrite v).script = s.script := rfl
@[simp] theorem State.intEnWrite_reply (v : Word) (s : State) : (s.intEnWrite v).reply = s.reply := rfl

@[simp] theorem State.advance_width (s : State) : s.advance.width = s.width := rfl
@[simp] theorem State.advance_height (s : State) : s.advance.height = s.height := rfl
@[simp] theorem State.advance_rawLen (s : State) : s.advance.rawLen = s.rawLen := rfl
@[simp] theorem State.advance_chunkType (s : State) : s.advance.chunkType = s.chunkType := rfl
@[simp] theorem State.advance_crcState (s : State) : s.advance.crcState = s.crcState := rfl
@[simp] theorem State.advance_outLen (s : State) : s.advance.outLen = s.outLen := rfl
@[simp] theorem State.advance_doneIe (s : State) : s.advance.doneIe = s.doneIe := rfl
@[simp] theorem State.advance_errIe (s : State) : s.advance.errIe = s.errIe := rfl
@[simp] theorem State.advance_busy (s : State) : s.advance.busy = s.busy := rfl
@[simp] theorem State.advance_done (s : State) : s.advance.done = s.done := rfl
@[simp] theorem State.advance_err (s : State) : s.advance.err = s.err := rfl
@[simp] theorem State.advance_drop (s : State) : s.advance.drop = s.drop := rfl
@[simp] theorem State.advance_errCode (s : State) : s.advance.errCode = s.errCode := rfl
@[simp] theorem State.advance_pending (s : State) : s.advance.pending = s.pending := rfl
@[simp] theorem State.advance_rawMem (s : State) : s.advance.rawMem = s.rawMem := rfl
@[simp] theorem State.advance_outMem (s : State) : s.advance.outMem = s.outMem := rfl
@[simp] theorem State.advance_params (s : State) : s.advance.params = s.params := rfl
@[simp] theorem State.advance_draws (s : State) : s.advance.draws = s.draws := rfl
@[simp] theorem State.advance_script (s : State) : s.advance.script = s.script.tail := rfl
@[simp] theorem State.advance_reply (s : State) : s.advance.reply = s.reply := rfl

end Sys2Proof.Machine
end

