-- ==== Sys2Proof/Laws/Ops.lean ====
section
/-! SUPPORT. One lemma per shared operation: what it can do, once. -/

namespace Sys2Proof.Machine

@[simp] theorem State.finish_ok (s t : State) : s.finish (.ok t) = t.complete := rfl

@[simp] theorem State.finish_error (s : State) (e : CmdError) : s.finish (.error e) = s.raise e := rfl

@[simp] theorem be32_length (v : Word) : (be32 v).length = 4 := rfl

@[simp] theorem le32_length (v : Word) : (le32 v).length = 4 := rfl

@[simp] theorem sig_length : sig.length = 8 := rfl

@[simp] theorem ihdrData_length (w h : Word) : (ihdrData w h).length = 13 := rfl

@[simp] theorem chunk_length (t d : Bytes) : (chunk t d).length = 8 + t.length + d.length := by
  simp [chunk]; omega

/-- The CRC of a concatenation is the CRC of its parts in turn (40_crc.md R123). -/
theorem crcRun_append (s : Word) (m₁ m₂ : Bytes) : crcRun s (m₁ ++ m₂) = crcRun (crcRun s m₁) m₂ := by
  induction m₁ generalizing s with
  | nil => rfl
  | cons b m ih => exact ih _

/-- Everything OutAppend can do (20_memory.md R83). -/
theorem outAppend_cases (b : Bytes) (s : State) :
    (s.params.outCap < s.outLen.toNat + b.length ∧ outAppend b s = .error .outOvf) ∨
      (s.outLen.toNat + b.length ≤ s.params.outCap ∧ outAppend b s = .ok { s with
        outMem := s.outMem.writeBytes s.outLen.toNat b
        outLen := BitVec.ofNat 32 (s.outLen.toNat + b.length) }) := by
  unfold outAppend
  split
  · exact .inl ⟨‹_›, rfl⟩
  · exact .inr ⟨by omega, rfl⟩

/-- Everything the replacement of the stream can do (43_encode.md R190). -/
theorem outReplace_cases (b : Bytes) (s : State) :
    (s.params.outCap < b.length ∧ outReplace b s = .error .outOvf) ∨
      (b.length ≤ s.params.outCap ∧ outReplace b s = .ok { s with
        outMem := s.outMem.writeBytes 0 b
        outLen := BitVec.ofNat 32 b.length }) := by
  unfold outReplace
  split
  · exact .inl ⟨‹_›, rfl⟩
  · exact .inr ⟨by omega, rfl⟩

/-- Everything EmitChunk can do (41_framer.md R141). -/
theorem emitChunk_cases (t d : Bytes) (s : State) :
    (s.params.outCap < s.outLen.toNat + (chunk t d).length ∧ emitChunk t d s = .error .outOvf) ∨
      (s.outLen.toNat + (chunk t d).length ≤ s.params.outCap ∧ emitChunk t d s = .ok { s with
        outMem := s.outMem.writeBytes s.outLen.toNat (chunk t d)
        outLen := BitVec.ofNat 32 (s.outLen.toNat + (chunk t d).length)
        crcState := crcRun crcInitValue (t ++ d) }) := by
  rcases outAppend_cases (chunk t d) s with ⟨h, e⟩ | ⟨h, e⟩
  · exact .inl ⟨h, by rw [emitChunk, e]⟩
  · exact .inr ⟨h, by rw [emitChunk, e]⟩

/-- Everything the payload check of CRC_BUF and EMIT_CHUNK can do. -/
theorem rawPayload_cases (s : State) :
    (s.params.rawCap < s.rawLen.toNat ∧ s.rawPayload = .error .range) ∨
      (s.rawLen.toNat ≤ s.params.rawCap ∧ s.rawPayload = .ok (s.raw s.rawLen.toNat)) := by
  unfold State.rawPayload
  split
  · exact .inl ⟨‹_›, rfl⟩
  · exact .inr ⟨by omega, rfl⟩

/-- Everything the checks of EMIT_IDAT and ENCODE can do, in the order of 60_exceptions.md R233. -/
theorem idatPayload_cases (s : State) :
    (dimOk s.width s.height = false ∧ s.idatPayload = .error .badDim) ∨
      (dimOk s.width s.height = true ∧ s.params.rawCap < s.rawLen.toNat ∧ s.idatPayload = .error .range) ∨
      (dimOk s.width s.height = true ∧ s.rawLen.toNat ≤ s.params.rawCap ∧
        s.rawLen.toNat ≠ rawLenOf s.width.toNat s.height.toNat ∧ s.idatPayload = .error .badLen) ∨
      (dimOk s.width s.height = true ∧ s.rawLen.toNat ≤ s.params.rawCap ∧
        s.rawLen.toNat = rawLenOf s.width.toNat s.height.toNat ∧
        compress s.params.compressor (s.raw s.rawLen.toNat) = none ∧ s.idatPayload = .error .compFail) ∨
      (dimOk s.width s.height = true ∧ s.rawLen.toNat ≤ s.params.rawCap ∧
        s.rawLen.toNat = rawLenOf s.width.toNat s.height.toNat ∧
        ∃ z, compress s.params.compressor (s.raw s.rawLen.toNat) = some z ∧ s.idatPayload = .ok z) := by
  unfold State.idatPayload
  split
  · exact .inl ⟨‹_›, rfl⟩
  · have hd : dimOk s.width s.height = true := by simpa using ‹¬ dimOk s.width s.height = false›
    split
    · exact .inr (.inl ⟨hd, ‹_›, rfl⟩)
    · split
      · exact .inr (.inr (.inl ⟨hd, by omega, ‹_›, rfl⟩))
      · have hl := not_not.1 ‹¬ s.rawLen.toNat ≠ rawLenOf s.width.toNat s.height.toNat›
        split
        · exact .inr (.inr (.inr (.inl ⟨hd, by omega, hl, ‹_›, rfl⟩)))
        · exact .inr (.inr (.inr (.inr ⟨hd, by omega, hl, _, ‹_›, rfl⟩)))

/-- A command error has a code from 1 to 6 (60_exceptions.md R231). -/
theorem CmdError.code_range (e : CmdError) : 1 ≤ e.code.toNat ∧ e.code.toNat ≤ 6 := by cases e <;> decide

/-- Everything a CMD write can do (70_reset_and_hazards.md R274). -/
theorem State.cmdWrite_cases (w : Word) (s : State) :
    (w = 0x000000FF#32 ∧ s.cmdWrite w = s.softReset) ∨
      (w ≠ 0x000000FF#32 ∧ (s.busy = true ∨ s.err = true) ∧ s.cmdWrite w = s.dropped) ∨
      (w ≠ 0x000000FF#32 ∧ s.busy = false ∧ s.err = false ∧ s.cmdWrite w = s.accept w) := by
  unfold State.cmdWrite
  split
  · exact .inl ⟨‹_›, rfl⟩
  · split
    · exact .inr (.inl ⟨‹_›, by simpa using ‹(s.busy || s.err) = true›, rfl⟩)
    · have h : s.busy = false ∧ s.err = false := by simpa using ‹¬ (s.busy || s.err) = true›
      exact .inr (.inr ⟨‹_›, h.1, h.2, rfl⟩)

end Sys2Proof.Machine
end

