-- ==== Sys2Proof/Laws/Bus.lean ====
section
/-! SUPPORT. What a host access can reach and do, once. -/

namespace Sys2Proof.Machine

/-- The bounds of 00_scope.md R6 on a legal capacity. -/
theorem capOk_bounds {c : Nat} (h : capOk c = true) : c % 4 = 0 ∧ 4 ≤ c ∧ c ≤ 0x400000 := by
  simp only [capOk, Bool.and_eq_true, beq_iff_eq, decide_eq_true_eq] at h
  exact ⟨h.1.1, h.1.2, h.2⟩

theorem Params.rawCap_bounds {p : Params} (h : p.wf = true) : p.rawCap % 4 = 0 ∧ 4 ≤ p.rawCap ∧ p.rawCap ≤ 0x400000 :=
  capOk_bounds (Bool.and_eq_true_iff.1 h).1

theorem Params.outCap_bounds {p : Params} (h : p.wf = true) : p.outCap % 4 = 0 ∧ 4 ≤ p.outCap ∧ p.outCap ≤ 0x400000 :=
  capOk_bounds (Bool.and_eq_true_iff.1 h).2

theorem region_registers {p : Params} {o : Nat} (h : o < 0x1000) : region p o = .registers := if_pos h

theorem region_rawWindow {p : Params} {i : Nat} (h : i < p.rawCap) : region p (0x400000 + i) = .rawWindow := by
  unfold region rawBase
  rw [if_neg (by omega), if_pos (by omega)]

theorem region_outWindow {p : Params} {i : Nat} (hp : p.wf = true) (h : i < p.outCap) :
    region p (0x800000 + i) = .outWindow := by
  have := Params.rawCap_bounds hp
  unfold region rawBase outBase
  rw [if_neg (by omega), if_neg (by omega), if_pos (by omega)]

/-- A width-4 access at a 4-aligned offset of the register region reaches that offset. -/
theorem target_registers (p : Params) (w : Bool) {off : Offset} (ha : off.toNat % 4 = 0) (h : off.toNat < 0x1000) :
    target p w off 4 = some (.reg off.toNat) := by
  simp [target, ha, region_registers (p := p) h, region_registers (p := p) (show off.toNat + 3 < 0x1000 by omega)]

/-- An access of the RAW window, in its widths and alignment, reaches RAW_MEM[i]. -/
theorem target_rawWindow {p : Params} (w : Bool) {i n : Nat} (hp : p.wf = true) (hn : n = 1 ∨ n = 4 ∧ i % 4 = 0)
    (h : i < p.rawCap) : target p w (BitVec.ofNat 24 (0x400000 + i)) n = some (.raw i) := by
  have hr := Params.rawCap_bounds hp
  have e : (BitVec.ofNat 24 (0x400000 + i)).toNat = 0x400000 + i := by
    rw [BitVec.toNat_ofNat, Nat.mod_eq_of_lt (by omega)]
  have h1 : 0x400000 + i + n - 1 = 0x400000 + (i + n - 1) := by omega
  unfold target
  simp only [e]
  rw [h1, region_rawWindow h, region_rawWindow (show i + n - 1 < p.rawCap by omega), if_neg (by omega), if_neg (by omega),
    if_neg (by simp)]
  simp [rawBase]

/-- An access of the OUT window, in its widths and alignment: a read reaches OUT_MEM[i], a write is a bus error. -/
theorem target_outWindow {p : Params} (w : Bool) {i n : Nat} (hp : p.wf = true) (hn : n = 1 ∨ n = 4 ∧ i % 4 = 0)
    (h : i < p.outCap) :
    target p w (BitVec.ofNat 24 (0x800000 + i)) n = if w then none else some (.out i) := by
  have ho := Params.outCap_bounds hp
  have e : (BitVec.ofNat 24 (0x800000 + i)).toNat = 0x800000 + i := by
    rw [BitVec.toNat_ofNat, Nat.mod_eq_of_lt (by omega)]
  have h1 : 0x800000 + i + n - 1 = 0x800000 + (i + n - 1) := by omega
  unfold target
  simp only [e]
  rw [h1, region_outWindow hp h, region_outWindow hp (show i + n - 1 < p.outCap by omega), if_neg (by omega),
    if_neg (by omega), if_neg (by simp)]
  simp [outBase]

/-- What an access that is no bus error reaches (20_memory.md R62 to R67). -/
theorem target_bounds {p : Params} {w : Bool} {off : Offset} {n : Nat} {t : Target} (h : target p w off n = some t) :
    (n = 1 ∨ n = 4) ∧
      ((n = 4 ∧ t = .reg off.toNat ∧ off.toNat + 3 < 0x1000 ∧ off.toNat % 4 = 0) ∨
        (t = .raw (off.toNat - rawBase) ∧ rawBase ≤ off.toNat ∧ off.toNat - rawBase + n ≤ p.rawCap) ∨
        (w = false ∧ t = .out (off.toNat - outBase) ∧ outBase ≤ off.toNat ∧ off.toNat - outBase + n ≤ p.outCap)) := by
  have region_raw {o : Nat} (e : region p o = .rawWindow) : rawBase ≤ o ∧ o < rawBase + p.rawCap := by
    unfold region at e
    split at e
    · cases e
    · split at e
      · assumption
      · split at e <;> cases e
  have region_out {o : Nat} (e : region p o = .outWindow) : outBase ≤ o ∧ o < outBase + p.outCap := by
    unfold region at e
    split at e
    · cases e
    · split at e
      · cases e
      · split at e
        · assumption
        · cases e
  have region_regs {o : Nat} (e : region p o = .registers) : o < 0x1000 := by
    unfold region at e
    split at e
    · assumption
    · split at e
      · cases e
      · split at e <;> cases e
  simp only [target] at h
  split at h
  · cases h
  · have hn : n = 1 ∨ n = 4 := by omega
    split at h
    · cases h
    · split at h
      · cases h
      · have hr := not_not.1 ‹¬ region p (off.toNat + n - 1) ≠ region p off.toNat›
        refine ⟨hn, ?_⟩
        rcases e : region p off.toNat with _ | _ | _ | _ <;> rw [e] at h hr
        · simp only at h
          split at h
          · simp only [Option.some.injEq] at h
            have := region_regs hr
            exact .inl ⟨‹_›, h.symm, by omega, by omega⟩
          · cases h
        · simp only [Option.some.injEq] at h
          have h₁ := region_raw e
          have h₂ := region_raw hr
          exact .inr (.inl ⟨h.symm, h₁.1, by omega⟩)
        · simp only at h
          split at h
          · cases h
          · simp only [Option.some.injEq] at h
            have h₁ := region_out e
            have h₂ := region_out hr
            exact .inr (.inr ⟨by simpa using ‹¬ w = true›, h.symm, h₁.1, by omega⟩)
        · cases h

/-- A host read changes nothing of PNGE: only the draw counter may move (20_memory.md R72). -/
theorem readTarget_state (s : State) (n : Nat) (t : Target) :
    (readTarget s n t).2 = s ∨ (s.busy = true ∧ (readTarget s n t).2 = { s with draws := s.draws + 1 }) := by
  unfold readTarget
  split
  · split
    · exact .inl rfl
    · split
      · exact .inr ⟨by simp_all, rfl⟩
      · exact .inl rfl
  · exact .inl rfl
  · split
    · exact .inr ⟨‹_›, rfl⟩
    · exact .inl rfl

/-- Everything a host write can do: nothing, one locked register or RAW_MEM while idle, a drop, the STATUS or INT_EN
write, or a CMD write (20_memory.md R64, R65, R70; 10_state.md R24 to R38). -/
theorem writeTarget_cases (s : State) (n : Nat) (v : Word) (t : Target) :
    writeTarget s n v t = s ∨
      (s.busy = true ∧ writeTarget s n v t = s.dropped) ∨
      (s.busy = false ∧ ∃ a b c d, writeTarget s n v t = { s with width := a, height := b, rawLen := c, chunkType := d }) ∨
      (s.busy = false ∧ ∃ i, t = .raw i ∧
        writeTarget s n v t = { s with rawMem := s.rawMem.writeBytes i (storedBytes n v) }) ∨
      (t = .reg 0x008 ∧ writeTarget s n v t = s.statusWrite v) ∨
      (t = .reg 0x00C ∧ writeTarget s n v t = s.intEnWrite v) ∨
      (t = .reg 0x004 ∧ writeTarget s n v t = s.cmdWrite v) := by
  have reg (a b c d : Word) (h : writeTarget s n v t =
      s.locked { s with width := a, height := b, rawLen := c, chunkType := d }) :
      (s.busy = true ∧ writeTarget s n v t = s.dropped) ∨ (s.busy = false ∧ ∃ a b c d, writeTarget s n v t =
        { s with width := a, height := b, rawLen := c, chunkType := d }) := by
    rw [h]
    cases hb : s.busy
    · exact .inr ⟨rfl, a, b, c, d, by simp [State.locked, hb]⟩
    · exact .inl ⟨rfl, by simp [State.locked, hb]⟩
  rcases t with o | i | i
  · rcases hr : Reg.at o with _ | r
    · exact .inl (by simp [writeTarget, hr])
    · cases r
      case cmd =>
        have ho : o = 0x004 := by
          unfold Reg.at at hr
          split at hr <;> first | rfl | cases hr
        exact .inr (.inr (.inr (.inr (.inr (.inr ⟨by rw [ho], by simp [writeTarget, hr, State.regWrite]⟩)))))
      case status =>
        have ho : o = 0x008 := by
          unfold Reg.at at hr
          split at hr <;> first | rfl | cases hr
        exact .inr (.inr (.inr (.inr (.inl ⟨by rw [ho], by simp [writeTarget, hr, State.regWrite]⟩))))
      case intEn =>
        have ho : o = 0x00C := by
          unfold Reg.at at hr
          split at hr <;> first | rfl | cases hr
        exact .inr (.inr (.inr (.inr (.inr (.inl ⟨by rw [ho], by simp [writeTarget, hr, State.regWrite]⟩)))))
      case width =>
        rcases reg v s.height s.rawLen s.chunkType (by simp [writeTarget, hr, State.regWrite]) with h | h
        · exact .inr (.inl h)
        · exact .inr (.inr (.inl h))
      case height =>
        rcases reg s.width v s.rawLen s.chunkType (by simp [writeTarget, hr, State.regWrite]) with h | h
        · exact .inr (.inl h)
        · exact .inr (.inr (.inl h))
      case rawLen =>
        rcases reg s.width s.height v s.chunkType (by simp [writeTarget, hr, State.regWrite]) with h | h
        · exact .inr (.inl h)
        · exact .inr (.inr (.inl h))
      case chunkType =>
        rcases reg s.width s.height s.rawLen v (by simp [writeTarget, hr, State.regWrite]) with h | h
        · exact .inr (.inl h)
        · exact .inr (.inr (.inl h))
      all_goals exact .inl (by simp [writeTarget, hr, State.regWrite])
  · cases hb : s.busy
    · exact .inr (.inr (.inr (.inl ⟨rfl, i, rfl, by simp [writeTarget, State.locked, hb]⟩)))
    · exact .inr (.inl ⟨rfl, by simp [writeTarget, State.locked, hb]⟩)
  · exact .inl rfl

/-- A host write leaves the events still to come. -/
theorem writeTarget_script (s : State) (n : Nat) (v : Word) (t : Target) : (writeTarget s n v t).script = s.script := by
  rcases writeTarget_cases s n v t with e | ⟨_, e⟩ | ⟨_, _, _, _, _, e⟩ | ⟨_, _, _, e⟩ | ⟨_, e⟩ | ⟨_, e⟩ | ⟨_, e⟩ <;> rw [e]
  · rfl
  · rfl
  · rfl
  · unfold State.cmdWrite
    split
    · rfl
    · split <;> rfl

end Sys2Proof.Machine
end

