-- ==== Sys2Proof/Laws/Decode.lean ====
section
/-! SUPPORT. The three fields of a command word and the opcode map (30_encoding.md R90, R94). -/

namespace Sys2Proof

theorem opcField_append (a : BitVec 16) (b c : Byte) : opcField (a ++ b ++ c : BitVec (16 + 8 + 8)) = c := by
  apply BitVec.eq_of_getLsbD_eq
  intro i hi
  simp only [opcField, BitVec.getLsbD_extractLsb', BitVec.getLsbD_append]
  simp [hi]

theorem immField_append (a : BitVec 16) (b c : Byte) : immField (a ++ b ++ c : BitVec (16 + 8 + 8)) = b := by
  apply BitVec.eq_of_getLsbD_eq
  intro i hi
  simp only [immField, BitVec.getLsbD_extractLsb', BitVec.getLsbD_append]
  simp [hi]

theorem rsvField_append (a : BitVec 16) (b c : Byte) : rsvField (a ++ b ++ c : BitVec (16 + 8 + 8)) = a := by
  apply BitVec.eq_of_getLsbD_eq
  intro i hi
  simp only [rsvField, BitVec.getLsbD_extractLsb', BitVec.getLsbD_append]
  rw [if_neg (by omega), if_neg (by omega), show 16 + i - 8 - 8 = i by omega]
  simp [hi]

/-- A word is its three fields. -/
theorem fields_append (w : Word) : (rsvField w ++ immField w ++ opcField w : BitVec (16 + 8 + 8)) = w := by
  apply BitVec.eq_of_getLsbD_eq
  intro i hi
  simp only [BitVec.getLsbD_append, rsvField, immField, opcField, BitVec.getLsbD_extractLsb']
  by_cases h1 : i < 8
  · simp [h1]
  · by_cases h2 : i - 8 < 8
    · simp [h1, h2, show 8 + (i - 8) = i by omega]
    · simp [h1, h2, show 16 + (i - 8 - 8) = i by omega, show i - 8 - 8 < 16 by omega]

@[simp] theorem opcField_encode (i : Instr) : opcField (encode i) = opcode i := opcField_append _ _ _

@[simp] theorem immField_encode (i : Instr) : immField (encode i) = immOf i := immField_append _ _ _

@[simp] theorem rsvField_encode (i : Instr) : rsvField (encode i) = 0 := rsvField_append _ _ _

end Sys2Proof
end

