-- ==== Sys2Proof/Laws/Exec.lean ====
section
/-! SUPPORT. What performing a command can do to a state, once for all commands. -/

namespace Sys2Proof.Machine

/-- Every command but SOFT_RESET completes with what its pseudocode wrote, or records an error on the state before it
(70_reset_and_hazards.md R275, 60_exceptions.md R232); SOFT_RESET resets (44_control.md R212). -/
theorem exec_cases (i : Instr) (s : State) :
    (i = .softReset ∧ exec i s = .next s.softReset) ∨
      (i ≠ .softReset ∧ ∃ e, exec i s = .next (s.raise e)) ∨
      (i ≠ .softReset ∧ ∃ c at0 b k, exec i s = .next
          ({ s with crcState := c, outMem := s.outMem.writeBytes at0 b, outLen := BitVec.ofNat 32 k } : State).complete ∧
        ((b = [] ∧ k = s.outLen.toNat) ∨ (at0 + b.length = k ∧ k ≤ s.params.outCap) ∨ (b = [] ∧ k = 0))) := by
  have keep (c : Word) : ({ s with crcState := c } : State) =
      { s with crcState := c, outMem := s.outMem.writeBytes 0 [], outLen := BitVec.ofNat 32 s.outLen.toNat } := by
    simp [Memory.writeBytes]
  have chunkCase {i : Instr} (hi : i ≠ .softReset) (t d : Bytes) (h : exec i s = .next (s.finish (emitChunk t d s))) :
      (i = .softReset ∧ exec i s = .next s.softReset) ∨
      (i ≠ .softReset ∧ ∃ e, exec i s = .next (s.raise e)) ∨
      (i ≠ .softReset ∧ ∃ c at0 b k, exec i s = .next
          ({ s with crcState := c, outMem := s.outMem.writeBytes at0 b, outLen := BitVec.ofNat 32 k } : State).complete ∧
        ((b = [] ∧ k = s.outLen.toNat) ∨ (at0 + b.length = k ∧ k ≤ s.params.outCap) ∨ (b = [] ∧ k = 0))) := by
    rcases emitChunk_cases t d s with ⟨_, e⟩ | ⟨hl, e⟩
    · exact .inr (.inl ⟨hi, _, by rw [h, e]; rfl⟩)
    · exact .inr (.inr ⟨hi, _, _, _, _, by rw [h, e]; rfl, .inr (.inl ⟨rfl, hl⟩)⟩)
  cases i with
  | nop =>
    exact .inr (.inr ⟨by simp, s.crcState, 0, [], _, by simp only [exec, execNop, State.finish_ok]; rw [← keep], .inl ⟨rfl, rfl⟩⟩)
  | crcInit => exact .inr (.inr ⟨by simp, _, 0, [], _, by simp only [exec, execCrcInit, State.finish_ok]; rw [keep], .inl ⟨rfl, rfl⟩⟩)
  | crcByte b => exact .inr (.inr ⟨by simp, _, 0, [], _, by simp only [exec, execCrcByte, State.finish_ok]; rw [keep], .inl ⟨rfl, rfl⟩⟩)
  | crcBuf =>
    rcases rawPayload_cases s with ⟨_, e⟩ | ⟨_, e⟩
    · exact .inr (.inl ⟨by simp, _, by simp only [exec, execCrcBuf, crcBufBody, e]; rfl⟩)
    · exact .inr (.inr ⟨by simp, _, 0, [], _, by simp only [exec, execCrcBuf, crcBufBody, e, State.finish_ok]; rw [keep], .inl ⟨rfl, rfl⟩⟩)
  | emitSig =>
    rcases outAppend_cases sig s with ⟨_, e⟩ | ⟨hl, e⟩
    · exact .inr (.inl ⟨by simp, _, by simp only [exec, execEmitSig, e]; rfl⟩)
    · exact .inr (.inr ⟨by simp, s.crcState, _, _, _, by simp only [exec, execEmitSig, e]; rfl, .inr (.inl ⟨rfl, hl⟩)⟩)
  | emitIhdr =>
    by_cases h : dimOk s.width s.height = false
    · exact .inr (.inl ⟨by simp, .badDim, by simp [exec, execEmitIhdr, emitIhdrBody, h]⟩)
    · exact chunkCase (by simp) tagIHDR (ihdrData s.width s.height) (by simp [exec, execEmitIhdr, emitIhdrBody, h])
  | emitIdat =>
    rcases h : s.idatPayload with e | z
    · exact .inr (.inl ⟨by simp, e, by simp [exec, execEmitIdat, emitIdatBody, h]⟩)
    · exact chunkCase (by simp) tagIDAT z (by simp [exec, execEmitIdat, emitIdatBody, h])
  | emitIend => exact chunkCase (by simp) tagIEND [] rfl
  | emitChunk =>
    rcases h : s.rawPayload with e | z
    · exact .inr (.inl ⟨by simp, e, by simp [exec, execEmitChunk, emitChunkBody, h]⟩)
    · exact chunkCase (by simp) (typeTag s.chunkType) z (by simp [exec, execEmitChunk, emitChunkBody, h])
  | encode =>
    rcases h : s.idatPayload with e | z
    · exact .inr (.inl ⟨by simp, e, by simp [exec, execEncode, encodeBody, h]⟩)
    · rcases outReplace_cases (pngStream s.width s.height z) s with ⟨_, e⟩ | ⟨hl, e⟩
      · exact .inr (.inl ⟨by simp, .outOvf, by simp [exec, execEncode, encodeBody, h, e]⟩)
      · exact .inr (.inr ⟨by simp, _, _, _, _, by simp only [exec, execEncode, encodeBody, h, e]; rfl, .inr (.inl ⟨by simp, hl⟩)⟩)
  | outClear =>
    exact .inr (.inr ⟨by simp, s.crcState, 0, [], 0, by simp [exec, execOutClear, Memory.writeBytes], .inr (.inr ⟨rfl, rfl⟩)⟩)
  | softReset => exact .inl ⟨rfl, rfl⟩

/-- Every command answers a next state: no command faults and none is refused. -/
theorem exec_next (i : Instr) (s : State) : ∃ t, exec i s = .next t := by
  rcases exec_cases i s with ⟨_, h⟩ | ⟨_, _, h⟩ | ⟨_, _, _, _, _, h, _⟩
  all_goals exact ⟨_, h⟩

end Sys2Proof.Machine
end

