-- ==== Sys2Proof/Laws/PerInstr.lean ====
section
/-! SUPPORT. Per command: its word has its opcode, its operand and zero reserved bits, and is legal in the match and
mask form (30_encoding.md R90, R93, R94). -/

namespace Sys2Proof.Laws.Encoding

/-- The fields of the word of `i` are what 30_encoding.md R94 lists, and the word is legal. -/
def Statement (i : Instr) : Prop :=
  opcField (encode i) = opcode i ∧ immField (encode i) = immOf i ∧ rsvField (encode i) = 0 ∧ wordLegal (encode i) = true

/-- The field part holds of every command. -/
theorem fields (i : Instr) (h : wordLegal (encode i) = true) : Statement i :=
  ⟨opcField_encode i, immField_encode i, rsvField_encode i, h⟩

theorem nop : Statement .nop := fields _ (by decide)
theorem crcInit : Statement .crcInit := fields _ (by decide)
theorem crcByte (b : Byte) : Statement (.crcByte b) := fields _ (by revert b; decide +kernel)
theorem crcBuf : Statement .crcBuf := fields _ (by decide)
theorem emitSig : Statement .emitSig := fields _ (by decide)
theorem emitIhdr : Statement .emitIhdr := fields _ (by decide)
theorem emitIdat : Statement .emitIdat := fields _ (by decide)
theorem emitIend : Statement .emitIend := fields _ (by decide)
theorem emitChunk : Statement .emitChunk := fields _ (by decide)
theorem encode : Statement .encode := fields _ (by decide)
theorem outClear : Statement .outClear := fields _ (by decide)
theorem softReset : Statement .softReset := fields _ (by decide)

end Sys2Proof.Laws.Encoding
end

