-- ==== Sys2Proof/Laws/Step.lean ====
section
/-! SUPPORT. What one step can do, once, and where a register access lands. -/

namespace Sys2Proof.Machine

/-- A width-4 access at a register's offset reaches that register, read or write. -/
theorem target_regOffset (p : Params) (w : Bool) (r : Reg) : target p w r.offset 4 = some (.reg r.offset.toNat) := by
  cases r <;> rfl

@[simp] theorem Reg.at_offset (r : Reg) : Reg.at r.offset.toNat = some r := by cases r <;> rfl

/-- A step with no event left, or the ENGINE's turn next, is a turn of the ENGINE. -/
theorem step_engine {s : State} (h : s.script = [] ∨ s.script.head? = some .engine) : step s = engineTurn s.advance := by
  rcases s with ⟨_, _, _, _, _, _, _, _, _, _, _, _, _, _, _, _, _, _, script, _⟩
  cases script with
  | nil => rfl
  | cons e r =>
    simp only [List.head?_cons, Option.some.injEq, reduceCtorEq, false_or] at h
    subst h; rfl

/-- A step with a host access next is that access. -/
theorem step_host {s : State} {a : Access} {r : List Event} (h : s.script = .host a :: r) :
    step s = hostAccess a { s with script := r } := by
  rcases s with ⟨_, _, _, _, _, _, _, _, _, _, _, _, _, _, _, _, _, _, script, _⟩
  subst h; rfl

/-- A step with a hardware reset next is that reset. -/
theorem step_reset {s : State} {r : List Event} (h : s.script = .reset :: r) :
    step s = .next ({ s with script := r } : State).hardReset := by
  rcases s with ⟨_, _, _, _, _, _, _, _, _, _, _, _, _, _, _, _, _, _, script, _⟩
  subst h; rfl

/-- A host write to a register, as a step. -/
theorem step_regWrite {s : State} {g : Reg} {v : Word} {r : List Event}
    (h : s.script = .host (.write g.offset 4 v) :: r) :
    step s = .next (({ s with script := r, reply := some .ok } : State).regWrite v g) := by
  rw [step_host h]
  simp [hostAccess, target_regOffset, writeTarget]

/-- A host read of a register, as a step. -/
theorem step_regRead {s : State} {g : Reg} {r : List Event} (h : s.script = .host (.read g.offset 4) :: r)
    (hv : s.busy = false ∨ g.volatile = false) :
    step s = .next { s with script := r, reply := some (.data (s.regView g)) } := by
  rw [step_host h]
  simp only [hostAccess, target_regOffset, readTarget, Reg.at_offset]
  have : ((s.busy && g.volatile) = true) = False := by rcases hv with h | h <;> simp [h]
  simp only [this, if_false]
  cases g <;> rfl

/-- Everything a turn of the ENGINE can do: nothing while idle, BAD_CMD for an illegal word, else the command. -/
theorem engineTurn_cases (s : State) :
    (s.busy = false ∧ engineTurn s = .next s) ∨
      (s.busy = true ∧ (∀ i, decode s.pending ≠ .ok i) ∧ engineTurn s = .next (s.raise .badCmd)) ∨
      (s.busy = true ∧ ∃ i, decode s.pending = .ok i ∧ engineTurn s = exec i s) := by
  cases hb : s.busy
  · exact .inl ⟨rfl, by simp [engineTurn, hb]⟩
  · rcases hd : decode s.pending with e | i
    · exact .inr (.inl ⟨rfl, by simp, by simp [engineTurn, hb, performPending, hd]⟩)
    · exact .inr (.inr ⟨rfl, i, rfl, by simp [engineTurn, hb, performPending, hd]⟩)

/-- The ENGINE's turn with a legal word pending. -/
theorem engineTurn_decoded {s : State} {i : Instr} (hb : s.busy = true) (hd : decode s.pending = .ok i) :
    engineTurn s = exec i s := by
  simp [engineTurn, hb, performPending, hd]

/-- Everything a host access can do when it is no bus error. -/
theorem hostAccess_next {a : Access} {s t : State} (h : hostAccess a s = .next t) :
    (∃ off n v, a = .read off n ∧ (t = { s with reply := some (.data v) } ∨
        (s.busy = true ∧ t = { s with draws := s.draws + 1, reply := some (.data v) }))) ∨
      ∃ off n v g, a = .write off n v ∧ target s.params true off n = some g ∧
        t = writeTarget { s with reply := some .ok } n v g := by
  cases a with
  | read off n =>
    simp only [hostAccess] at h
    split at h
    · cases h
    · rename_i g _
      cases h
      rcases readTarget_state s n g with e | ⟨hb, e⟩
      · exact .inl ⟨off, n, _, rfl, .inl (by rw [e])⟩
      · exact .inl ⟨off, n, _, rfl, .inr ⟨hb, by rw [e]⟩⟩
  | write off n v =>
    simp only [hostAccess] at h
    split at h
    · cases h
    · cases h
      exact .inr ⟨off, n, v, _, rfl, ‹_›, rfl⟩

/-- Everything a step that answers a next state can be. -/
theorem step_next {s t : State} (h : step s = .next t) :
    (engineTurn s.advance = .next t ∧ (s.script = [] ∨ s.script.head? = some .engine)) ∨
      (∃ a r, s.script = .host a :: r ∧ hostAccess a { s with script := r } = .next t) ∨
      ∃ r, s.script = .reset :: r ∧ t = ({ s with script := r } : State).hardReset := by
  rcases hs : s.script with _ | ⟨e, r⟩
  · exact .inl ⟨by rw [← h, step_engine (.inl hs)], .inl rfl⟩
  · cases e with
    | host a => exact .inr (.inl ⟨a, r, rfl, by rw [← h, step_host hs]⟩)
    | engine => exact .inl ⟨by rw [← h, step_engine (.inr (by rw [hs]; rfl))], .inr rfl⟩
    | reset =>
      rw [step_reset hs] at h
      cases h
      exact .inr (.inr ⟨r, rfl, rfl⟩)

/-- A step takes the first event off the script, if there is one. -/
theorem step_script {s t : State} (h : step s = .next t) : t.script = s.script.tail := by
  rcases step_next h with ⟨e, _⟩ | ⟨a, r, hs, e⟩ | ⟨r, hs, rfl⟩
  · rcases engineTurn_cases s.advance with ⟨_, e'⟩ | ⟨_, _, e'⟩ | ⟨_, i, _, e'⟩ <;> rw [e'] at e
    · cases e; rfl
    · cases e; rfl
    · rcases exec_cases i s.advance with ⟨_, e2⟩ | ⟨_, _, e2⟩ | ⟨_, _, _, _, _, e2, _⟩ <;> rw [e2] at e <;> cases e <;> rfl
  · rcases hostAccess_next e with ⟨_, _, _, _, rfl | ⟨_, rfl⟩⟩ | ⟨_, n, v, g, _, _, rfl⟩
    · rw [hs]; rfl
    · rw [hs]; rfl
    · rw [hs, writeTarget_script]; rfl
  · rw [hs]; rfl

/-- An access that reaches a register offset is of width 4 at that offset. -/
theorem target_reg_access {p : Params} {w : Bool} {off : Offset} {n : Nat} {r : Reg}
    (h : target p w off n = some (.reg r.offset.toNat)) : n = 4 ∧ off = r.offset := by
  rcases (target_bounds h).2 with ⟨hn, e, _⟩ | ⟨e, _⟩ | ⟨_, e, _⟩
  · exact ⟨hn, (BitVec.eq_of_toNat_eq (Target.reg.inj e)).symm⟩
  · nomatch e
  · nomatch e

/-- Everything a step can do to a state when the event next, if any, is no SOFT_RESET write and no reset: the ENGINE idles
or ends its command; or the host's access leaves `q`, which is `s` with the answer, or sets DROP, or writes while idle, or
writes STATUS, INT_EN or CMD. -/
theorem step_cases {s t : State} (ht : step s = .next t) (hc : ∀ e ∈ s.script.head?, Event.clearsError e = false) :
    (s.busy = false ∧ t = s.advance ∧ (s.script = [] ∨ s.script.head? = some .engine)) ∨
    (s.busy = true ∧ (s.script = [] ∨ s.script.head? = some .engine) ∧
      ((∃ e, t = s.advance.raise e) ∨ (decode s.pending = .ok .softReset ∧ t = s.advance.softReset) ∨
        ∃ c m l, t = ({ s.advance with crcState := c, outMem := m, outLen := l } : State).complete)) ∨
    ∃ a r, s.script = .host a :: r ∧ ∃ q : State, (∃ rep d, q = { s with script := r, reply := rep, draws := d }) ∧
      (t = q ∨ (s.busy = true ∧ t = q.dropped) ∨
        (s.busy = false ∧ ∃ a b c d m,
          t = { q with width := a, height := b, rawLen := c, chunkType := d, rawMem := m }) ∨
        (∃ v : Word, a = .write Reg.status.offset 4 v ∧ t = q.statusWrite v) ∨
        (∃ v : Word, a = .write Reg.intEn.offset 4 v ∧ t = q.intEnWrite v) ∨
        ∃ w : Word, a = .write Reg.cmd.offset 4 w ∧ w ≠ 0x000000FF#32 ∧
          ((s.busy = true ∨ s.err = true) ∧ t = q.dropped ∨ s.busy = false ∧ s.err = false ∧ t = q.accept w)) := by
  rcases step_next ht with ⟨e, hs⟩ | ⟨a, r, hs, e⟩ | ⟨r, hs, rfl⟩
  · rcases engineTurn_cases s.advance with ⟨hb, e'⟩ | ⟨hb, _, e'⟩ | ⟨hb, i, hd, e'⟩ <;> rw [e'] at e
    · cases e; exact .inl ⟨hb, rfl, hs⟩
    · cases e; exact .inr (.inl ⟨hb, hs, .inl ⟨_, rfl⟩⟩)
    · rcases exec_cases i s.advance with ⟨hi, e2⟩ | ⟨_, _, e2⟩ | ⟨_, _, _, _, _, e2, _⟩ <;> rw [e2] at e <;> cases e
      · exact .inr (.inl ⟨hb, hs, .inr (.inl ⟨hi ▸ hd, rfl⟩)⟩)
      · exact .inr (.inl ⟨hb, hs, .inl ⟨_, rfl⟩⟩)
      · exact .inr (.inl ⟨hb, hs, .inr (.inr ⟨_, _, _, rfl⟩)⟩)
  · refine .inr (.inr ⟨a, r, hs, ?_⟩)
    have hc' := hc (.host a) (by rw [hs]; rfl)
    rcases hostAccess_next e with ⟨off, n, v, _, rfl | ⟨_, rfl⟩⟩ | ⟨off, n, v, g, rfl, hg, rfl⟩
    · exact ⟨_, ⟨_, s.draws, rfl⟩, .inl rfl⟩
    · exact ⟨_, ⟨_, _, rfl⟩, .inl rfl⟩
    · refine ⟨{ s with script := r, reply := some .ok }, ⟨_, s.draws, rfl⟩, ?_⟩
      have hqb : ({ s with script := r, reply := some .ok } : State).busy = s.busy := rfl
      have hqe : ({ s with script := r, reply := some .ok } : State).err = s.err := rfl
      generalize ({ s with script := r, reply := some .ok } : State) = q at *
      rw [← hqb, ← hqe]
      rcases writeTarget_cases q n v g with e | e | ⟨hb, a, b, c, d, e⟩ | ⟨hb, _, _, e⟩ | ⟨h8, ew⟩ | ⟨h12, ew⟩ | ⟨h4, ew⟩
      · exact .inl e
      · exact .inr (.inl e)
      · exact .inr (.inr (.inl ⟨hb, a, b, c, d, q.rawMem, e⟩))
      · exact .inr (.inr (.inl ⟨hb, q.width, q.height, q.rawLen, q.chunkType, _, e⟩))
      · obtain ⟨rfl, rfl⟩ := target_reg_access (r := .status) (hg.trans (congrArg some h8))
        exact .inr (.inr (.inr (.inl ⟨v, rfl, ew⟩)))
      · obtain ⟨rfl, rfl⟩ := target_reg_access (r := .intEn) (hg.trans (congrArg some h12))
        exact .inr (.inr (.inr (.inr (.inl ⟨v, rfl, ew⟩))))
      · obtain ⟨rfl, rfl⟩ := target_reg_access (r := .cmd) (hg.trans (congrArg some h4))
        refine .inr (.inr (.inr (.inr (.inr ⟨v, rfl, ?_⟩))))
        have hv : v ≠ 0x000000FF#32 := by
          rintro rfl
          exact absurd hc' (by decide)
        rcases State.cmdWrite_cases v q with ⟨h, _⟩ | ⟨_, hh, e'⟩ | ⟨_, h1, h2, e'⟩
        · exact absurd h hv
        · exact ⟨hv, .inl ⟨hh, ew.trans e'⟩⟩
        · exact ⟨hv, .inr ⟨h1, h2, ew.trans e'⟩⟩
  · exact absurd (hc .reset (by rw [hs]; rfl)) (by decide)

end Sys2Proof.Machine
end

