-- ==== Sys2Proof/Laws/Run.lean ====
section
/-! SUPPORT. Runs, a step at a time. -/

namespace Sys2Proof.Machine

@[simp] theorem safeRun_zero {s t : State} : SafeRun 0 s t ↔ s = t := by
  constructor
  · intro h; cases h; rfl
  · rintro rfl; rfl

/-- A run of `k + 1` steps is one step and a run of `k`. -/
theorem safeRun_succ {k : Nat} {s t : State} : SafeRun (k + 1) s t ↔ ∃ u, step s = .next u ∧ SafeRun k u t := by
  simp only [SafeRun, Host.Core.run]
  rcases h : step s with u | f | f
  · rw [show Sys2Proof.core.step s = .next u from h]
    exact ⟨fun e => ⟨u, rfl, e⟩, by rintro ⟨_, hu, e⟩; cases hu; exact e⟩
  · rw [show Sys2Proof.core.step s = .fault f from h]
    exact ⟨fun e => (Host.Outcome.noConfusion rfl rfl rfl (heq_of_eq e)), by rintro ⟨_, hu, _⟩; cases hu⟩
  · rw [show Sys2Proof.core.step s = .refused f from h]
    exact ⟨fun e => (Host.Outcome.noConfusion rfl rfl rfl (heq_of_eq e)), by rintro ⟨_, hu, _⟩; cases hu⟩

/-- A run answers one state. -/
theorem safeRun_unique {k : Nat} {s t u : State} (h : SafeRun k s t) (h' : SafeRun k s u) : t = u := by
  have e := (show Sys2Proof.core.run k s = .next t from h).symm.trans h'
  cases e; rfl

/-- Runs compose. -/
theorem safeRun_add {j k : Nat} {s u t : State} (h : SafeRun j s u) (h' : SafeRun k u t) : SafeRun (j + k) s t := by
  induction j generalizing s with
  | zero =>
    rw [safeRun_zero] at h
    subst h
    rwa [Nat.zero_add]
  | succ j ih =>
    obtain ⟨v, hv, h⟩ := safeRun_succ.1 h
    rw [Nat.succ_add]
    exact safeRun_succ.2 ⟨v, hv, ih h⟩

@[simp] theorem Event.isHost_host (a : Access) : (Event.host a).isHost = true := rfl
@[simp] theorem Event.isHost_engine : Event.engine.isHost = false := rfl
@[simp] theorem Event.isHost_reset : Event.reset.isHost = false := rfl

/-- A run is not over while an access of the host is next. -/
theorem runOver_host {s : State} {a : Access} {r : List Event} (h : s.script = .host a :: r) : s.runOver = false := by
  simp [State.runOver, h]

/-- A run is not over while BUSY = 1. -/
theorem runOver_busy {s : State} (h : s.busy = true) : s.runOver = false := by simp [State.runOver, h]

/-- A run is over once BUSY = 0 and no event is left. -/
theorem runOver_nil {s : State} (h : s.script = []) (hb : s.busy = false) : s.runOver = true := by
  simp [State.runOver, h, hb]

end Sys2Proof.Machine
end

