-- ==== Sys2Proof/Tests/Slice0.lean ====
section
/-! SUPPORT. The model's own tests. A vector number is one of 95_test_vectors.md; every expected value is written out
from the spec. Then a witness for the hypotheses of every obligation. -/

namespace Sys2Proof.Tests

open Sys2Proof Sys2Proof.Machine

-- One theorem after another: many kernel evaluations at once would each hold a thread.
set_option Elab.async false

/-! ## Well-formedness: each check refuses an ill-formed term -/

theorem test_wordLegal_refuses_reserved_opcode : wordLegal 0x00000004 = false ∧ wordLegal 0x00000015 = false := by decide

theorem test_wordLegal_refuses_reserved_field : wordLegal 0x00010001 = false ∧ wordLegal 0x80000002 = false := by decide

theorem test_wordLegal_refuses_immediate : wordLegal 0x000001FF = false ∧ wordLegal 0x00000120 = false := by decide

theorem test_capOk_refuses : capOk 5 = false ∧ capOk 0 = false ∧ capOk 0x400004 = false := by decide

theorem test_paramsWf_refuses : Params.wf ⟨6, 64, .stored⟩ = false ∧ Params.wf ⟨64, 0, .stored⟩ = false := by decide

theorem test_paramsWf_bounds : Params.wf ⟨4, 0x400000, .stored⟩ = true ∧ Params.default.wf = true := by decide

theorem test_assembler_refuses_256 : asmOperand 256 = none ∧ asmOperand 255 = some 0xFF := by decide

/-! ## Decoding: words written out bit by bit from 30_encoding.md R90 and R94, RSV, IMM8 and OPC from the top down -/

theorem test_decode_control :
    decode 0b0000000000000000_00000000_00000000 = .ok .nop ∧
      decode 0b0000000000000000_00000000_00110000 = .ok .outClear ∧
      decode 0b0000000000000000_00000000_11111111 = .ok .softReset := by decide

theorem test_decode_crc :
    decode 0b0000000000000000_00000000_00000001 = .ok .crcInit ∧
      decode 0b0000000000000000_01001001_00000010 = .ok (.crcByte 0x49) ∧
      decode 0b0000000000000000_11111111_00000010 = .ok (.crcByte 0xFF) ∧
      decode 0b0000000000000000_00000000_00000011 = .ok .crcBuf := by decide

theorem test_decode_framer :
    decode 0b0000000000000000_00000000_00010000 = .ok .emitSig ∧
      decode 0b0000000000000000_00000000_00010001 = .ok .emitIhdr ∧
      decode 0b0000000000000000_00000000_00010011 = .ok .emitIend ∧
      decode 0b0000000000000000_00000000_00010100 = .ok .emitChunk := by decide

theorem test_decode_deflate_encode :
    decode 0b0000000000000000_00000000_00010010 = .ok .emitIdat ∧
      decode 0b0000000000000000_00000000_00100000 = .ok .encode := by decide

theorem test_decode_rejects_by_name :
    decode 0x00010001 = .error .reservedField ∧ decode 0x000001FF = .error .immediateField ∧
      decode 0x00000004 = .error .reservedOpcode := by decide

theorem test_decodeTableWord :
    decodeTableWord 32 0x00004902 = some (.crcByte 0x49) ∧ decodeTableWord 32 0x00010001 = none ∧
      decodeTableWord 8 0x20 = some .encode := by decide

/-! ## Helpers -/

/-- An outcome is a next state that passes a check. -/
def isNext (o : Host.Outcome State Fault Refusal) (p : State → Bool) : Bool :=
  match o with
  | .next t => p t
  | .fault _ => false
  | .refused _ => false

/-- An outcome is this fault. -/
def isFault (o : Host.Outcome State Fault Refusal) (f : Fault) : Bool :=
  match o with
  | .next _ => false
  | .fault g => decide (g = f)
  | .refused _ => false

theorem isNext_elim {o : Host.Outcome State Fault Refusal} {p : State → Bool} (h : isNext o p = true) :
    ∃ t, o = .next t ∧ p t = true := by
  cases o with
  | next t => exact ⟨t, rfl, h⟩
  | fault f => cases h
  | refused f => cases h

/-- The reset state of the vectors: RAW_CAP = OUT_CAP = 65536, COMPRESS = STORED. -/
def vec : State := State.resetWith ⟨65536, 65536, .stored⟩ 0

/-- Bytes in RAW_MEM from index 0, and RAW_LEN their number. -/
def withRaw (b : Bytes) (s : State) : State :=
  { s with
    rawMem := s.rawMem.writeBytes 0 b
    rawLen := BitVec.ofNat 32 b.length }

/-- The inputs of V36 and V42: a 1 × 1 image. -/
def pixel : State := withRaw [0x00, 0xF9, 0xF4, 0xE8, 0x05] { vec with width := 1, height := 1 }

/-- `s` with a command word accepted and the ENGINE's turn next. -/
def pendingIn (w : Word) (s : State) : State := (s.accept w).withScript [.engine]

/-- `s` with one host access next. -/
def hostNext (a : Access) (s : State) : State := s.withScript [.host a]

/-! ## The CRC function (V1 to V11) and the table -/

theorem test_crc_empty_and_a : crc32 [] = 0x00000000 ∧ crc32 [0x61] = 0xE8B7BE43 := by decide +kernel

theorem test_crc_check_value :
    crc32 [0x31, 0x32, 0x33, 0x34, 0x35, 0x36, 0x37, 0x38, 0x39] = 0xCBF43926 := by decide +kernel

theorem test_crc_ones : crcRun 0xFFFFFFFF [0xFF, 0xFF, 0xFF, 0xFF] = 0 ∧ crcStep 0xFFFFFFFF 0x80 = 0xC0459352 := by
  decide +kernel

theorem test_crc_ihdr : crcRun 0xFFFFFFFF (tagIHDR ++ ihdrData 1 1) = 0xE0EA3B76 := by decide +kernel

/-! ## The commands, one or two steps each -/

/-- V48. -/
theorem test_nop : isNext (step (pendingIn 0x00000000 vec)) (fun t => t.statusWord == 0x00000002) = true := by decide +kernel

/-- V12. -/
theorem test_crcInit : isNext (exec .crcInit { vec with crcState := 0x12345678 })
    (fun t => t.crcState == 0xFFFFFFFF && t.regView .crcResult == 0 && t.statusWord == 2) = true := by decide +kernel

/-- V13. -/
theorem test_crcByte : isNext (step (pendingIn 0x00004902 vec)) (fun t => t.crcState == 0x22FDE946) = true := by
  decide +kernel

/-- V14. -/
theorem test_crcByte_zero : isNext (exec (.crcByte 0x00) { vec with crcState := 0 }) (fun t => t.crcState == 0) = true := by
  decide +kernel

/-- V15. -/
theorem test_crcBuf : isNext (exec .crcBuf (withRaw [0x31, 0x32, 0x33, 0x34, 0x35, 0x36, 0x37, 0x38, 0x39] vec))
    (fun t => t.crcState == 0x340BC6D9 && t.regView .crcResult == 0xCBF43926) = true := by decide +kernel

/-- V17. -/
theorem test_crcBuf_range : isNext (exec .crcBuf { vec with rawLen := 65537 })
    (fun t => t.statusWord == 0x00000306 && t.crcState == 0xFFFFFFFF) = true := by decide +kernel

/-- V20. -/
theorem test_emitSig : isNext (exec .emitSig vec)
    (fun t => t.outStream == [0x89, 0x50, 0x4E, 0x47, 0x0D, 0x0A, 0x1A, 0x0A] && t.outLen == 8) = true := by decide +kernel

/-- V28. -/
theorem test_emitSig_overflow : isNext (exec .emitSig { vec with outLen := 65530 })
    (fun t => t.statusWord == 0x00000606 && t.outLen == 65530) = true := by decide +kernel

/-- V21: the chunk lands at the old OUT_LEN. -/
theorem test_emitIhdr : isNext (exec .emitIhdr { vec with outLen := 8 })
    (fun t => t.outMem.readBytes 8 25 == [0x00, 0x00, 0x00, 0x0D, 0x49, 0x48, 0x44, 0x52, 0x00, 0x00, 0x00, 0x64, 0x00, 0x00,
      0x00, 0x64, 0x08, 0x06, 0x00, 0x00, 0x00, 0x70, 0xE2, 0x95, 0x54] && t.outLen == 33 && t.crcState == 0x8F1D6AAB) =
    true := by decide +kernel

/-- V24. -/
theorem test_emitIhdr_negative : isNext (exec .emitIhdr { vec with width := 0x80000000, height := 1 })
    (fun t => t.statusWord == 0x00000206 && t.outLen == 0) = true := by decide +kernel

/-- V36. -/
theorem test_emitIdat : isNext (exec .emitIdat pixel)
    (fun t => t.outStream == [0x00, 0x00, 0x00, 0x10, 0x49, 0x44, 0x41, 0x54, 0x78, 0x01, 0x01, 0x05, 0x00, 0xFA, 0xFF,
      0x00, 0xF9, 0xF4, 0xE8, 0x05, 0x08, 0x9A, 0x02, 0xDB, 0x41, 0x51, 0x1C, 0x66] && t.crcState == 0xBEAEE399) = true := by
  decide +kernel

/-- V33: RANGE is checked before BAD_LEN. -/
theorem test_emitIdat_range : isNext (exec .emitIdat { vec with rawLen := 70000 }) (fun t => t.statusWord == 0x00000306) =
    true := by decide +kernel

/-- V25. -/
theorem test_emitIend : isNext (exec .emitIend { vec with crcState := 0 })
    (fun t => t.outStream == [0x00, 0x00, 0x00, 0x00, 0x49, 0x45, 0x4E, 0x44, 0xAE, 0x42, 0x60, 0x82] && t.outLen == 12 &&
      t.crcState == 0x51BD9F7D) = true := by decide +kernel

/-- V26. -/
theorem test_emitChunk : isNext (exec .emitChunk (withRaw [0x68, 0x69] { vec with chunkType := 0x61626364 }))
    (fun t => t.outStream == [0x00, 0x00, 0x00, 0x02, 0x61, 0x62, 0x63, 0x64, 0x68, 0x69, 0x6E, 0x9F, 0x5A, 0x33] &&
      t.regView .crcResult == 0x6E9F5A33) = true := by decide +kernel

/-- V27. -/
theorem test_emitChunk_empty : isNext (exec .emitChunk vec)
    (fun t => t.outStream == [0x00, 0x00, 0x00, 0x00, 0x00, 0x00, 0x00, 0x00, 0x21, 0x44, 0xDF, 0x1C]) = true := by
  decide +kernel

/-- V42 and V46: from offset 0 whatever OUT_LEN was. -/
theorem test_encode : isNext (exec .encode { pixel with outLen := 100 })
    (fun t => t.outStream == [0x89, 0x50, 0x4E, 0x47, 0x0D, 0x0A, 0x1A, 0x0A, 0x00, 0x00, 0x00, 0x0D, 0x49, 0x48, 0x44, 0x52,
      0x00, 0x00, 0x00, 0x01, 0x00, 0x00, 0x00, 0x01, 0x08, 0x06, 0x00, 0x00, 0x00, 0x1F, 0x15, 0xC4, 0x89, 0x00, 0x00,
      0x00, 0x10, 0x49, 0x44, 0x41, 0x54, 0x78, 0x01, 0x01, 0x05, 0x00, 0xFA, 0xFF, 0x00, 0xF9, 0xF4, 0xE8, 0x05, 0x08,
      0x9A, 0x02, 0xDB, 0x41, 0x51, 0x1C, 0x66, 0x00, 0x00, 0x00, 0x00, 0x49, 0x45, 0x4E, 0x44, 0xAE, 0x42, 0x60, 0x82] &&
      t.outLen == 73 && t.crcState == 0x51BD9F7D) = true := by decide +kernel

/-- V47: BAD_DIM, not BAD_LEN. -/
theorem test_encode_badDim : isNext (exec .encode { vec with width := 0, rawLen := 7 })
    (fun t => t.statusWord == 0x00000206) = true := by decide +kernel

/-- V49. -/
theorem test_outClear : isNext (step (pendingIn 0x00000030 { vec with outLen := 73 }))
    (fun t => t.outLen == 0 && t.outMem == vec.outMem) = true := by decide +kernel

/-- V51. -/
theorem test_softReset : isNext (step (hostNext (.write 0x004 4 0x000000FF)
      { vec with done := true, err := true, drop := true, errCode := 4, crcState := 7, outLen := 9, width := 5 }))
    (fun t => t.statusWord == 0 && t.crcState == 0xFFFFFFFF && t.outLen == 0 && t.width == 5) = true := by decide +kernel

/-- V65 and V19: accepted, and completing with BAD_CMD. -/
theorem test_illegal_words :
    isNext (step (pendingIn 0x000001FF vec)) (fun t => t.statusWord == 0x00000106) = true ∧
      isNext (step (pendingIn 0x00010001 vec)) (fun t => t.statusWord == 0x00000106 && t.crcState == 0xFFFFFFFF) = true := by
  decide +kernel

/-- The word the interface stores runs next, SOFT_RESET's too (log 13). -/
theorem test_withFetchWord :
    isNext (step (State.reset.withFetchWord 32 0x00000010)) (fun t => t.outLen == 8) = true ∧
      isNext (step (({ vec with outLen := 3 } : State).withFetchWord 32 0x000000FF)) (fun t => t.outLen == 0) = true := by
  decide +kernel

/-! ## Compression -/

/-- V34, V35, V39. -/
theorem test_stored :
    stored [] = [0x78, 0x01, 0x01, 0x00, 0x00, 0xFF, 0xFF, 0x00, 0x00, 0x00, 0x01] ∧
      stored [0x00, 0xF9, 0xF4, 0xE8, 0x05] =
        [0x78, 0x01, 0x01, 0x05, 0x00, 0xFA, 0xFF, 0x00, 0xF9, 0xF4, 0xE8, 0x05, 0x08, 0x9A, 0x02, 0xDB] ∧
      adler32 [0x00, 0x01, 0x02, 0x03, 0x04, 0x05, 0x06, 0x07, 0x08] = 0x00810025 := by decide +kernel

/-- Streams with fixed codes, made by a standard zlib library (PRESUMED, log 5): the empty string and ten bytes 61. -/
theorem test_decompress_fixed :
    Inflate.decompress [0x78, 0x9C, 0x03, 0x00, 0x00, 0x00, 0x00, 0x01] = some [] ∧
      Inflate.decompress [0x78, 0x9C, 0x4B, 0x4C, 0x84, 0x01, 0x00, 0x14, 0xE1, 0x03, 0xCB] = some (List.replicate 10 0x61) := by
  decide +kernel

/-- A wrong checksum and a truncated stream are no conforming streams. -/
theorem test_decompress_refuses :
    Inflate.decompress [0x78, 0x9C, 0x4B, 0x4C, 0x84, 0x01, 0x00, 0x14, 0xE1, 0x03, 0xCC] = none ∧
      Inflate.decompress [0x78, 0x9C, 0x4B, 0x4C, 0x84, 0x01, 0x00] = none ∧ Inflate.decompress [] = none := by decide +kernel

/-- A stream with dynamic codes, made by a standard zlib library (PRESUMED, log 5). -/
theorem test_decompress_dynamic :
    Inflate.decompress
      [0x78, 0xDA, 0xD5, 0xCD, 0x81, 0x01, 0xC3, 0x20, 0x08, 0x00, 0x30, 0x14, 0x51, 0x84, 0x69, 0xA5, 0x20, 0xFF, 0x9F,
       0xDA, 0x3B, 0x96, 0x07, 0x02, 0xA2, 0x38, 0x77, 0x6D, 0xD1, 0x24, 0xAB, 0x37, 0x2D, 0x04, 0xD3, 0x78, 0x4D, 0xA7,
       0x40, 0xD0, 0xBB, 0xAF, 0xB3, 0xAF, 0x1B, 0x92, 0x86, 0x68, 0x03, 0xD7, 0xEE, 0x61, 0x34, 0xE0, 0x59, 0x95, 0xF2,
       0xD9, 0x8D, 0x31, 0x42, 0xCF, 0x6F, 0x30, 0x74, 0xCC, 0x62, 0x25, 0x3D, 0x4F, 0x81, 0x5B, 0xA3, 0x77, 0x92, 0x7E,
       0xCC, 0x20, 0x58, 0xF4, 0x3D, 0xC4, 0xF2, 0xDA, 0xD0, 0x0D, 0xB0, 0x1D, 0xFE, 0xB5, 0xFC, 0x00, 0x61, 0x8F, 0x0C,
       0xB2] =
      some ((List.range 300).map fun i => BitVec.ofNat 8 ((i * i * 7 + 3 * (i % 5)) % 23)) := by decide +kernel

/-! ## Host accesses -/

/-- V50: from 0x00000406 a NOP is dropped: 0x0000040E. -/
theorem test_cmd_dropped_in_error : isNext (step (hostNext (.write 0x004 4 0x00000000)
      { vec with done := true, err := true, errCode := 4 })) (fun t => t.statusWord == 0x0000040E) = true := by decide +kernel

/-- V52, V53, V54. -/
theorem test_writes_while_busy :
    isNext (step (hostNext (.write 0x010 4 5) (vec.accept 0))) (fun t => t.width == 0x64 && t.drop) = true ∧
      isNext (step (hostNext (.write 0x004 4 1) (vec.accept 0))) (fun t => t.pending == 0 && t.drop) = true ∧
      isNext (step (hostNext (.write 0x008 4 8) ({ vec with drop := true } : State).dropped))
        (fun t => !t.drop) = true := by decide +kernel

/-- V55, V56. -/
theorem test_status_write_and_irq :
    isNext (step (hostNext (.write 0x008 4 0xA) { vec with done := true, drop := true })) (fun t => t.statusWord == 0) = true ∧
      isNext (exec .nop { vec with doneIe := true }) (fun t => t.irq) = true ∧
      isNext (step (hostNext (.write 0x008 4 2) { vec with done := true, doneIe := true })) (fun t => !t.irq) = true := by
  decide +kernel

/-- V57 to V60: bus errors. -/
theorem test_bus_errors :
    isFault (step (hostNext (.read 0x008 1) vec)) (.busError (.read 0x008 1)) = true ∧
      isFault (step (hostNext (.write 0x800000 1 1) vec)) (.busError (.write 0x800000 1 1)) = true ∧
      isFault (step (hostNext (.read 0x400002 4) vec)) (.busError (.read 0x400002 4)) = true ∧
      isFault (step (hostNext (.read 0x001000 4) vec)) (.busError (.read 0x001000 4)) = true := by decide +kernel

/-- V61: the little-endian host view. -/
theorem test_raw_read : isNext (step (hostNext (.read 0x400000 4) (withRaw [0x49, 0x48, 0x44, 0x52] vec)))
    (fun t => t.reply == some (.data 0x52444849)) = true := by decide +kernel

/-- Program P3's first word write. -/
theorem test_raw_write : isNext (step (hostNext (.write 0x400000 4 0x03020100) vec))
    (fun t => t.rawMem.readBytes 0 4 == [0x00, 0x01, 0x02, 0x03]) = true := by decide +kernel

/-- V62, V63, V64. -/
theorem test_register_reads :
    isNext (step (hostNext (.read 0x004 4) vec)) (fun t => t.reply == some (.data 0)) = true ∧
      isNext (step (hostNext (.read 0x034 4) vec)) (fun t => t.reply == some (.data 0)) = true ∧
      isNext (step (hostNext (.read 0x000 4) vec)) (fun t => t.reply == some (.data 0x504E4745)) = true ∧
      isNext (step (hostNext (.read 0x024 4) vec)) (fun t => t.reply == some (.data 0)) = true ∧
      isNext (step (hostNext (.read 0x010 4) vec)) (fun t => t.reply == some (.data 0x64)) = true := by decide +kernel

/-- The bus accesses of program P2's first lines. -/
theorem test_assemble :
    assemble [.wr32 (.reg .width) 1, .wrbytes 0 [0x00, 0xF9], .setraw 5, .cmd .emitSig, .settype 0x49 0x48 0x44 0x52] =
      some [.host (.write 0x000010 4 1), .host (.write 0x400000 1 0x00), .host (.write 0x400001 1 0xF9),
        .host (.write 0x000018 4 5), .host (.write 0x000004 4 0x00000010), .host (.write 0x00001C 4 0x49484452)] := by
  decide +kernel

/-! ## Witnesses: concrete states and operands that meet the hypotheses of each obligation, each clause at a boundary -/

/-- A legal instance of the smallest buffers. -/
def small : State := State.resetWith ⟨4, 4, .stored⟩ 0

/-- A 1 × 4 image whose stream, 88 bytes, fills an OUT buffer of `cap` = 88 exactly. -/
def fits (cap : Nat) : State :=
  withRaw (List.replicate 20 0) { State.resetWith ⟨65536, cap, .stored⟩ 0 with width := 1, height := 4 }

/-- `pixel` with a compressor that fails on its five bytes. -/
def fails : State := { pixel with params := ⟨65536, 65536, .storedUpTo 4⟩ }

/-- A command ended in BAD_LEN. -/
def failed : State := { vec with done := true, err := true, errCode := 4 }

/-- ENCODE is pending. -/
def waiting : State := vec.accept 0x00000020

/-- A word of a reserved opcode is pending. -/
def illegal : State := vec.accept 0x00000004

theorem inv_vec : vec.Inv := by constructor <;> decide

theorem inv_small : small.Inv := by constructor <;> decide

theorem inv_failed : failed.Inv := by constructor <;> decide

theorem inv_waiting : waiting.Inv := by constructor <;> decide

theorem inv_illegal : illegal.Inv := by constructor <;> decide

theorem inv_script {s : State} (h : s.Inv) (es : List Event) : (s.withScript es).Inv := ⟨h.1, h.2, h.3, h.4, h.5, h.6, h.7, h.8, h.9, h.10, h.11, h.12, h.13⟩

theorem witness_ResetAndSoftResetState :
    (vec.withScript [.reset]).script = [.reset] ∧
      ((hostNext (.write Reg.cmd.offset 4 0x000000FF) vec).script = [.host (.write Reg.cmd.offset 4 0x000000FF)] ∧
        vec.busy = false) ∧
      (hostNext (.write Reg.cmd.offset 4 0x000000FF) waiting).script = [.host (.write Reg.cmd.offset 4 0x000000FF)] ∧
        waiting.busy = true := by decide

theorem witness_InvariantHoldsAtReset :
    Params.wf ⟨4, 4, .stored⟩ = true ∧ Params.wf ⟨0x400000, 0x400000, .vendor 1⟩ = true := by decide

theorem witness_StepKeepsInvariant :
    (waiting.withScript [.engine]).Inv ∧ ∃ t, step (waiting.withScript [.engine]) = .next t :=
  ⟨inv_script inv_waiting _, (isNext_elim (p := fun _ => true) (by decide +kernel)).imp fun _ h => h.1⟩

theorem witness_StatusInvariantsOnEveryRun :
    Params.wf ⟨4, 4, .stored⟩ = true ∧
      ∃ t, SafeRun 1 ((State.resetWith ⟨4, 4, .stored⟩ 0).withScript [.host (.write Reg.cmd.offset 4 1)]) t ∧
        t.busy = true := by
  refine ⟨by decide, ?_⟩
  obtain ⟨t, h, hb⟩ := isNext_elim (p := fun t => t.busy)
    (o := step ((State.resetWith ⟨4, 4, .stored⟩ 0).withScript [.host (.write Reg.cmd.offset 4 1)])) (by decide +kernel)
  exact ⟨t, safeRun_succ.2 ⟨t, h, by simp⟩, hb⟩

theorem witness_DecodeEncodeAgree : decode 0x0000FF02 = .ok (.crcByte 0xFF) := by decide

theorem witness_DecodeTakesExactlyTheLegalWords :
    (∃ i, decode 0x0000FF02 = .ok i) ∧ (0x0000FF01 : Word).extractLsb' 0 8 ≠ 0x02 ∧
      (0x0000FF01 : Word).extractLsb' 8 8 ≠ 0 := ⟨⟨.crcByte 0xFF, by decide⟩, by decide⟩

theorem witness_CommandWordsOfTheOpcodeMap :
    (0x00000004 : Word).extractLsb' 0 8 ∉
        ([0x00, 0x01, 0x02, 0x03, 0x10, 0x11, 0x12, 0x13, 0x14, 0x20, 0x30, 0xFF] : List Byte) ∧
      (0x000000FE : Word).extractLsb' 0 8 ∉
        ([0x00, 0x01, 0x02, 0x03, 0x10, 0x11, 0x12, 0x13, 0x14, 0x20, 0x30, 0xFF] : List Byte) := by decide

theorem witness_IllegalWordsCompleteWithBadCmd :
    ((vec.accept 0x000001FF).busy = true ∧ ∀ i, decode (vec.accept 0x000001FF).pending ≠ .ok i) ∧
      (∀ o ∈ ([0x04, 0x0F, 0x15, 0x1F, 0x21, 0x2F, 0x31, 0xFE] : List Byte),
        (o.setWidth 32 : Word).extractLsb' 0 8 = o ∧
          (0x04 ≤ o.toNat ∧ o.toNat ≤ 0x0F ∨ 0x15 ≤ o.toNat ∧ o.toNat ≤ 0x1F ∨ 0x21 ≤ o.toNat ∧ o.toNat ≤ 0x2F ∨
            0x31 ≤ o.toNat ∧ o.toNat ≤ 0xFE)) ∧
      (0x00010000 : Word).extractLsb' 16 16 ≠ 0 ∧
      ((0x00000100 : Word).extractLsb' 8 8 ≠ 0 ∧ (0x00000100 : Word).extractLsb' 0 8 ≠ 0x02) ∧
      (0x800000FF : Word).extractLsb' 0 8 = 0xFF ∧ (0x800000FF : Word).extractLsb' 8 24 ≠ 0 := by
  refine ⟨⟨rfl, ?_⟩, by decide, by decide, by decide, by decide, by decide⟩
  rw [show decode (vec.accept 0x000001FF).pending = .error .immediateField by decide]
  intro i h
  cases h

theorem witness_HostAssemblyExpansions :
    (0xBFFFFF < 0xC00000 ∧ 0x7FFFFF < 0x800000) ∧
      ((Loc.reg .width).offset = some 0x010 ∧ (Loc.raw 0xBFFFFF).offset = some 0xFFFFFF ∧
        (Loc.out 0x7FFFFF).offset = some 0xFFFFFF) ∧
      ((Loc.raw 0xC00000).offset = none ∧ (Loc.out 0x800000).offset = none) ∧ (255 ≤ 255 ∧ 255 < 256) ∧
      (Stmt.wrbytes (0xBFFFFF + 1) []).assemble = some [] ∧ 0xC00000 < 0xC00000 + ([0x00] : Bytes).length ∧
      Stmt.ack.assemble = some [.host (.write 0x008 4 0x0000000A)] ∧
      assemble [.wait 0] = some [.engine, .host (.read 0x008 4)] := by decide

theorem witness_CrcInitResult : (0x00000101 : Word).extractLsb' 0 8 = 0x01 ∧ (0x00000101 : Word).extractLsb' 8 24 ≠ 0 := by
  decide

theorem witness_CrcBufResult :
    ({ vec with rawLen := 65536 } : State).rawLen.toNat ≤ vec.params.rawCap ∧
      vec.params.rawCap < ({ vec with rawLen := 65537 } : State).rawLen.toNat ∧ vec.rawLen = 0 ∧
      (pixel.rawLen.toNat ≤ pixel.params.rawCap ∧
        ∃ t u, exec .crcInit pixel = .next t ∧ exec .crcBuf t = .next u) :=
  ⟨by decide, by decide, by decide, by decide +kernel, _, _, rfl, rfl⟩

theorem witness_CrcBufIsCrcByteOfEveryByte :
    pixel.err = false ∧ 0 < pixel.rawLen.toNat ∧ pixel.rawLen.toNat ≤ pixel.params.rawCap := by decide +kernel

theorem witness_OutAppendAppendsOrOverflows :
    ({ vec with outLen := 65535 } : State).params.outCap < ({ vec with outLen := 65535 } : State).outLen.toNat + [0, 0].length ∧
      (vec.params.wf = true ∧ ({ vec with outLen := 65535 } : State).outLen.toNat + [0].length ≤ vec.params.outCap) ∧
      vec.Inv := ⟨by decide, by decide, inv_vec⟩

theorem witness_EmitChunkAction :
    (vec.params.wf = true ∧
        ({ vec with outLen := 65524 } : State).outLen.toNat + (chunk tagIEND []).length ≤ vec.params.outCap) ∧
      vec.params.outCap < ({ vec with outLen := 65525 } : State).outLen.toNat + (chunk tagIEND []).length := by
  decide +kernel

theorem witness_ChunkSerializedForm : tagIDAT.length = 4 := rfl

theorem witness_LengthFieldIsExact : tagIEND.length = 4 ∧ vec.params.wf = true ∧ ∃ u, emitChunk tagIEND [] vec = .ok u :=
  ⟨rfl, by decide, _, rfl⟩

theorem witness_EmitSigResult :
    (vec.params.wf = true ∧ ({ vec with outLen := 65528 } : State).outLen.toNat + 8 ≤ vec.params.outCap) ∧
      vec.params.outCap < ({ vec with outLen := 65529 } : State).outLen.toNat + 8 := by decide

theorem witness_EmitIhdrResult :
    (vec.params.wf = true ∧ dimOk vec.width vec.height = true ∧
        ({ vec with outLen := 65511 } : State).outLen.toNat + 25 ≤ vec.params.outCap) ∧
      dimOk ({ vec with width := 0 } : State).width vec.height = false ∧
      dimOk ({ vec with height := 0x80000000 } : State).width ({ vec with height := 0x80000000 } : State).height = false ∧
      (dimOk vec.width vec.height = true ∧
        vec.params.outCap < ({ vec with outLen := 65512 } : State).outLen.toNat + 25) := by decide

theorem witness_EmitChunkResult :
    (vec.params.wf = true ∧ ({ pixel with outLen := 65519 } : State).rawLen.toNat ≤ pixel.params.rawCap ∧
        ({ pixel with outLen := 65519 } : State).outLen.toNat + 12 + pixel.rawLen.toNat ≤ pixel.params.outCap) ∧
      vec.params.rawCap < ({ vec with rawLen := 65537 } : State).rawLen.toNat ∧
      (pixel.rawLen.toNat ≤ pixel.params.rawCap ∧
        pixel.params.outCap < ({ pixel with outLen := 65520 } : State).outLen.toNat + 12 + pixel.rawLen.toNat) ∧
      (({ vec with chunkType := 0x49454E44 } : State).chunkType = 0x49454E44 ∧ vec.rawLen = 0) ∧ tagIHDR.length = 4 := by
  decide +kernel

theorem witness_EmitIendResult :
    (vec.params.wf = true ∧ ({ vec with outLen := 65524 } : State).outLen.toNat + 12 ≤ vec.params.outCap) ∧
      vec.params.outCap < ({ vec with outLen := 65525 } : State).outLen.toNat + 12 := by decide

theorem witness_ScanlineLayoutTilesTheBuffer :
    4 < rawLenOf 1 1 ∧ 0 < 1 ∧ (1 < 2 ∧ 3 < 4 ∧ channelIndex 2 0 1 3 = channelIndex 2 0 1 3) ∧
      0x7FFFFFFF < 2 ^ 31 := by decide

theorem witness_CompressedStreamDecompresses :
    compress .stored [] = some (stored []) ∧ compress (.storedUpTo 0) [] = some (stored []) := ⟨rfl, rfl⟩

theorem witness_StoredOutputLength :
    (List.replicate 65535 (0 : Byte)).length ≤ 65535 ∧ (List.replicate 40100 (0 : Byte)).length = 40100 := by
  simp only [List.length_replicate, le_refl, and_self]

theorem witness_EmitIdatResult :
    (pixel.params.wf = true ∧ dimOk pixel.width pixel.height = true ∧ pixel.rawLen.toNat ≤ pixel.params.rawCap ∧
        pixel.rawLen.toNat = pixel.height.toNat * (1 + 4 * pixel.width.toNat) ∧
        compress pixel.params.compressor (pixel.raw pixel.rawLen.toNat) = some (stored [0x00, 0xF9, 0xF4, 0xE8, 0x05]) ∧
        ({ pixel with outLen := 65508 } : State).outLen.toNat + 12 + (stored [0x00, 0xF9, 0xF4, 0xE8, 0x05]).length ≤
          pixel.params.outCap ∧
        pixel.params.outCap <
          ({ pixel with outLen := 65509 } : State).outLen.toNat + 12 + (stored [0x00, 0xF9, 0xF4, 0xE8, 0x05]).length) ∧
      dimOk 0 vec.height = false ∧
      (dimOk vec.width vec.height = true ∧ vec.params.rawCap < ({ vec with rawLen := 65537 } : State).rawLen.toNat) ∧
      (dimOk vec.width vec.height = true ∧ ({ vec with rawLen := 40099 } : State).rawLen.toNat ≤ vec.params.rawCap ∧
        ({ vec with rawLen := 40099 } : State).rawLen.toNat ≠ vec.height.toNat * (1 + 4 * vec.width.toNat)) ∧
      dimOk fails.width fails.height = true ∧ fails.rawLen.toNat ≤ fails.params.rawCap ∧
      fails.rawLen.toNat = fails.height.toNat * (1 + 4 * fails.width.toNat) ∧
      compress fails.params.compressor (fails.raw fails.rawLen.toNat) = none := by decide +kernel

theorem witness_EncodeResult :
    ((fits 88).params.wf = true ∧ dimOk (fits 88).width (fits 88).height = true ∧
        (fits 88).rawLen.toNat ≤ (fits 88).params.rawCap ∧
        (fits 88).rawLen.toNat = (fits 88).height.toNat * (1 + 4 * (fits 88).width.toNat) ∧
        compress (fits 88).params.compressor ((fits 88).raw (fits 88).rawLen.toNat) = some (stored (List.replicate 20 0)) ∧
        57 + (stored (List.replicate 20 0)).length ≤ (fits 88).params.outCap) ∧
      (compress (fits 84).params.compressor ((fits 84).raw (fits 84).rawLen.toNat) = some (stored (List.replicate 20 0)) ∧
        (fits 84).rawLen.toNat = (fits 84).height.toNat * (1 + 4 * (fits 84).width.toNat) ∧
        (fits 84).params.outCap < 57 + (stored (List.replicate 20 0)).length) ∧
      ([] : Bytes).length ≤ 65535 := by decide +kernel

theorem witness_EncodeEqualsTheStepSequence :
    (pixel.params.wf = true ∧ pixel.err = false ∧ isNext (exec .encode pixel) (fun t => !t.err) = true) ∧
      (∀ s ∈ [small, fails, fits 84], s.params.wf = true ∧ s.err = false ∧
        isNext (exec .encode s) (fun t => t.err) = true) := by decide +kernel

theorem witness_EncodeOutputReadsBack : pixel.params.wf = true ∧ ∃ t, exec .encode pixel = .next t ∧ t.err = false := by
  refine ⟨by decide +kernel, ?_⟩
  obtain ⟨t, h, he⟩ := isNext_elim (o := exec .encode pixel) (p := fun t => !t.err) (by decide +kernel)
  exact ⟨t, h, by simpa using he⟩

/-- Two states that differ in everything ENCODE does not read. -/
theorem witness_EncodeDependsOnItsInputsOnly :
    let s' : State := { pixel with crcState := 5, outLen := 7, chunkType := 1, doneIe := true, draws := 9 }
    pixel.params.wf = true ∧ pixel.params = s'.params ∧ pixel.width = s'.width ∧ pixel.height = s'.height ∧
      pixel.rawLen = s'.rawLen ∧
      pixel.raw (min pixel.rawLen.toNat pixel.params.rawCap) = s'.raw (min pixel.rawLen.toNat pixel.params.rawCap) ∧
      pixel.err = false ∧ s'.err = false ∧ ∃ t t', exec .encode pixel = .next t ∧ exec .encode s' = .next t' :=
  ⟨by decide +kernel, rfl, rfl, rfl, rfl, rfl, rfl, rfl, _, _, rfl, rfl⟩

theorem witness_NopResult :
    failed.err = true ∧ waiting.busy = true ∧ vec.busy = false ∧ vec.statusWord = 0 ∧
      (vec.withScript [.host (.write Reg.cmd.offset 4 0x00000000), .engine]).script =
        [.host (.write Reg.cmd.offset 4 0x00000000), .engine] := by decide

theorem witness_SoftResetResult :
    vec.busy = false ∧ waiting.busy = true ∧
      (hostNext (.write Reg.cmd.offset 4 0x000000FF) vec).script = [.host (.write Reg.cmd.offset 4 0x000000FF)] := by decide

theorem witness_CmdWriteAcceptsOrDrops :
    (∀ s ∈ [vec, failed, waiting],
        (hostNext (.write Reg.cmd.offset 4 0x000000FF) s).script = [.host (.write Reg.cmd.offset 4 0x000000FF)] ∧
          (hostNext (.write Reg.cmd.offset 4 0x000001FF) s).script = [.host (.write Reg.cmd.offset 4 0x000001FF)]) ∧
      ((0x000001FF : Word) ≠ 0x000000FF ∧ failed.err = true ∧ waiting.busy = true ∧ vec.busy = false ∧ vec.err = false) ∧
      (decode 0x000001FF = .error .immediateField ∧
        (vec.withScript [.host (.write Reg.cmd.offset 4 0x000001FF), .engine]).script =
          [.host (.write Reg.cmd.offset 4 0x000001FF), .engine]) := by decide

theorem witness_StepPerformsThePendingCommand :
    (waiting.busy = true ∧ waiting.script = [] ∧ decode waiting.pending = .ok .encode) ∧
      (pendingIn 0x20 vec).script.head? = some .engine ∧ (vec.accept 4).busy = true ∧
      decode (vec.accept 4).pending = .error .reservedOpcode ∧ (vec.busy = false ∧ vec.script = []) ∧
      decode 0x000000FF = .ok .softReset := by decide

theorem witness_EveryWaitTerminates :
    ((waiting.withScript ([pollStatus, .engine, pollStatus] ++ [.engine])).Inv ∧ waiting.busy = true ∧
      (Stmt.wait 1).assemble = some [pollStatus, .engine, pollStatus] ∧
      (waiting.withScript ([pollStatus, .engine, pollStatus] ++ [.engine])).script =
        [pollStatus, .engine, pollStatus] ++ [.engine]) ∧
      vec.busy = false ∧ (Stmt.wait 0).assemble = some [.engine, pollStatus] ∧
      (vec.withScript ([.engine, pollStatus] ++ [])).script = [.engine, pollStatus] ++ [] :=
  ⟨⟨inv_script inv_waiting _, by decide, by decide, rfl⟩, by decide, by decide, rfl⟩

theorem witness_RacingWriteHasTwoOutcomes : pixel.busy = false ∧ pixel.err = false ∧ pixel.drop = false := by
  decide +kernel

/-- For StatusWordAndWrite, RegisterWritesReadBack and RegisterReadValues. -/
theorem witness_RegisterStatements :
    (∀ g ∈ [Reg.status, .intEn, .width, .height, .rawLen, .chunkType], ∀ s ∈ [vec, waiting],
        (hostNext (.write g.offset 4 0xFFFFFFFF) s).script = [.host (.write g.offset 4 0xFFFFFFFF)]) ∧
      vec.busy = false ∧
      (∀ g ∈ [Reg.id, .cmd, .status, .rawCap, .outCap], ∀ s ∈ [vec, waiting],
        (hostNext (.read g.offset 4) s).script = [.host (.read g.offset 4)] ∧
          (s.busy = false ∨ (g ≠ .crcState ∧ g ≠ .crcResult ∧ g ≠ .outLen))) ∧
      (hostNext (.read Reg.crcState.offset 4) vec).script = [.host (.read Reg.crcState.offset 4)] := by decide

theorem witness_ReadOnlyAndReservedOffsets :
    (Reg.outCap ∈ [Reg.id, .crcState, .crcResult, .outLen, .rawCap, .outCap] ∧
        (hostNext (.write Reg.outCap.offset 4 1) vec).script = [.host (.write Reg.outCap.offset 4 1)]) ∧
      ((0x034 : Offset).toNat % 4 = 0 ∧ 0x034 ≤ (0x034 : Offset).toNat ∧ (0x034 : Offset).toNat ≤ 0xFFC ∧
        (hostNext (.write 0x034 4 1) vec).script = [.host (.write 0x034 4 1)] ∧
        (hostNext (.read 0x034 4) vec).script = [.host (.read 0x034 4)]) ∧
      (0xFFC : Offset).toNat % 4 = 0 ∧ 0x034 ≤ (0xFFC : Offset).toNat ∧ (0xFFC : Offset).toNat ≤ 0xFFC ∧
        (hostNext (.write 0xFFC 4 1) vec).script = [.host (.write 0xFFC 4 1)] ∧
        (hostNext (.read 0xFFC 4) vec).script = [.host (.read 0xFFC 4)] := by decide

theorem witness_VolatileReadsWhileBusy :
    waiting.busy = true ∧ waiting.params.wf = true ∧
      (∀ g ∈ [Reg.crcState, .crcResult, .outLen], (hostNext (.read g.offset 4) waiting).script = [.host (.read g.offset 4)]) ∧
      ((hostNext (.read 0x800000 4) waiting).script = [.host (.read 0x800000 4)] ∧ (0x800000 : Offset).toNat % 4 = 0 ∧
        0x800000 ≤ (0x800000 : Offset).toNat ∧ (0x800000 : Offset).toNat + 4 ≤ 0x800000 + waiting.params.outCap) ∧
      ((hostNext (.read 0x80FFFC 4) waiting).script = [.host (.read 0x80FFFC 4)] ∧ (0x80FFFC : Offset).toNat % 4 = 0 ∧
        (0x80FFFC : Offset).toNat + 4 ≤ 0x800000 + waiting.params.outCap) ∧
      (hostNext (.read 0x80FFFF 1) waiting).script = [.host (.read 0x80FFFF 1)] ∧
        (0x80FFFF : Offset).toNat + 1 ≤ 0x800000 + waiting.params.outCap := by decide

theorem witness_ReadsHaveNoSideEffect :
    (hostNext (.read 0x80FFFF 1) waiting).script = [.host (.read 0x80FFFF 1)] ∧
      (∃ t, step (hostNext (.read 0x80FFFF 1) waiting) = .next t) ∧ vec.busy = false ∧
      ∃ t, step (hostNext (.read 0x020 4) vec) = .next t :=
  ⟨rfl, (isNext_elim (p := fun _ => true) (by decide +kernel)).imp fun _ h => h.1, rfl,
    (isNext_elim (p := fun _ => true) (by decide +kernel)).imp fun _ h => h.1⟩

theorem witness_InterruptLevel :
    (Instr.nop ≠ .softReset ∧ ({ vec with doneIe := true } : State).doneIe = true ∧
        ∃ t, exec .nop { vec with doneIe := true } = .next t) ∧
      (∃ t, exec .crcBuf { vec with rawLen := 65537, errIe := true } = .next t ∧ t.err = true) ∧ vec.err = false ∧
      (failed.errIe = false ∧ (0x00000002 : Word).getLsbD 1 = true ∧
        ∃ t, step (hostNext (.write Reg.status.offset 4 0x00000002) failed) = .next t) := by
  refine ⟨⟨by decide, rfl, _, rfl⟩, ?_, rfl, rfl, by decide,
    (isNext_elim (p := fun _ => true) (by decide +kernel)).imp fun _ h => h.1⟩
  obtain ⟨t, h, he⟩ := isNext_elim (o := exec .crcBuf { vec with rawLen := 65537, errIe := true }) (p := fun t => t.err)
    (by decide +kernel)
  exact ⟨t, h, he⟩

/-- IRQ raised by DONE alone. -/
def signalling : State := { vec with done := true, doneIe := true }

/-- IRQ raised by both causes. -/
def alarmed : State := { failed with doneIe := true, errIe := true }

theorem inv_signalling : signalling.Inv := by constructor <;> decide

theorem inv_alarmed : alarmed.Inv := by constructor <;> decide

/-- PNGE states with IRQ high, and a step of each kind that lowers it. -/
theorem witness_InterruptFalls :
    (signalling.irq = true ∧ alarmed.irq = true ∧
        (0x000000FF : Word) ≠ 0x00000020 ∧ signalling.busy = false ∧ signalling.err = false) ∧
      (Event.clearsError .reset = true ∧ Event.clearsError (.host (.write Reg.cmd.offset 4 0x000000FF)) = true) ∧
      isNext (step (hostNext (.write Reg.intEn.offset 4 0x00000000) alarmed)) (fun t => !t.irq) = true ∧
      isNext (step (hostNext (.write Reg.status.offset 4 0x00000002) signalling)) (fun t => !t.irq) = true ∧
      isNext (step (hostNext (.write Reg.cmd.offset 4 0x00000020) signalling)) (fun t => !t.irq) = true ∧
      isNext (step (hostNext (.write Reg.cmd.offset 4 0x000000FF) alarmed)) (fun t => !t.irq) = true ∧
      isNext (step (alarmed.withScript [.reset])) (fun t => !t.irq) = true := by decide +kernel

/-- With the error cause enabled and present, clearing DONE or masking DONE alone leaves IRQ high. -/
theorem test_irq_error_cause_holds :
    isNext (step (hostNext (.write Reg.status.offset 4 0x00000002) alarmed)) (fun t => t.irq) = true ∧
      isNext (step (hostNext (.write Reg.intEn.offset 4 0x00000002) alarmed)) (fun t => t.irq) = true := by decide +kernel

theorem witness_RawWindowAccess :
    vec.params.wf = true ∧ vec.busy = false ∧ waiting.busy = true ∧ 65535 < vec.params.rawCap ∧
      65532 % 4 = 0 ∧ 65532 < vec.params.rawCap ∧
      (hostNext (.read (BitVec.ofNat 24 (0x400000 + 65535)) 1) vec).script =
        [.host (.read (BitVec.ofNat 24 (0x400000 + 65535)) 1)] ∧
      ∀ s ∈ [vec, waiting], (hostNext (.write (BitVec.ofNat 24 (0x400000 + 65532)) 4 0x04030201) s).script =
        [.host (.write (BitVec.ofNat 24 (0x400000 + 65532)) 4 0x04030201)] := by decide

theorem witness_OutWindowAccess :
    vec.params.wf = true ∧ vec.busy = false ∧ 65535 < vec.params.outCap ∧ 65532 % 4 = 0 ∧ 65532 < vec.params.outCap ∧
      (hostNext (.read (BitVec.ofNat 24 (0x800000 + 65532)) 4) vec).script =
        [.host (.read (BitVec.ofNat 24 (0x800000 + 65532)) 4)] ∧
      0x800000 ≤ (0x800000 : Offset).toNat ∧ (hostNext (.write 0x800000 1 1) vec).script = [.host (.write 0x800000 1 1)] ∧
      (0x80FFFF : Offset).toNat < 0x800000 + vec.params.outCap ∧
      (hostNext (.write 0x80FFFF 4 1) vec).script = [.host (.write 0x80FFFF 4 1)] := by decide

theorem witness_BusErrorsExactly :
    vec.params.wf = true ∧
      (∃ t, step (hostNext (.read 0x40FFFF 1) vec) = .next t) ∧
      (hostNext (.read 0x40FFFF 1) vec).script = [.host (.read 0x40FFFF 1)] ∧
      step (hostNext (.read 0x410000 1) vec) = .fault (.busError (.read 0x410000 1)) ∧
      step (hostNext (.write 0x800000 4 0) vec) = .fault (.busError (.write 0x800000 4 0)) :=
  ⟨by decide, (isNext_elim (p := fun _ => true) (by decide +kernel)).imp fun _ h => h.1, rfl, rfl, rfl⟩

theorem witness_DropsSetOnlyDrop :
    (∀ s ∈ [failed, waiting], (0x00000000 : Word) ≠ 0x000000FF ∧ (s.busy = true ∨ s.err = true) ∧
        (hostNext (.write Reg.cmd.offset 4 0) s).script = [.host (.write Reg.cmd.offset 4 0)]) ∧
      (waiting.busy = true ∧ waiting.params.wf = true ∧ 0x400000 ≤ (0x40FFFF : Offset).toNat ∧
        (0x40FFFF : Offset).toNat < 0x400000 + waiting.params.rawCap ∧
        (hostNext (.write 0x40FFFF 1 9) waiting).script = [.host (.write 0x40FFFF 1 9)] ∧
        (hostNext (.write Reg.width.offset 4 9) waiting).script = [.host (.write Reg.width.offset 4 9)]) ∧
      ∃ s t : State, s.Inv ∧ s.drop = true ∧ step s = .next t ∧ t.drop = false := by
  refine ⟨by decide, by decide, hostNext (.write Reg.status.offset 4 8) { vec with drop := true }, ?_⟩
  obtain ⟨t, h, hd⟩ := isNext_elim (o := step (hostNext (.write Reg.status.offset 4 8) { vec with drop := true }))
    (p := fun t => !t.drop) (by decide +kernel)
  exact ⟨t, inv_script (by constructor <;> decide) _, rfl, h, by simpa using hd⟩

theorem witness_CommandErrorsAreTransactional :
    vec.err = false ∧ (∃ t, exec .crcBuf { vec with rawLen := 65537 } = .next t ∧ t.err = true) ∧
      ∃ t, exec .nop vec = .next t ∧ t.err = false := by
  refine ⟨rfl, ?_, _, rfl, rfl⟩
  obtain ⟨t, h, he⟩ := isNext_elim (o := exec .crcBuf { vec with rawLen := 65537 }) (p := fun t => t.err)
    (by decide +kernel)
  exact ⟨t, h, he⟩

theorem witness_ErrorIsSticky :
    (hostNext (.write Reg.cmd.offset 4 0x00000020) failed).Inv ∧ failed.err = true ∧
      (∃ t, step (hostNext (.write Reg.cmd.offset 4 0x00000020) failed) = .next t) ∧
      ∀ e ∈ (hostNext (.write Reg.cmd.offset 4 0x00000020) failed).script.head?, Event.clearsError e = false :=
  ⟨inv_script inv_failed _, rfl, (isNext_elim (p := fun _ => true) (by decide +kernel)).imp fun _ h => h.1, by decide⟩

theorem witness_InputsLockedWhileBusy :
    (waiting.busy = true ∧ (hostNext (.write Reg.width.offset 4 5) waiting).Inv ∧
        (∃ t, step (hostNext (.write Reg.width.offset 4 5) waiting) = .next t) ∧
        (hostNext (.write Reg.width.offset 4 5) waiting).script.head? ≠ some .reset) ∧
      (hostNext (.write Reg.cmd.offset 4 0x000000FF) waiting).Inv ∧
      ∃ t, step (hostNext (.write Reg.cmd.offset 4 0x000000FF) waiting) = .next t ∧ t.pending ≠ waiting.pending := by
  refine ⟨⟨rfl, inv_script inv_waiting _, (isNext_elim (p := fun _ => true) (by decide +kernel)).imp fun _ h => h.1, by decide⟩,
    inv_script inv_waiting _, ?_⟩
  obtain ⟨t, h, hp⟩ := isNext_elim (o := step (hostNext (.write Reg.cmd.offset 4 0x000000FF) waiting))
    (p := fun t => t.pending != waiting.pending) (by decide +kernel)
  exact ⟨t, h, by simpa using hp⟩

theorem witness_HostAndEngineWriteTheirOwn :
    (∃ t, step (hostNext (.write Reg.width.offset 4 5) vec) = .next t) ∧
      Event.clearsError (.host (.write Reg.width.offset 4 5)) = false ∧ ∃ t, engineTurn waiting = .next t :=
  ⟨(isNext_elim (p := fun _ => true) (by decide +kernel)).imp fun _ h => h.1, by decide,
    (isNext_elim (p := fun _ => true) (by decide +kernel)).imp fun _ h => h.1⟩

theorem witness_IdleAgainMeansCompleted :
    ∀ s ∈ [waiting, illegal], s.Inv ∧ s.busy = true ∧ (∃ t, SafeRun 1 s t ∧ t.busy = false) ∧
      ∀ e ∈ s.script, Event.clearsError e = false := by
  have run : ∀ s : State, isNext (step s) (fun t => !t.busy) = true → ∃ t, SafeRun 1 s t ∧ t.busy = false := by
    intro s hs
    obtain ⟨t, h, hb⟩ := isNext_elim hs
    exact ⟨t, safeRun_succ.2 ⟨t, h, by simp⟩, by simpa using hb⟩
  simp only [List.mem_cons, List.not_mem_nil, or_false]
  rintro s (rfl | rfl)
  · exact ⟨inv_waiting, rfl, run _ (by decide +kernel), by decide⟩
  · exact ⟨inv_illegal, rfl, run _ (by decide +kernel), by decide⟩

/-- After the host's last access, WIDTH written with an idle PNGE, the run is over although a turn of the ENGINE and a
reset still stand in the script; with a command accepted it is over only after the ENGINE's turn (R279). -/
theorem test_run_is_over :
    isNext (step (vec.withScript [.host (.write Reg.width.offset 4 5), .engine, .reset]))
        (fun t => t.runOver && t.width == 5) = true ∧
      (vec.withScript [.engine, .host (.read 0x008 4)]).runOver = false ∧ (waiting.withScript []).runOver = false ∧
      isNext (step (illegal.withScript [.engine, .reset])) (fun t => t.runOver && t.png == none) = true := by
  decide +kernel

theorem witness_EveryRunEnds :
    ((vec.withScript [.engine, .reset]).runOver = true ∧ (vec.withScript [.engine, .reset]).script.head? = some .engine ∧
        failed.err = true ∧ vec.err = false) ∧
      (∃ t, RunEnds 1 (illegal.withScript [.engine]) t) ∧ (∀ a : Access, Event.host a ∉ [Event.engine, .reset]) ∧
      1 ≤ (illegal.withScript [.engine]).script.length ∧
      RunFaults 0 (hostNext (.write 0x800000 1 0) vec) (.write 0x800000 1 0) := by
  refine ⟨by decide, ?_, by simp, by decide, _, safeRun_zero.2 rfl, rfl⟩
  obtain ⟨t, h, ho⟩ := isNext_elim (o := step (illegal.withScript [.engine])) (p := State.runOver) (by decide +kernel)
  refine ⟨t, safeRun_succ.2 ⟨t, h, by simp⟩, ho, ?_⟩
  intro j hj u hu
  obtain rfl : j = 0 := by omega
  rw [safeRun_zero] at hu
  subst hu
  exact runOver_busy rfl

end Sys2Proof.Tests
end

section
/-! SUPPORT. The facts the statements of 10_state.md rest on: the words of STATUS and INT_EN bit by bit, what a write of
each register leaves, that every named update of the state keeps the invariant, and what a step does to IRQ. -/

namespace Sys2Proof.Machine

/-! ### Words and registers -/

@[simp] theorem flagBit_getLsbD (b : Bool) (i : Nat) : (flagBit b).getLsbD i = (b && decide (i = 0)) := by
  cases b <;> simp [flagBit]

theorem flagBit_shiftLeft_getLsbD (b : Bool) (k : Nat) {i : Nat} (hi : i < 32) :
    (flagBit b <<< k).getLsbD i = (b && decide (i = k)) := by
  rw [BitVec.getLsbD_shiftLeft, flagBit_getLsbD]
  cases b
  · simp
  · simp only [hi, decide_true, Bool.true_and, ← Bool.decide_and, ← decide_not]
    exact decide_eq_decide.2 (by omega)

/-- The STATUS word bit by bit (10_state.md R27). -/
theorem State.statusWord_getLsbD (s : State) {i : Nat} (hi : i < 32) :
    s.statusWord.getLsbD i = (s.busy && decide (i = 0) || s.done && decide (i = 1) || s.err && decide (i = 2) ||
      s.drop && decide (i = 3) || decide (8 ≤ i) && s.errCode.getLsbD (i - 8)) := by
  have code : (s.errCode.setWidth 32 <<< 8).getLsbD i = (decide (8 ≤ i) && s.errCode.getLsbD (i - 8)) := by
    simp [hi, ← decide_not]
  simp only [State.statusWord, BitVec.getLsbD_or, flagBit_getLsbD, flagBit_shiftLeft_getLsbD _ _ hi, code]

/-- Past the flags the STATUS word holds ERR_CODE in bits 8 and up and nothing else: a run of bits there, bit by bit. -/
theorem State.statusWord_extractLsb' (s : State) {lo n : Nat} {x : BitVec n} (hlo : 4 ≤ lo) (hn : lo + n ≤ 32)
    (h : ∀ i < n, (decide (8 ≤ lo + i) && s.errCode.getLsbD (lo + i - 8)) = x.getLsbD i) :
    s.statusWord.extractLsb' lo n = x := by
  apply BitVec.eq_of_getLsbD_eq
  intro i hi
  rw [BitVec.getLsbD_extractLsb', s.statusWord_getLsbD (by omega), ← h i hi]
  simp [hi, show lo ≠ 0 by omega, show lo + i ≠ 1 by omega, show lo + i ≠ 2 by omega, show lo + i ≠ 3 by omega]

/-- The STATUS write, a choice per flag: a 1 clears it, a 0 keeps it. -/
theorem State.statusWrite_eq (v : Word) (s : State) :
    s.statusWrite v =
      { s with done := if v.getLsbD 1 then false else s.done, drop := if v.getLsbD 3 then false else s.drop } := by
  have clear (flag bit : Bool) : (flag && !bit) = if bit then false else flag := by cases bit <;> simp
  rw [State.statusWrite, clear, clear]

/-- INT_EN reads back the two bits written (10_state.md R28). -/
theorem State.intEnWord_intEnWrite (v : Word) (s : State) : (s.intEnWrite v).intEnWord = v &&& 0x3 := by
  apply BitVec.eq_of_getLsbD_eq
  intro i hi
  rw [State.intEnWord, BitVec.getLsbD_or, flagBit_getLsbD, flagBit_shiftLeft_getLsbD _ _ hi, BitVec.getLsbD_and]
  rcases i with _ | _ | i
  · simp
  · simp
  · simp [BitVec.getLsbD_ofNat, Nat.testBit_succ]

theorem State.locked_idle {s : State} (h : s.busy = false) (effect : State) : s.locked effect = effect := by
  simp [State.locked, h]

theorem State.regWrite_readOnly (s : State) (v : Word) {r : Reg}
    (h : r ∈ [Reg.id, .crcState, .crcResult, .outLen, .rawCap, .outCap]) : s.regWrite v r = s := by
  simp only [List.mem_cons, List.not_mem_nil, or_false] at h
  rcases h with rfl | rfl | rfl | rfl | rfl | rfl <;> rfl

/-- The offsets past the last register are reserved (10_state.md R38). -/
theorem Reg.at_reserved {o : Nat} (h : 0x034 ≤ o) : Reg.at o = none := by
  unfold Reg.at
  split
  case h_14 => rfl
  all_goals omega

theorem Reg.volatile_eq_false {r : Reg} (h : r ≠ .crcState ∧ r ≠ .crcResult ∧ r ≠ .outLen) : r.volatile = false := by
  cases r <;> simp_all [Reg.volatile]

/-- A CMD write of a command word to an idle PNGE without error is its acceptance (70_reset_and_hazards.md R274). -/
theorem step_accept {s : State} {w : Word} {r : List Event} (hs : s.script = .host (.write Reg.cmd.offset 4 w) :: r)
    (hw : w ≠ 0x000000FF#32) (hb : s.busy = false) (he : s.err = false) :
    step s = .next (({ s with script := r, reply := some .ok } : State).accept w) := by
  rw [step_regWrite hs]
  simp [State.regWrite, State.cmdWrite, hw, hb, he]

theorem step_reservedWrite {s : State} {off : Offset} {v : Word} {es : List Event} (ha : off.toNat % 4 = 0)
    (hlo : 0x034 ≤ off.toNat) (hhi : off.toNat ≤ 0xFFC) (h : s.script = .host (.write off 4 v) :: es) :
    step s = .next { s with script := es, reply := some .ok } := by
  rw [step_host h]
  simp [hostAccess, target_registers _ _ ha (show off.toNat < 0x1000 by omega), writeTarget, Reg.at_reserved hlo]

theorem step_reservedRead {s : State} {off : Offset} {es : List Event} (ha : off.toNat % 4 = 0)
    (hlo : 0x034 ≤ off.toNat) (hhi : off.toNat ≤ 0xFFC) (h : s.script = .host (.read off 4) :: es) :
    step s = .next { s with script := es, reply := some (.data 0) } := by
  rw [step_host h]
  simp [hostAccess, target_registers _ _ ha (show off.toNat < 0x1000 by omega), readTarget, Reg.at_reserved hlo]

/-! ### The invariant, one lemma per update -/

section
variable {s : State}

theorem inv_resetWith {p : Params} (hp : p.wf = true) (d : Nat) : (State.resetWith p d).Inv where
  params := hp
  outLen := Nat.zero_le _
  noCode _ := rfl
  code := nofun
  busyDone := nofun
  busyErr := nofun
  pending := nofun
  rawWf := rfl
  rawIn := rfl
  outWf := rfl
  outIn := rfl
  rawDraw := Nat.lt_add_of_pos_right Nat.two_pos
  outDraw := Nat.lt_succ_self _

theorem State.Inv.hardReset (h : s.Inv) : s.hardReset.Inv := { inv_resetWith h.params s.draws with }

/-- SOFT_RESET keeps the invariant: a command aborted leaves OUT_MEM to a fresh draw, below the counter it raises. -/
theorem State.Inv.softReset (h : s.Inv) : s.softReset.Inv where
  params := h.params
  outLen := Nat.zero_le _
  noCode _ := rfl
  code := nofun
  busyDone := nofun
  busyErr := nofun
  pending := nofun
  rawWf := h.rawWf
  rawIn := h.rawIn
  outWf := by cases hb : s.busy <;> simp [hb, h.outWf]
  outIn := by cases hb : s.busy <;> simp [hb, h.outIn]
  rawDraw := h.rawDraw.trans_le (by cases hb : s.busy <;> simp [hb])
  outDraw := by cases hb : s.busy <;> simp [hb, h.outDraw]

theorem State.Inv.advance (h : s.Inv) : s.advance.Inv := { h with }

/-- The host's events and last answer are no part of the invariant, and the draw counter may rise. -/
theorem State.Inv.answered (h : s.Inv) (es : List Event) (rep : Option Reply) {d : Nat} (hd : s.draws ≤ d) :
    ({ s with script := es, reply := rep, draws := d } : State).Inv :=
  { h with rawDraw := h.rawDraw.trans_le hd, outDraw := h.outDraw.trans_le hd }

theorem State.Inv.raise (h : s.Inv) (e : CmdError) : (s.raise e).Inv :=
  { h with noCode := nofun, code := fun _ => e.code_range, busyDone := nofun, busyErr := nofun, pending := nofun }

/-- A completed command keeps the invariant when it wrote its bytes below an OUT_LEN that fits. -/
theorem State.Inv.completeOut (h : s.Inv) (c : Word) {at0 k : Nat} {b : Bytes} (hk : k ≤ s.params.outCap)
    (hb : b = [] ∨ at0 + b.length ≤ s.params.outCap) :
    ({ s with crcState := c, outMem := s.outMem.writeBytes at0 b, outLen := BitVec.ofNat 32 k } : State).complete.Inv :=
  { h with
    outLen := (BitVec.toNat_ofNat k 32 ▸ Nat.mod_le _ _).trans hk
    busyDone := nofun
    busyErr := nofun
    pending := nofun
    outWf := Memory.writeBytes_wf _ _ h.outWf
    outIn := by
      rcases hb with rfl | hb
      · exact h.outIn
      · exact Memory.writeBytes_within hb h.outIn
    outDraw := by simpa using h.outDraw }

theorem State.Inv.dropped (h : s.Inv) : s.dropped.Inv := { h with }

theorem State.Inv.intEnWrite (h : s.Inv) (v : Word) : (s.intEnWrite v).Inv := { h with }

theorem State.Inv.statusWrite (h : s.Inv) (v : Word) : (s.statusWrite v).Inv :=
  { h with busyDone := fun hb => by simp [h.busyDone hb] }

theorem State.Inv.accept (h : s.Inv) {w : Word} (hw : w ≠ 0x000000FF#32) (he : s.err = false) : (s.accept w).Inv :=
  { h with busyDone := fun _ => rfl, busyErr := fun _ => he, pending := fun _ => hw }

theorem State.Inv.cmdWrite (h : s.Inv) (w : Word) : (s.cmdWrite w).Inv := by
  rcases State.cmdWrite_cases w s with ⟨_, e⟩ | ⟨_, _, e⟩ | ⟨hw, _, he, e⟩ <;> rw [e]
  · exact h.softReset
  · exact h.dropped
  · exact h.accept hw he

theorem State.Inv.rawWrite (h : s.Inv) {i : Nat} {b : Bytes} (hi : i + b.length ≤ s.params.rawCap) :
    ({ s with rawMem := s.rawMem.writeBytes i b } : State).Inv :=
  { h with
    rawWf := Memory.writeBytes_wf _ _ h.rawWf
    rawIn := Memory.writeBytes_within hi h.rawIn
    rawDraw := by simpa using h.rawDraw }

theorem storedBytes_length {n : Nat} (hn : n = 1 ∨ n = 4) (v : Word) : (storedBytes n v).length = n := by
  rcases hn with rfl | rfl <;> rfl

/-- A write that reaches RAW_MEM stays inside it. -/
theorem target_raw_within {p : Params} {w : Bool} {off : Offset} {n i : Nat} (h : target p w off n = some (.raw i)) :
    (n = 1 ∨ n = 4) ∧ i + n ≤ p.rawCap := by
  obtain ⟨hn, ⟨_, e, _⟩ | ⟨e, _, hi⟩ | ⟨_, e, _⟩⟩ := target_bounds h
  · nomatch e
  · exact ⟨hn, Target.raw.inj e ▸ hi⟩
  · nomatch e

theorem State.Inv.writeTarget (h : s.Inv) {off : Offset} {n : Nat} {g : Target} (v : Word)
    (hg : target s.params true off n = some g) : (writeTarget s n v g).Inv := by
  rcases writeTarget_cases s n v g with
    e | ⟨_, e⟩ | ⟨_, _, _, _, _, e⟩ | ⟨_, i, rfl, e⟩ | ⟨_, e⟩ | ⟨_, e⟩ | ⟨_, e⟩ <;> rw [e]
  · exact h
  · exact h.dropped
  · exact { h with }
  · obtain ⟨hn, hi⟩ := target_raw_within hg
    exact h.rawWrite (by rwa [storedBytes_length hn])
  · exact h.statusWrite v
  · exact h.intEnWrite v
  · exact h.cmdWrite v

theorem State.Inv.exec (h : s.Inv) {i : Instr} {t : State} (ht : exec i s = .next t) : t.Inv := by
  rcases exec_cases i s with ⟨_, e⟩ | ⟨_, _, e⟩ | ⟨_, _, _, _, _, e, hk⟩ <;> rw [e] at ht <;> cases ht
  · exact h.softReset
  · exact h.raise _
  · rcases hk with ⟨hb, rfl⟩ | ⟨rfl, hk⟩ | ⟨hb, rfl⟩
    · exact h.completeOut _ h.outLen (.inl hb)
    · exact h.completeOut _ hk (.inr hk)
    · exact h.completeOut _ (Nat.zero_le _) (.inl hb)

theorem State.Inv.engineTurn (h : s.Inv) {t : State} (ht : engineTurn s = .next t) : t.Inv := by
  rcases engineTurn_cases s with ⟨_, e⟩ | ⟨_, _, e⟩ | ⟨_, i, _, e⟩ <;> rw [e] at ht
  · cases ht; exact h
  · cases ht; exact h.raise _
  · exact h.exec ht

theorem State.Inv.hostAccess (h : s.Inv) {a : Access} {t : State} (ht : hostAccess a s = .next t) : t.Inv := by
  rcases hostAccess_next ht with ⟨_, _, _, _, rfl | ⟨_, rfl⟩⟩ | ⟨off, n, v, g, _, hg, rfl⟩
  · exact h.answered _ _ le_rfl
  · exact h.answered _ _ (Nat.le_succ _)
  · exact (h.answered s.script (some .ok) le_rfl).writeTarget v hg

theorem State.Inv.step (h : s.Inv) {t : State} (ht : step s = .next t) : t.Inv := by
  rcases step_next ht with ⟨e, _⟩ | ⟨a, r, _, e⟩ | ⟨r, _, rfl⟩
  · exact h.advance.engineTurn e
  · exact (h.answered r s.reply le_rfl).hostAccess e
  · exact (h.answered r s.reply le_rfl).hardReset

end

/-! ### Steps and runs -/

/-- The event next, if any, is a way out of the error state or it is not: the two halves of every step. -/
theorem State.head_clearsError_or (s : State) :
    (∀ e ∈ s.script.head?, Event.clearsError e = false) ∨ ∃ e r, s.script = e :: r ∧ e.clearsError = true := by
  rcases s.script with _ | ⟨e, r⟩
  · exact .inl nofun
  · cases he : e.clearsError
    · exact .inl (by simpa using he)
    · exact .inr ⟨e, r, rfl, he⟩

/-- A SOFT_RESET write or a hardware reset next is that reset. -/
theorem step_clearsError {s t : State} {e : Event} {r : List Event} (hs : s.script = e :: r)
    (he : e.clearsError = true) (ht : step s = .next t) :
    (∃ rep, t = ({ s with script := r, reply := rep } : State).softReset) ∨
      t = ({ s with script := r } : State).hardReset := by
  cases e with
  | engine => simp [Event.clearsError] at he
  | reset =>
    rw [step_reset hs] at ht
    cases ht
    exact .inr rfl
  | host a =>
    cases a with
    | read off n => simp [Event.clearsError] at he
    | write off n w =>
      simp only [Event.clearsError, Bool.and_eq_true, beq_iff_eq] at he
      obtain ⟨⟨rfl, rfl⟩, rfl⟩ := he
      rw [step_regWrite hs] at ht
      cases ht
      exact .inl ⟨some .ok, rfl⟩

/-- No step moves the parameters (00_scope.md R6). -/
theorem step_params {s t : State} (ht : step s = .next t) : t.params = s.params := by
  rcases s.head_clearsError_or with hc | ⟨e, r, hs, hce⟩
  · rcases step_cases ht hc with ⟨_, rfl, _⟩ | ⟨_, _, ⟨_, rfl⟩ | ⟨_, rfl⟩ | ⟨_, _, _, rfl⟩⟩ |
      ⟨_, _, _, _, ⟨_, _, rfl⟩, rfl | ⟨_, rfl⟩ | ⟨_, _, _, _, _, _, rfl⟩ | ⟨_, _, rfl⟩ | ⟨_, _, rfl⟩ |
        ⟨_, _, _, ⟨_, rfl⟩ | ⟨_, _, rfl⟩⟩⟩ <;> rfl
  · rcases step_clearsError hs hce ht with ⟨_, rfl⟩ | rfl <;> rfl

/-- What every step keeps holds at the end of every run from a state that has it. -/
theorem safeRun_induct {P : State → Prop} (hstep : ∀ s t, P s → step s = .next t → P t) {k : Nat} {s t : State}
    (hs : P s) (h : SafeRun k s t) : P t := by
  induction k generalizing s with
  | zero => exact safeRun_zero.1 h ▸ hs
  | succ k ih =>
    obtain ⟨u, hu, h⟩ := safeRun_succ.1 h
    exact ih (hstep s u hs hu) h

theorem State.Inv.errCode_le {s : State} (h : s.Inv) : s.errCode.toNat ≤ 6 := by
  cases he : s.err
  · simp [h.noCode he]
  · exact (h.code he).2

/-! ### The interrupt output -/

theorem State.irq_iff {s : State} :
    s.irq = true ↔ (s.done = true ∧ s.doneIe = true) ∨ (s.err = true ∧ s.errIe = true) := by
  simp [State.irq]

theorem State.irq_eq_false {s : State} (hd : s.done = false) (he : s.err = false) : s.irq = false := by
  simp [State.irq, hd, he]

/-- A pending command shows neither cause: IRQ is low while BUSY = 1. -/
theorem State.Inv.irq_busy {s : State} (h : s.Inv) (hb : s.busy = true) : s.irq = false :=
  State.irq_eq_false (h.busyDone hb) (h.busyErr hb)

/-- Every command but SOFT_RESET leaves DONE set and the interrupt enables as they were. -/
theorem exec_done {i : Instr} {s t : State} (hi : i ≠ .softReset) (ht : exec i s = .next t) :
    t.done = true ∧ t.doneIe = s.doneIe := by
  rcases exec_cases i s with ⟨h, _⟩ | ⟨_, _, e⟩ | ⟨_, _, _, _, _, e, _⟩
  · exact absurd h hi
  · cases e.symm.trans ht; exact ⟨rfl, rfl⟩
  · cases e.symm.trans ht; exact ⟨rfl, rfl⟩

/-- A command that sets ERR is one error recording. -/
theorem exec_raised {i : Instr} {s t : State} (he : s.err = false) (ht : exec i s = .next t) (hte : t.err = true) :
    ∃ e, t = s.raise e := by
  rcases exec_cases i s with ⟨_, e⟩ | ⟨_, c, e⟩ | ⟨_, _, _, _, _, e, _⟩
  · cases e.symm.trans ht; simp at hte
  · cases e.symm.trans ht; exact ⟨c, rfl⟩
  · cases e.symm.trans ht; simp [he] at hte

theorem State.raise_irq (s : State) (e : CmdError) : (s.raise e).irq = (s.doneIe || s.errIe) := by
  simp [State.irq]

theorem State.statusWrite_irq_false {s : State} {v : Word} (h : s.irq = true) (hv : (s.statusWrite v).irq = false) :
    v.getLsbD 1 = true ∧ (s.err = false ∨ s.errIe = false) := by
  obtain ⟨hdone, herr⟩ := Bool.or_eq_false_iff.1 hv
  have herr : s.err = false ∨ s.errIe = false := Bool.and_eq_false_iff.1 herr
  have hcause : s.done = true ∧ s.doneIe = true :=
    (State.irq_iff.1 h).resolve_right fun ⟨h₁, h₂⟩ => by simp [h₁, h₂] at herr
  exact ⟨by simpa [hcause] using hdone, herr⟩

theorem State.intEnWrite_irq_iff {s : State} {v : Word} :
    (s.intEnWrite v).irq = true ↔ (s.done = true ∧ v.getLsbD 0 = true) ∨ (s.err = true ∧ v.getLsbD 1 = true) := by
  rw [State.irq_iff]; rfl

/-- An INT_EN write after which IRQ is low has masked the error cause, if that is present. -/
theorem State.intEnWrite_irq_false {s : State} {v : Word} (hv : (s.intEnWrite v).irq = false) (he : s.err = true) :
    v.getLsbD 1 = false := by
  simp only [State.irq, State.intEnWrite_err, State.intEnWrite_errIe, he, Bool.true_and, Bool.or_eq_false_iff] at hv
  exact hv.2

/-- A step at which IRQ falls in a PNGE state, by the event it takes: the error's way out, an INT_EN write, a STATUS write
that clears DONE, or the acceptance of a command. Nothing else moves IRQ down: an ENGINE's turn starts with it low. -/
theorem irq_falls {s t : State} (h : s.Inv) (hi : s.irq = true) (ht : step s = .next t) (hti : t.irq = false) :
    ∃ e r, s.script = e :: r ∧
      (e.clearsError = true ∨
        (∃ v : Word, e = .host (.write Reg.intEn.offset 4 v) ∧ (s.err = true → s.errIe = true → v.getLsbD 1 = false)) ∨
        ((∃ v : Word, e = .host (.write Reg.status.offset 4 v) ∧ v.getLsbD 1 = true) ∧ (s.err = false ∨ s.errIe = false)) ∨
        ((∃ w : Word, e = .host (.write Reg.cmd.offset 4 w)) ∧ s.busy = false ∧ s.err = false)) := by
  have kept : t.irq ≠ s.irq := by simp [hi, hti]
  rcases s.head_clearsError_or with hc | ⟨e, r, hs, hce⟩
  · rcases step_cases ht hc with ⟨_, rfl, _⟩ | ⟨hb, _⟩ | ⟨a, r, hs, q, ⟨_, _, rfl⟩, hq⟩
    · exact absurd rfl kept
    · simp [h.irq_busy hb] at hi
    · refine ⟨_, r, hs, ?_⟩
      rcases hq with rfl | ⟨_, rfl⟩ | ⟨_, _, _, _, _, _, rfl⟩ | ⟨v, rfl, rfl⟩ | ⟨v, rfl, rfl⟩ |
        ⟨w, rfl, _, ⟨_, rfl⟩ | ⟨hb, he, rfl⟩⟩
      · exact absurd rfl kept
      · exact absurd rfl kept
      · exact absurd rfl kept
      · obtain ⟨hv, he⟩ := State.statusWrite_irq_false hi hti
        exact .inr (.inr (.inl ⟨⟨v, rfl, hv⟩, he⟩))
      · exact .inr (.inl ⟨v, rfl, fun he _ => State.intEnWrite_irq_false hti he⟩)
      · exact absurd rfl kept
      · exact .inr (.inr (.inr ⟨⟨w, rfl⟩, hb, he⟩))
  · exact ⟨e, r, hs, .inl hce⟩

/-! ### The statements -/

/-- Settles O3: each of the three kinds of step keeps the invariant, one named update at a time. -/
theorem stepKeepsInvariant : Obligations.StepKeepsInvariant := fun _ _ h ht => h.step ht

/-- Settles O4: the invariant and the parameters, kept by every step, hold at the end of every run from reset. -/
theorem statusInvariantsOnEveryRun : Obligations.StatusInvariantsOnEveryRun := by
  intro p d k es t hp hrun
  have hreset : ((State.resetWith p d).withScript es).Inv := { inv_resetWith hp d with }
  obtain ⟨hinv, hparams⟩ := safeRun_induct (P := fun u => u.Inv ∧ u.params = p)
    (fun _ _ ⟨h, hp⟩ ht => ⟨h.step ht, (step_params ht).trans hp⟩) ⟨hreset, rfl⟩ hrun
  exact ⟨hinv.noCode, hinv.busyDone, hinv.outLen, hinv.errCode_le, hparams⟩

/-- Settles O43: the answer is the register's defined value, register by register. -/
theorem registerReadValues : Obligations.RegisterReadValues := by
  intro s r es hs hv
  refine ⟨s.regView r, step_regRead hs (hv.imp_right Reg.volatile_eq_false), ?_⟩
  refine ⟨?_, ?_, ?_, ?_, ?_, ?_, ?_, ?_, ?_, ?_, ?_, ?_, ?_⟩ <;> rintro rfl <;> rfl

/-- Settles O44: such a write reaches a register that ignores it, or no register at all. -/
theorem readOnlyAndReservedOffsets : Obligations.ReadOnlyAndReservedOffsets := by
  refine ⟨?_, ?_, ?_⟩
  · intro s r v es hr hs
    rw [step_regWrite hs, State.regWrite_readOnly _ _ hr]
  · intro s off v es ha hlo hhi hs
    exact step_reservedWrite ha hlo hhi hs
  · intro s off es ha hlo hhi hs
    exact step_reservedRead ha hlo hhi hs

/-- Settles O47: a clause per cause and per way down; that IRQ falls nowhere else is `irq_falls`. -/
theorem interruptLevel : Obligations.InterruptLevel := by
  refine ⟨fun _ => State.irq_iff, ?completion, ?error, ?status, ?intEn, ?command, ?reset, ?falls⟩
  case completion =>
    intro i s t hi ht hie
    obtain ⟨hd, hde⟩ := exec_done hi ht
    exact State.irq_iff.2 (.inl ⟨hd, hde.trans hie⟩)
  case error =>
    intro i s t he ht hte
    obtain ⟨e, rfl⟩ := exec_raised he ht hte
    exact ⟨rfl, fun h => by simpa [State.raise_irq] using h⟩
  case status =>
    intro s t v r hs hv he ht
    cases (step_regWrite hs).symm.trans ht
    rcases he with he | he <;> simp [State.irq, State.regWrite, hv, he]
  case intEn =>
    intro s t v r hs ht
    cases (step_regWrite hs).symm.trans ht
    exact State.intEnWrite_irq_iff
  case command =>
    intro s t w r hs hw hb he ht
    cases (step_accept hs hw hb he).symm.trans ht
    exact State.irq_eq_false rfl he
  case reset =>
    intro s t e r hs hce ht
    rcases step_clearsError hs hce ht with ⟨_, rfl⟩ | rfl <;> exact State.irq_eq_false rfl rfl
  case falls => exact fun _ _ h hi ht hti => irq_falls h hi ht hti

/-- Settles O55: of the host's writes only CMD's starts anything, and a command's step writes its own fields alone. -/
theorem hostAndEngineWriteTheirOwn : Obligations.HostAndEngineWriteTheirOwn := by
  refine ⟨?host, ?engine⟩
  case host =>
    intro s t a es hs ht hc
    have hc : ∀ e ∈ s.script.head?, Event.clearsError e = false := by simpa [hs] using hc
    rcases step_cases ht hc with ⟨_, _, h⟩ | ⟨_, h, _⟩ | ⟨_, _, _, _, ⟨_, _, rfl⟩, hq⟩
    · simp [hs] at h
    · simp [hs] at h
    · rcases hq with rfl | ⟨_, rfl⟩ | ⟨_, _, _, _, _, _, rfl⟩ | ⟨_, _, rfl⟩ | ⟨_, _, rfl⟩ |
        ⟨_, _, _, ⟨_, rfl⟩ | ⟨_, _, rfl⟩⟩ <;> exact ⟨rfl, rfl, rfl, rfl, rfl⟩
  case engine =>
    intro s t ht
    rcases engineTurn_cases s with ⟨_, e⟩ | ⟨_, _, e⟩ | ⟨_, i, _, e⟩ <;> rw [e] at ht
    · cases ht; simp
    · cases ht; simp
    · rcases exec_cases i s with ⟨_, e⟩ | ⟨_, _, e⟩ | ⟨_, _, _, _, _, e, _⟩ <;> cases e.symm.trans ht <;> simp

/-- Settles O2: `State.reset` is one legal choice of the parameters. -/
theorem invariantHoldsAtReset : Obligations.InvariantHoldsAtReset :=
  ⟨fun _ d hp => inv_resetWith hp d, inv_resetWith (by decide) 0⟩

/-- Settles O41: every field of the STATUS word is a case of its bits; the write keeps or clears flag by flag. -/
theorem statusWordAndWrite : Obligations.StatusWordAndWrite := by
  refine ⟨fun s => ⟨?_, ?_, ?_, ?_, ?reservedLow, ?code, ?reservedHigh⟩, ?write⟩
  case reservedLow =>
    exact s.statusWord_extractLsb' (by decide) (by decide) fun i hi => by simp [show ¬ 8 ≤ 4 + i by omega]
  case code => exact s.statusWord_extractLsb' (by decide) (by decide) fun i _ => by simp
  case reservedHigh =>
    exact s.statusWord_extractLsb' (by decide) (by decide) fun i _ => by simp [show 4 ≤ 12 + i - 8 by omega]
  case write =>
    intro s v r hs
    rw [step_regWrite hs]
    exact congrArg Host.Outcome.next (State.statusWrite_eq v _)
  all_goals
    rw [s.statusWord_getLsbD (by decide)]
    simp

/-- Settles O42: INT_EN is never locked, and the four configuration registers are not while BUSY = 0. -/
theorem registerWritesReadBack : Obligations.RegisterWritesReadBack := by
  refine ⟨?intEn, ?config⟩
  case intEn =>
    intro s v r hs
    exact ⟨_, step_regWrite hs, State.intEnWord_intEnWrite v _, rfl⟩
  case config =>
    intro s v r hb
    refine ⟨?_, ?_, ?_, ?_, fun t => ⟨rfl, rfl, rfl, rfl⟩⟩ <;> intro hs <;>
      simp [step_regWrite hs, State.regWrite, State.locked_idle, hb]

end Sys2Proof.Machine
end

section
/-! SUPPORT. The facts the statements of 20_memory.md rest on: the bytes of a word on the bus, exactly which accesses are
no bus error, a step with a host read or write next, and what a step can do while a command is pending. -/

namespace Sys2Proof.Machine

/-! ### The bytes of a word -/

/-- A width-4 read holds its four bytes lowest index first (20_memory.md R65, R66, R68). -/
theorem Memory.value_extractLsb' (m : Memory) (i : Nat) {j : Nat} (hj : j < 4) :
    (m.value i 4).extractLsb' (8 * j) 8 = m.read (i + j) := by
  apply BitVec.eq_of_getLsbD_eq
  intro k hk
  simp only [Memory.value, if_neg (show ¬ 4 = 1 by decide), ofLe32, BitVec.getLsbD_extractLsb', BitVec.getLsbD_or,
    BitVec.getLsbD_shiftLeft, BitVec.getLsbD_setWidth]
  -- Of the four bytes put together, only byte `j` has a bit at `8j + k`: a byte has none past bit 7.
  obtain rfl | rfl | rfl | rfl : j = 0 ∨ j = 1 ∨ j = 2 ∨ j = 3 := by omega
  · grind
  · grind
  · grind
  · grind

/-- Byte `j` of a write is bits `8j + 7` to `8j` of its value (20_memory.md R65). -/
theorem storedBytes_getElem {n : Nat} (hn : n = 1 ∨ n = 4) (v : Word) {j : Nat} (hj : j < (storedBytes n v).length) :
    (storedBytes n v)[j] = v.extractLsb' (8 * j) 8 := by
  rcases hn with rfl | rfl
  · obtain rfl : j = 0 := by simpa [storedBytes] using hj
    rfl
  · have hj : j < 4 := hj
    obtain rfl | rfl | rfl | rfl : j = 0 ∨ j = 1 ∨ j = 2 ∨ j = 3 := by omega
    all_goals rfl

/-! ### Bus errors, exactly -/

/-- An access the address map allows: a register by width 4, a byte or an aligned word of the RAW window, or, for a read,
of the OUT window (20_memory.md R62 to R67). -/
def BusLegal (p : Params) (isWrite : Bool) (off : Offset) (n : Nat) : Prop :=
  (n = 4 ∧ off.toNat % 4 = 0 ∧ off.toNat < 0x1000) ∨
    ((n = 1 ∨ n = 4 ∧ off.toNat % 4 = 0) ∧ 0x400000 ≤ off.toNat ∧ off.toNat < 0x400000 + p.rawCap) ∨
    (isWrite = false ∧ (n = 1 ∨ n = 4 ∧ off.toNat % 4 = 0) ∧ 0x800000 ≤ off.toNat ∧ off.toNat < 0x800000 + p.outCap)

/-- An offset at or past a window's base is that base and an index. -/
theorem offset_eq_base_add {off : Offset} {base : Nat} (h : base ≤ off.toNat) :
    off = BitVec.ofNat 24 (base + (off.toNat - base)) := by
  rw [Nat.add_sub_cancel' h, BitVec.ofNat_toNat, BitVec.setWidth_eq]

/-- An access of width 4 that is no bus error is aligned (20_memory.md R63). -/
theorem target_aligned {p : Params} {w : Bool} {off : Offset} {t : Target} (h : target p w off 4 = some t) :
    off.toNat % 4 = 0 := by
  by_contra ha
  simp [target, ha] at h

/-- The decoder of accesses answers exactly for the accesses the address map allows. -/
theorem target_isSome_iff {p : Params} (hp : p.wf = true) {w : Bool} {off : Offset} {n : Nat} :
    (∃ t, target p w off n = some t) ↔ BusLegal p w off n := by
  constructor
  · rintro ⟨t, h⟩
    obtain ⟨hn, hb⟩ := target_bounds h
    have widths : n = 1 ∨ n = 4 ∧ off.toNat % 4 = 0 := hn.imp_right fun h4 => ⟨h4, target_aligned (h4 ▸ h)⟩
    rcases hb with ⟨h4, _, hi, ha⟩ | ⟨_, hlo, hhi⟩ | ⟨hw, _, hlo, hhi⟩
    · exact .inl ⟨h4, ha, by omega⟩
    · unfold rawBase at hlo hhi
      exact .inr (.inl ⟨widths, hlo, by omega⟩)
    · unfold outBase at hlo hhi
      exact .inr (.inr ⟨hw, widths, hlo, by omega⟩)
  · rintro (⟨rfl, ha, hi⟩ | ⟨hn, hlo, hhi⟩ | ⟨rfl, hn, hlo, hhi⟩)
    · exact ⟨_, target_registers p w ha hi⟩
    · rw [offset_eq_base_add hlo]
      exact ⟨_, target_rawWindow w hp (by omega) (by omega)⟩
    · rw [offset_eq_base_add hlo]
      exact ⟨_, target_outWindow false hp (by omega) (by omega)⟩

theorem target_eq_none_iff {p : Params} (hp : p.wf = true) {w : Bool} {off : Offset} {n : Nat} :
    target p w off n = none ↔ ¬ BusLegal p w off n := by
  rw [← target_isSome_iff hp, Option.eq_none_iff_forall_ne_some, not_exists]

/-- No write to the OUT window is legal, of any width (20_memory.md R66). -/
theorem not_busLegal_outWrite {p : Params} (hp : p.wf = true) {off : Offset} {n : Nat} (h : 0x800000 ≤ off.toNat) :
    ¬ BusLegal p true off n := by
  have hr := Params.rawCap_bounds hp
  rintro (⟨_, _, hi⟩ | ⟨_, _, hi⟩ | ⟨hw, _⟩)
  · omega
  · omega
  · cases hw

/-- What 20_memory.md R71 calls unspecified while BUSY = 1: a register that the ENGINE may be moving, read by width 4, or a
byte or word of OUT_MEM. -/
def Target.Volatile (n : Nat) (g : Target) : Prop :=
  (∃ r : Reg, g = .reg r.offset.toNat ∧ r.volatile = true ∧ n = 4) ∨ ∃ i, g = .out i

/-! ### A step with a host access next -/

section
variable {s : State} {off : Offset} {n : Nat} {v : Word} {g : Target} {es : List Event}

theorem step_read (h : s.script = .host (.read off n) :: es) (hg : target s.params false off n = some g) :
    step s = .next { (readTarget { s with script := es } n g).2 with
      reply := some (.data (readTarget { s with script := es } n g).1) } := by
  rw [step_host h]
  simp only [hostAccess, hg]

theorem step_write (h : s.script = .host (.write off n v) :: es) (hg : target s.params true off n = some g) :
    step s = .next (writeTarget { s with script := es, reply := some .ok } n v g) := by
  rw [step_host h]
  simp [hostAccess, hg]

/-- A host access is a bus error where the decoder of accesses has no answer, and else answers a next state. -/
theorem hostAccess_outcome {a : Access} {w : Bool}
    (ha : (w = false ∧ a = .read off n) ∨ (w = true ∧ ∃ v, a = .write off n v)) (s : State) :
    (target s.params w off n = none ∧ hostAccess a s = .fault (.busError a)) ∨
      (target s.params w off n ≠ none ∧ ∃ t, hostAccess a s = .next t) := by
  rcases hg : target s.params w off n with _ | g <;> rcases ha with ⟨rfl, rfl⟩ | ⟨rfl, v, rfl⟩
  · exact .inl ⟨rfl, by simp [hostAccess, hg]⟩
  · exact .inl ⟨rfl, by simp [hostAccess, hg]⟩
  · exact .inr ⟨nofun, by simp [hostAccess, hg]⟩
  · exact .inr ⟨nofun, by simp [hostAccess, hg]⟩

/-- A read of the RAW window, in every state (20_memory.md R65). -/
theorem step_rawRead {i : Nat} (hp : s.params.wf = true) (hn : n = 1 ∨ n = 4 ∧ i % 4 = 0) (hi : i < s.params.rawCap)
    (h : s.script = .host (.read (BitVec.ofNat 24 (0x400000 + i)) n) :: es) :
    step s = .next { s with script := es, reply := some (.data (s.rawMem.value i n)) } :=
  step_read h (target_rawWindow false hp hn hi)

/-- A read of the OUT window while BUSY = 0 (20_memory.md R66). -/
theorem step_outRead {i : Nat} (hp : s.params.wf = true) (hn : n = 1 ∨ n = 4 ∧ i % 4 = 0) (hi : i < s.params.outCap)
    (hb : s.busy = false) (h : s.script = .host (.read (BitVec.ofNat 24 (0x800000 + i)) n) :: es) :
    step s = .next { s with script := es, reply := some (.data (s.outMem.value i n)) } := by
  rw [step_read h (target_outWindow false hp hn hi)]
  simp [readTarget, hb]

/-- A write to the RAW window: its bytes, or a drop while BUSY = 1 (20_memory.md R65, R70). -/
theorem step_rawWrite {i : Nat} (hp : s.params.wf = true) (hn : n = 1 ∨ n = 4 ∧ i % 4 = 0) (hi : i < s.params.rawCap)
    (h : s.script = .host (.write (BitVec.ofNat 24 (0x400000 + i)) n v) :: es) :
    step s = .next (if s.busy then { s with script := es, reply := some .ok, drop := true }
      else { s with script := es, reply := some .ok, rawMem := s.rawMem.writeBytes i (storedBytes n v) }) :=
  step_write h (target_rawWindow true hp hn hi)

/-- A read of a volatile target while BUSY = 1 is a draw. -/
theorem readTarget_volatile (hb : s.busy = true) (hg : g.Volatile n) : readTarget s n g = s.freshValue n := by
  rcases hg with ⟨r, rfl, hr, rfl⟩ | ⟨i, rfl⟩
  · simp [readTarget, hb, hr]
  · simp [readTarget, hb]

end

/-! ### A pending command -/

/-- The events by which the error state ends are these two (60_exceptions.md R238). -/
theorem Event.clearsError_iff {e : Event} :
    e.clearsError = true ↔ e = .reset ∨ e = .host (.write Reg.cmd.offset 4 0x000000FF) := by
  rcases e with (_ | ⟨off, n, w⟩) | _ | _ <;> simp [Event.clearsError, and_assoc]

/-- `u` is `s` but for what the host may still move while the command of `s` is pending: the events to come, its answer,
the draws, and the flags and enables of STATUS and INT_EN (20_memory.md R70, R71). -/
def State.HostMoved (s u : State) : Prop :=
  ∃ es rep draws drop done doneIe errIe, u = { s with
    script := es, reply := rep, draws := draws, drop := drop, done := done, doneIe := doneIe, errIe := errIe }

theorem State.HostMoved.refl (s : State) : s.HostMoved s := ⟨_, _, _, _, _, _, _, rfl⟩

theorem State.HostMoved.trans {s u t : State} (h : s.HostMoved u) (h' : u.HostMoved t) : s.HostMoved t := by
  obtain ⟨_, _, _, _, _, _, _, rfl⟩ := h
  obtain ⟨_, _, _, _, _, _, _, rfl⟩ := h'
  exact ⟨_, _, _, _, _, _, _, rfl⟩

theorem State.HostMoved.busy {s u : State} (h : s.HostMoved u) : u.busy = s.busy := by
  obtain ⟨_, _, _, _, _, _, _, rfl⟩ := h
  rfl

theorem ofOpcode_softReset {opc imm : Byte} (h : ofOpcode opc imm = some .softReset) : opc = 0xFF := by
  unfold ofOpcode at h
  split at h
  case h_12 => exact BitVec.eq_of_toNat_eq ‹_›
  all_goals cases h

/-- SOFT_RESET is the one word 0x000000FF (30_encoding.md R96). -/
theorem decode_softReset {w : Word} (h : decode w = .ok .softReset) : w = 0x000000FF#32 := by
  unfold decode at h
  split at h
  · cases h
  · rename_i i hi
    split at h
    · cases h
    · split at h
      · cases h
      · cases h
        have hopc := ofOpcode_softReset hi
        have hrsv : rsvField w = 0 := not_not.1 ‹_›
        have himm : immField w = 0 := by simpa [hopc] using ‹¬(immField w ≠ 0 ∧ opcField w ≠ 0x02)›
        rw [← fields_append w, hopc, hrsv, himm]
        rfl

/-- No SOFT_RESET is pending in a PNGE state. -/
theorem State.Inv.decode_pending {s : State} (h : s.Inv) (hb : s.busy = true) : decode s.pending ≠ .ok .softReset :=
  fun hd => h.pending hb (decode_softReset hd)

/-- The ENGINE's step with a legal word pending. -/
theorem step_decoded {s : State} {i : Instr} (hs : s.script = [] ∨ s.script.head? = some .engine) (hb : s.busy = true)
    (hd : decode s.pending = .ok i) : step s = exec i s.advance := by
  rw [step_engine hs]
  exact engineTurn_decoded hb hd

/-- The ENGINE's step with an illegal word pending (30_encoding.md R95). -/
theorem step_illegal {s : State} (hs : s.script = [] ∨ s.script.head? = some .engine) (hb : s.busy = true)
    (hd : ∀ i, decode s.pending ≠ .ok i) : step s = .next (s.advance.raise .badCmd) := by
  rw [step_engine hs]
  rcases engineTurn_cases s.advance with ⟨hi, _⟩ | ⟨_, _, e⟩ | ⟨_, i, hi, _⟩
  · exact absurd hb (by simpa using hi)
  · exact e
  · exact absurd hi (hd i)

/-- A step while a command is pending that is no reset: the host moves none of the command's operands, or the ENGINE's turn
ends it. -/
theorem step_pending_cases {s t : State} (hb : s.busy = true) (ht : step s = .next t)
    (hc : ∀ e ∈ s.script.head?, Event.clearsError e = false) :
    s.HostMoved t ∨ ((s.script = [] ∨ s.script.head? = some .engine) ∧
      ((∃ e, t = s.advance.raise e) ∨ (decode s.pending = .ok .softReset ∧ t = s.advance.softReset) ∨
        ∃ c m l, t = ({ s.advance with crcState := c, outMem := m, outLen := l } : State).complete)) := by
  rcases step_cases ht hc with ⟨hi, _⟩ | ⟨_, hs, h⟩ | ⟨_, _, _, _, ⟨_, _, rfl⟩, hq⟩
  · simp [hb] at hi
  · exact .inr ⟨hs, h⟩
  · rcases hq with rfl | ⟨_, rfl⟩ | ⟨hi, _⟩ | ⟨_, _, rfl⟩ | ⟨_, _, rfl⟩ | ⟨_, _, _, ⟨_, rfl⟩ | ⟨hi, _⟩⟩
    · exact .inl ⟨_, _, _, _, _, _, _, rfl⟩
    · exact .inl ⟨_, _, _, _, _, _, _, rfl⟩
    · simp [hb] at hi
    · exact .inl ⟨_, _, _, _, _, _, _, rfl⟩
    · exact .inl ⟨_, _, _, _, _, _, _, rfl⟩
    · exact .inl ⟨_, _, _, _, _, _, _, rfl⟩
    · simp [hb] at hi

/-- A PNGE busy at first and idle at the end of a run without a reset has, in between, a step of the ENGINE next to which the
host has moved none of the command's operands and which ends the command (20_memory.md R76). -/
theorem exists_completing_step {k : Nat} {s t : State} (h : s.Inv) (hb : s.busy = true) (hrun : SafeRun k s t)
    (hi : t.busy = false) (hc : ∀ e ∈ s.script, Event.clearsError e = false) :
    ∃ j u v, j < k ∧ SafeRun j s u ∧ s.HostMoved u ∧ (u.script = [] ∨ u.script.head? = some .engine) ∧
      step u = .next v ∧ v.busy = false ∧ v.done = true := by
  induction k generalizing s with
  | zero =>
    obtain rfl := safeRun_zero.1 hrun
    simp [hb] at hi
  | succ k ih =>
    obtain ⟨r, hr, hrun⟩ := safeRun_succ.1 hrun
    rcases step_pending_cases hb hr fun e he => hc e (List.mem_of_mem_head? he) with hm | ⟨hs, hend⟩
    · have hrc : ∀ e ∈ r.script, Event.clearsError e = false := fun e he =>
        hc e (List.mem_of_mem_tail (step_script hr ▸ he))
      obtain ⟨j, u, v, hj, hu, hmu, hend⟩ := ih (h.step hr) (hm.busy.trans hb) hrun hrc
      exact ⟨j + 1, u, v, by omega, safeRun_succ.2 ⟨r, hr, hu⟩, hm.trans hmu, hend⟩
    · refine ⟨0, s, r, Nat.succ_pos k, safeRun_zero.2 rfl, .refl s, hs, hr, ?_⟩
      rcases hend with ⟨_, rfl⟩ | ⟨hd, _⟩ | ⟨_, _, _, rfl⟩
      · exact ⟨rfl, rfl⟩
      · exact absurd hd (h.decode_pending hb)
      · exact ⟨rfl, rfl⟩

/-! ### ENCODE and the host's side of the state -/

/-- The state an ENCODE whose stream is `p` leaves when `p` fits OUT_MEM (43_encode.md R190). -/
def State.encoded (p : Bytes) (s : State) : State :=
  State.complete { s with
    outMem := s.outMem.writeBytes 0 p, outLen := BitVec.ofNat 32 p.length, crcState := crcRun crcInitValue tagIEND }

section
variable {s : State} {z p : Bytes}

theorem exec_encode_refused {e : CmdError} (hz : s.idatPayload = .error e) : exec .encode s = .next (s.raise e) := by
  simp [exec, execEncode, encodeBody, hz]

theorem exec_encode_overflow (hz : s.idatPayload = .ok z) (hp : pngStream s.width s.height z = p)
    (h : s.params.outCap < p.length) : exec .encode s = .next (s.raise .outOvf) := by
  rcases outReplace_cases p s with ⟨_, e⟩ | ⟨hfit, _⟩
  · simp [exec, execEncode, encodeBody, hz, hp, e]
  · omega

theorem exec_encode_fits (hz : s.idatPayload = .ok z) (hp : pngStream s.width s.height z = p)
    (h : p.length ≤ s.params.outCap) : exec .encode s = .next (s.encoded p) := by
  rcases outReplace_cases p s with ⟨hovf, _⟩ | ⟨_, e⟩
  · omega
  · simp [exec, execEncode, encodeBody, hz, hp, e, State.encoded]

end

/-- ENCODE reads nothing of the events to come, the host's answer and DROP, and leaves them, and WIDTH, as they are. -/
theorem exec_encode_hostSide (s : State) :
    ∃ t : State, t.busy = false ∧ t.width = s.width ∧ ∀ (es : List Event) (rep : Option Reply) (d : Bool),
      exec .encode { s with script := es, reply := rep, drop := d } =
        .next { t with script := es, reply := rep, drop := d } := by
  rcases hz : s.idatPayload with e | z
  · exact ⟨s.raise e, rfl, rfl, fun _ _ _ => exec_encode_refused hz⟩
  · generalize hp : pngStream s.width s.height z = p
    rcases Nat.lt_or_ge s.params.outCap p.length with h | h
    · exact ⟨s.raise .outOvf, rfl, rfl, fun _ _ _ => exec_encode_overflow hz hp h⟩
    · exact ⟨s.encoded p, rfl, rfl, fun _ _ _ => exec_encode_fits hz hp h⟩

/-! ### The statements -/

/-- Settles O16: the two cases of OutAppend; the new OUT_LEN is exact because OUT_CAP is below 2^32. -/
theorem outAppendAppendsOrOverflows : Obligations.OutAppendAppendsOrOverflows := by
  refine ⟨?overflow, ?append, ?empty⟩
  case overflow =>
    intro b s h
    rcases outAppend_cases b s with ⟨_, e⟩ | ⟨hfit, _⟩
    · exact e
    · omega
  case append =>
    intro b s hp h
    have hcap := Params.outCap_bounds hp
    rcases outAppend_cases b s with ⟨hovf, _⟩ | ⟨_, e⟩
    · omega
    · refine ⟨_, e, ⟨Memory.readBytes_writeBytes _ _ _, fun a ha => Memory.read_writeBytes_out _ _ _ ha⟩, ?_, rfl⟩
      rw [BitVec.toNat_ofNat, Nat.mod_eq_of_lt (by omega)]
  case empty =>
    intro s h
    rcases outAppend_cases [] s with ⟨hovf, _⟩ | ⟨_, e⟩
    · exact absurd h.outLen (by simpa using hovf)
    · rw [e]
      simp [Memory.writeBytes]

/-- Settles O45: the access reaches a volatile target, which is read by a draw. -/
theorem volatileReadsWhileBusy : Obligations.VolatileReadsWhileBusy := by
  intro s off n es hb hs hacc hp
  obtain ⟨g, hg, hv⟩ : ∃ g, target s.params false off n = some g ∧ g.Volatile n := by
    rcases hacc with ⟨rfl, hr⟩ | ⟨hn, hlo, hhi⟩
    · rcases hr with rfl | rfl | rfl
      · exact ⟨_, target_regOffset _ _ .crcState, .inl ⟨.crcState, rfl, rfl, rfl⟩⟩
      · exact ⟨_, target_regOffset _ _ .crcResult, .inl ⟨.crcResult, rfl, rfl, rfl⟩⟩
      · exact ⟨_, target_regOffset _ _ .outLen, .inl ⟨.outLen, rfl, rfl, rfl⟩⟩
    · rw [offset_eq_base_add hlo]
      exact ⟨_, target_outWindow false hp (by omega) (by omega), .inr ⟨_, rfl⟩⟩
  rw [step_read hs hg, readTarget_volatile (s := { s with script := es }) hb hv, State.freshValue]
  rfl -- Bits 7:0 of the draw are its truncation to 8 bits by definition.

/-- Settles O46: a read answers, and draws only while BUSY = 1. -/
theorem readsHaveNoSideEffect : Obligations.ReadsHaveNoSideEffect := by
  intro s t off n es hs ht
  rw [step_host hs] at ht
  rcases hostAccess_next ht with ⟨_, _, _, _, rfl | ⟨hb, rfl⟩⟩ | ⟨_, _, _, _, he, _⟩
  · exact ⟨rfl, fun _ => rfl⟩
  · exact ⟨rfl, fun hi => by simp [hi] at hb⟩
  · cases he

/-- Settles O48: the access reaches RAW_MEM at its index, and a write there is locked while BUSY = 1. -/
theorem rawWindowAccess : Obligations.RawWindowAccess := by
  refine ⟨?byte, ?word, ?write, ?locked⟩
  case byte =>
    intro s i es hp hi hs
    exact step_rawRead hp (.inl rfl) hi hs
  case word =>
    intro s i es hp ha hi hs
    exact ⟨_, step_rawRead hp (.inr ⟨rfl, ha⟩) hi hs, fun j hj => s.rawMem.value_extractLsb' i hj⟩
  case write =>
    intro s i n v es hp hn hi hb hs
    have width : n = 1 ∨ n = 4 := hn.imp_right And.left
    have len := storedBytes_length width v
    refine ⟨{ s with script := es, reply := some .ok, rawMem := s.rawMem.writeBytes i (storedBytes n v) },
      by simp [step_rawWrite hp hn hi hs, hb], rfl, ?_, ?_⟩
    · intro j hj
      rw [Memory.read_writeBytes_in _ _ _ (len.symm ▸ hj), storedBytes_getElem width]
    · intro a ha
      exact Memory.read_writeBytes_out _ _ _ (len.symm ▸ ha)
  case locked =>
    intro s i n v es hp hn hi hb hs
    simp [step_rawWrite hp hn hi hs, hb]

/-- Settles O49: a read reaches OUT_MEM at its index; the address map allows no write there. -/
theorem outWindowAccess : Obligations.OutWindowAccess := by
  refine ⟨?byte, ?word, ?write⟩
  case byte =>
    intro s i es hp hi hb hs
    exact step_outRead hp (.inl rfl) hi hb hs
  case word =>
    intro s i es hp ha hi hb hs
    exact ⟨_, step_outRead hp (.inr ⟨rfl, ha⟩) hi hb hs, fun j hj => s.outMem.value_extractLsb' i hj⟩
  case write =>
    intro s off n v es hlo _ hp hs
    rw [step_host hs]
    simp [hostAccess, (target_eq_none_iff hp).2 (not_busLegal_outWrite hp hlo)]

/-- Settles O50: a step with a host access next faults exactly where the decoder of accesses has no answer. -/
theorem busErrorsExactly : Obligations.BusErrorsExactly := by
  intro s a es w off n hp hs ha
  rw [step_host hs]
  change (_ ↔ ¬ BusLegal s.params w off n) ∧ _
  rw [← target_eq_none_iff hp]
  rcases hostAccess_outcome ha { s with script := es } with ⟨hg, e⟩ | ⟨hg, t, e⟩
  · exact ⟨iff_of_true e hg, fun h => absurd e h⟩
  · exact ⟨iff_of_false (by simp [e]) hg, fun _ => ⟨t, e⟩⟩

/-- Settles O54: the host's accesses move none of the operands, the ENGINE's turn writes only its own fields, and the
SOFT_RESET write aborts. -/
theorem inputsLockedWhileBusy : Obligations.InputsLockedWhileBusy := by
  intro s t hb ht hr
  rcases s.head_clearsError_or with hc | ⟨e, r, hs, hce⟩
  · rcases step_pending_cases hb ht hc with ⟨_, _, _, _, _, _, _, rfl⟩ | ⟨_, ⟨_, rfl⟩ | ⟨hd, rfl⟩ | ⟨_, _, _, rfl⟩⟩
    · exact ⟨rfl, rfl, rfl, rfl, rfl, fun _ => .inl rfl⟩
    · exact ⟨rfl, rfl, rfl, rfl, rfl, fun _ => .inl rfl⟩
    · exact ⟨rfl, rfl, rfl, rfl, rfl, fun h => absurd hd (h.decode_pending hb)⟩
    · exact ⟨rfl, rfl, rfl, rfl, rfl, fun _ => .inl rfl⟩
  · obtain rfl : e = .host (.write Reg.cmd.offset 4 0x000000FF) :=
      (Event.clearsError_iff.1 hce).resolve_left fun he => hr (by simp [hs, he])
    cases (step_regWrite hs).symm.trans ht
    exact ⟨rfl, rfl, rfl, rfl, rfl, fun _ => .inr ⟨by simp [hs], rfl, rfl⟩⟩

/-- Settles O56: the first step that ends with BUSY = 0 is the ENGINE's turn on the word that was pending at first. -/
theorem idleAgainMeansCompleted : Obligations.IdleAgainMeansCompleted := by
  intro s t k h hb hrun hi hc
  obtain ⟨j, u, v, hj, hu, ⟨_, _, _, _, _, _, _, rfl⟩, hs, hv, hvb, hvd⟩ := exists_completing_step h hb hrun hi hc
  refine ⟨j, _, v, hj, hu, hv, hb, rfl, rfl, rfl, rfl, rfl, rfl, rfl, rfl, rfl, hs, ?legal, ?illegal, hvb, hvd⟩
  case legal =>
    intro i hd
    exact step_decoded hs hb hd
  case illegal =>
    intro hd
    cases (step_illegal hs hb hd).symm.trans hv
    rfl

/-- Settles O40: both orders perform ENCODE on one state but for the events to come and DROP; the write is dropped when it
comes first and takes effect on the idle state when it comes last. -/
theorem racingWriteHasTwoOutcomes : Obligations.RacingWriteHasTwoOutcomes := by
  intro s v r hb he hd
  obtain ⟨e, heb, hew, henc⟩ := exec_encode_hostSide ({ s with reply := some .ok }.accept 0x20)
  have decoded : decode 0x20#32 = .ok .encode := rfl
  refine ⟨{ e with script := r, reply := some .ok, drop := true },
    { e with script := r, reply := some .ok, drop := s.drop, width := v }, ?dropped, ?last,
    hew, rfl, rfl, hd, rfl, rfl, rfl, rfl⟩
  case dropped =>
    refine safeRun_succ.2 ⟨_, step_accept rfl (by decide) hb he, safeRun_succ.2 ⟨_, step_regWrite rfl, ?_⟩⟩
    refine safeRun_succ.2 ⟨_, (step_decoded (.inr rfl) rfl decoded).trans (henc r _ true), safeRun_zero.2 rfl⟩
  case last =>
    refine safeRun_succ.2 ⟨_, step_accept rfl (by decide) hb he, ?_⟩
    refine safeRun_succ.2 ⟨_, (step_decoded (.inr rfl) rfl decoded).trans (henc _ _ s.drop), ?_⟩
    refine safeRun_succ.2 ⟨_, step_regWrite rfl, safeRun_zero.2 ?_⟩
    simp [State.regWrite, State.locked_idle, heb]

end Sys2Proof.Machine
end

section
/-! SUPPORT. The facts the statements of 30_encoding.md rest on: a command word is its three fields, the decoder inverts the
encoder, which field values a command has, the masks of R93, and the places and byte lists of the host assembly. -/

namespace Sys2Proof

/-! ### The fields of a word -/

theorem word_ext_iff {w w' : Word} :
    w = w' ↔ rsvField w = rsvField w' ∧ immField w = immField w' ∧ opcField w = opcField w' := by
  refine ⟨by rintro rfl; exact ⟨rfl, rfl, rfl⟩, fun ⟨hr, hi, ho⟩ => ?_⟩
  rw [← fields_append w, hr, hi, ho, fields_append]

theorem opcField_and (w m : Word) : opcField (w &&& m) = opcField w &&& opcField m := BitVec.extractLsb'_and

theorem immField_and (w m : Word) : immField (w &&& m) = immField w &&& immField m := BitVec.extractLsb'_and

theorem rsvField_and (w m : Word) : rsvField (w &&& m) = rsvField w &&& rsvField m := BitVec.extractLsb'_and

/-- The match and mask form of a word without operand (30_encoding.md R93). -/
theorem and_highMask_eq_zero_iff {w : Word} : w &&& 0xFFFFFF00#32 = 0 ↔ rsvField w = 0 ∧ immField w = 0 := by
  have rsv : rsvField 0xFFFFFF00#32 = BitVec.allOnes 16 := rfl
  have imm : immField 0xFFFFFF00#32 = BitVec.allOnes 8 := rfl
  have opc : opcField 0xFFFFFF00#32 = 0#8 := rfl
  simp only [word_ext_iff, rsvField_and, immField_and, opcField_and, rsv, imm, opc, BitVec.and_allOnes, BitVec.and_zero]
  exact ⟨fun ⟨hr, hi, _⟩ => ⟨hr, hi⟩, fun ⟨hr, hi⟩ => ⟨hr, hi, rfl⟩⟩

/-- The match and mask form of a CRC_BYTE word (30_encoding.md R93). -/
theorem and_crcByteMask_eq_iff {w : Word} :
    w &&& 0xFFFF00FF#32 = 0x00000002#32 ↔ rsvField w = 0 ∧ opcField w = 0x02 := by
  have rsv : rsvField 0xFFFF00FF#32 = BitVec.allOnes 16 := rfl
  have imm : immField 0xFFFF00FF#32 = 0#8 := rfl
  have opc : opcField 0xFFFF00FF#32 = BitVec.allOnes 8 := rfl
  simp only [word_ext_iff, rsvField_and, immField_and, opcField_and, rsv, imm, opc, BitVec.and_allOnes, BitVec.and_zero]
  exact ⟨fun ⟨hr, _, ho⟩ => ⟨hr, ho⟩, fun ⟨hr, ho⟩ => ⟨hr, rfl, ho⟩⟩

/-- Bits [31:8] of a word are its RSV and IMM8 fields. -/
theorem rsvField_append_immField (w : Word) : (rsvField w ++ immField w : BitVec (16 + 8)) = w.extractLsb' 8 24 :=
  BitVec.extractLsb'_append_extractLsb'_eq_extractLsb' rfl

/-! ### The opcode map -/

theorem ofOpcode_opcode (i : Instr) : ofOpcode (opcode i) (immOf i) = some i := by cases i <;> rfl

/-- Only CRC_BYTE carries an operand (30_encoding.md R92). -/
theorem immOf_eq_zero {i : Instr} (h : opcode i ≠ 0x02) : immOf i = 0 := by
  cases i with
  | crcByte b => exact absurd rfl h
  | _ => rfl

/-- A command the opcode map answers has the opcode asked for, and its operand where it carries one. -/
theorem ofOpcode_eq_some {opc imm : Byte} {i : Instr} (h : ofOpcode opc imm = some i) :
    opcode i = opc ∧ (opcode i = 0x02 → immOf i = imm) := by
  unfold ofOpcode at h
  split at h
  case h_13 => cases h
  all_goals
    cases h
    exact ⟨(BitVec.eq_of_toNat_eq ‹_›).symm, by simp [opcode, immOf]⟩

/-- The three conditions under which the decoder takes a word (30_encoding.md R93). -/
theorem decode_eq_ok_iff {w : Word} {i : Instr} :
    decode w = .ok i ↔ ofOpcode (opcField w) (immField w) = some i ∧ rsvField w = 0 ∧
      ¬ (immField w ≠ 0 ∧ opcField w ≠ 0x02) := by
  unfold decode
  cases ofOpcode (opcField w) (immField w) with
  | none => exact iff_of_false nofun nofun
  | some j =>
    dsimp only
    split_ifs with hr hi
    · exact iff_of_false nofun fun ⟨_, h, _⟩ => hr h
    · exact iff_of_false nofun fun ⟨_, _, h⟩ => h hi
    · exact ⟨fun h => ⟨by cases h; rfl, not_not.1 hr, hi⟩, fun ⟨h, _⟩ => by cases h; rfl⟩

theorem encode_eq_iff {i : Instr} {w : Word} :
    encode i = w ↔ rsvField w = 0 ∧ immOf i = immField w ∧ opcode i = opcField w := by
  rw [word_ext_iff, rsvField_encode, immField_encode, opcField_encode, eq_comm (a := 0)]

theorem decode_encode (i : Instr) : decode (encode i) = .ok i := by
  rw [decode_eq_ok_iff, opcField_encode, immField_encode, rsvField_encode]
  exact ⟨ofOpcode_opcode i, rfl, fun ⟨hi, ho⟩ => hi (immOf_eq_zero ho)⟩

theorem encode_of_decode {w : Word} {i : Instr} (h : decode w = .ok i) : encode i = w := by
  obtain ⟨hi, hr, himm⟩ := decode_eq_ok_iff.1 h
  obtain ⟨ho, hb⟩ := ofOpcode_eq_some hi
  refine encode_eq_iff.2 ⟨hr, ?_, ho⟩
  by_cases h2 : opcode i = 0x02
  · exact hb h2
  · have : immField w = 0 := not_not.1 fun hne => himm ⟨hne, ho ▸ h2⟩
    rw [immOf_eq_zero h2, this]

theorem decode_iff_encode {w : Word} {i : Instr} : decode w = .ok i ↔ encode i = w :=
  ⟨encode_of_decode, by rintro rfl; exact decode_encode i⟩

/-- The CRC_BYTE word as 30_encoding.md R94 writes it, `0x0000bb02`. -/
theorem encode_crcByte (b : Byte) : encode (.crcByte b) = (b.setWidth 32 <<< 8) ||| 0x02 := by
  have high : (0#16 ++ b : BitVec (16 + 8)) = b.setWidth 24 := (BitVec.setWidth_eq_append (by decide)).symm
  rw [encode, immOf, high, BitVec.append_def]
  simp [opcode, BitVec.shiftLeftZeroExtend_eq]

/-! ### The legal words -/

/-- The opcodes of the twelve commands (30_encoding.md R94). -/
def opcodes : List Byte := [0x00, 0x01, 0x02, 0x03, 0x10, 0x11, 0x12, 0x13, 0x14, 0x20, 0x30, 0xFF]

theorem opcode_mem_opcodes (i : Instr) : opcode i ∈ opcodes := by cases i <;> simp [opcode, opcodes]

theorem exists_opcode_eq {o : Byte} (h : o ∈ opcodes) : ∃ i, opcode i = o := by
  have map : opcodes = List.map opcode [.nop, .crcInit, .crcByte 0, .crcBuf, .emitSig, .emitIhdr, .emitIdat, .emitIend,
    .emitChunk, .encode, .outClear, .softReset] := rfl
  obtain ⟨i, _, hi⟩ := List.mem_map.1 (map ▸ h)
  exact ⟨i, hi⟩

theorem mem_opcodes_iff {o : Byte} : o ∈ opcodes ↔ o = 0x02 ∨ o ∈ plainOpcodes := by
  have perm : opcodes.Perm (0x02 :: plainOpcodes) := by decide
  rw [perm.mem_iff, List.mem_cons]

/-- The fields of a word that are a command's: a known opcode, and no operand but CRC_BYTE's. -/
theorem exists_immOf_opcode_iff {imm opc : Byte} :
    (∃ i, immOf i = imm ∧ opcode i = opc) ↔ opc ∈ opcodes ∧ (opc ≠ 0x02 → imm = 0) := by
  constructor
  · rintro ⟨i, rfl, rfl⟩
    exact ⟨opcode_mem_opcodes i, immOf_eq_zero⟩
  · rintro ⟨ho, himm⟩
    by_cases h2 : opc = 0x02
    · exact ⟨.crcByte imm, rfl, h2.symm⟩
    · obtain ⟨i, rfl⟩ := exists_opcode_eq ho
      exact ⟨i, (immOf_eq_zero h2).trans (himm h2).symm, rfl⟩

/-- The words the decoder takes, by their fields (30_encoding.md R93). -/
theorem decodes_iff {w : Word} :
    (∃ i, decode w = .ok i) ↔ rsvField w = 0 ∧ opcField w ∈ opcodes ∧ (opcField w ≠ 0x02 → immField w = 0) := by
  simp only [decode_iff_encode, encode_eq_iff, exists_and_left, exists_immOf_opcode_iff]

/-- The words of the match and mask form, by their fields (30_encoding.md R93). -/
theorem wordLegal_iff {w : Word} :
    wordLegal w = true ↔ rsvField w = 0 ∧ opcField w ∈ opcodes ∧ (opcField w ≠ 0x02 → immField w = 0) := by
  have opc : w.setWidth 8 = opcField w := BitVec.setWidth_eq_extractLsb' (by decide)
  simp only [wordLegal, Bool.or_eq_true, Bool.and_eq_true, beq_iff_eq, List.contains_iff_mem, and_highMask_eq_zero_iff,
    and_crcByteMask_eq_iff, opc, mem_opcodes_iff]
  tauto

theorem decode_ne_ok_of_opcField {w : Word} (h : opcField w ∉ opcodes) (i : Instr) : decode w ≠ .ok i :=
  fun hd => h (decodes_iff.1 ⟨i, hd⟩).2.1

theorem decode_ne_ok_of_rsvField {w : Word} (h : rsvField w ≠ 0) (i : Instr) : decode w ≠ .ok i :=
  fun hd => h (decodes_iff.1 ⟨i, hd⟩).1

theorem decode_ne_ok_of_immField {w : Word} (h : immField w ≠ 0) (ho : opcField w ≠ 0x02) (i : Instr) :
    decode w ≠ .ok i :=
  fun hd => h ((decodes_iff.1 ⟨i, hd⟩).2.2 ho)

/-- A word with another opcode than CRC_BYTE's and any bit of [31:8] set is illegal (30_encoding.md R95). -/
theorem decode_ne_ok_of_highBits {w : Word} (ho : opcField w ≠ 0x02) (h : w.extractLsb' 8 24 ≠ 0) (i : Instr) :
    decode w ≠ .ok i := by
  rw [← rsvField_append_immField] at h
  by_cases hr : rsvField w = 0
  · exact decode_ne_ok_of_immField (fun hi => h (by rw [hr, hi]; rfl)) ho i
  · exact decode_ne_ok_of_rsvField hr i

/-- No command's opcode lies in a range that 30_encoding.md R95 reserves. -/
theorem opcodes_not_reserved : ∀ o ∈ opcodes,
    ¬ (0x04 ≤ o.toNat ∧ o.toNat ≤ 0x0F ∨ 0x15 ≤ o.toNat ∧ o.toNat ≤ 0x1F ∨ 0x21 ≤ o.toNat ∧ o.toNat ≤ 0x2F ∨
      0x31 ≤ o.toNat ∧ o.toNat ≤ 0xFE) := by decide

end Sys2Proof

namespace Sys2Proof.Machine

/-! ### The host assembly -/

theorem toOffset_eq_some {o : Nat} (h : o < 0x1000000) : toOffset o = some (BitVec.ofNat 24 o) := if_pos h

theorem toOffset_eq_none {o : Nat} (h : 0x1000000 ≤ o) : toOffset o = none := if_neg (Nat.not_lt.2 h)

theorem Loc.raw_offset {k : Nat} (h : k < 0xC00000) : (Loc.raw k).offset = some (BitVec.ofNat 24 (0x400000 + k)) :=
  toOffset_eq_some (by omega)

theorem Loc.raw_offset_outside {k : Nat} (h : 0xC00000 ≤ k) : (Loc.raw k).offset = none := toOffset_eq_none (by omega)

theorem Loc.out_offset {k : Nat} (h : k < 0x800000) : (Loc.out k).offset = some (BitVec.ofNat 24 (0x800000 + k)) :=
  toOffset_eq_some (by omega)

theorem Loc.out_offset_outside {k : Nat} (h : 0x800000 ≤ k) : (Loc.out k).offset = none := toOffset_eq_none (by omega)

theorem assembleBytes_cons {k : Nat} {b : Byte} {bs : Bytes} {es : List Event} (hk : k < 0xC00000)
    (h : assembleBytes (k + 1) bs = some es) :
    assembleBytes k (b :: bs) = some (wr8At (BitVec.ofNat 24 (0x400000 + k)) b :: es) := by
  simp [assembleBytes, Loc.raw_offset hk, h]

/-- A byte list that runs past the window is refused: its first byte outside has no place. -/
theorem assembleBytes_outside {k : Nat} {bs : Bytes} (hbs : bs ≠ []) (h : 0xC00000 < k + bs.length) :
    assembleBytes k bs = none := by
  induction bs generalizing k with
  | nil => exact absurd rfl hbs
  | cons b bs ih =>
    rw [List.length_cons] at h
    by_cases hk : 0xC00000 ≤ k
    · simp [assembleBytes, Loc.raw_offset_outside hk]
    · have rest : assembleBytes (k + 1) bs = none := ih (List.ne_nil_of_length_pos (by omega)) (by omega)
      simp [assembleBytes, rest]

/-- An operand that is a byte makes the CRC_BYTE word of that number (30_encoding.md R99). -/
theorem assemble_cmdByte {b : Nat} (h : b ≤ 255) :
    (Stmt.cmdByte b).assemble = some [wr32At Reg.cmd.offset ((BitVec.ofNat 32 b <<< 8) ||| 0x02)] := by
  have byte : (BitVec.ofNat 8 b).setWidth 32 = BitVec.ofNat 32 b := by
    apply BitVec.eq_of_toNat_eq
    rw [BitVec.toNat_setWidth, BitVec.toNat_ofNat, BitVec.toNat_ofNat]
    omega
  simp [Stmt.assemble, asmOperand, h, encode_crcByte, byte]

theorem assemble_cmdByte_refused {b : Nat} (h : 255 < b) : (Stmt.cmdByte b).assemble = none := by
  simp [Stmt.assemble, asmOperand, h]

theorem assemble_cons {st : Stmt} {sts : List Stmt} {es es' : List Event} (h : st.assemble = some es)
    (h' : assemble sts = some es') : assemble (st :: sts) = some (es ++ es') := by
  simp [assemble, h, h']

/-! ### The statements -/

/-- Settles O5: a word that decodes has the fields of its command, and a word is its fields. -/
theorem decodeEncodeAgree : Obligations.DecodeEncodeAgree :=
  ⟨decode_encode, fun _ _ => encode_of_decode⟩

/-- Settles O6: both forms say the same of the three fields. -/
theorem decodeTakesExactlyTheLegalWords : Obligations.DecodeTakesExactlyTheLegalWords := by
  intro w
  exact ⟨decodes_iff.trans and_left_comm, decodes_iff.trans wordLegal_iff.symm⟩

/-- Settles O8: an illegal word is reported and nothing else; each kind violates a condition on the fields. -/
theorem illegalWordsCompleteWithBadCmd : Obligations.IllegalWordsCompleteWithBadCmd := by
  refine ⟨?badCmd, ?opcode, ?rsv, ?imm, ?high⟩
  case badCmd =>
    intro s hb hd
    rcases engineTurn_cases s with ⟨hi, _⟩ | ⟨_, _, e⟩ | ⟨_, i, hi, _⟩
    · simp [hb] at hi
    · exact e
    · exact absurd hi (hd i)
  case opcode =>
    rintro w o rfl hr
    exact decode_ne_ok_of_opcField fun hm => opcodes_not_reserved _ hm hr
  case rsv => exact fun w h => decode_ne_ok_of_rsvField h
  case imm => exact fun w h ho => decode_ne_ok_of_immField h ho
  case high =>
    intro w ho h
    have other : opcField w ≠ 0x02 := fun e => absurd (ho.symm.trans e) (by decide)
    exact decode_ne_ok_of_highBits other h

/-- Settles O7: each full word is the encoding of its command. -/
theorem commandWordsOfTheOpcodeMap : Obligations.CommandWordsOfTheOpcodeMap := by
  refine ⟨decode_encode .nop, decode_encode .crcInit, ?crcByte, decode_encode .crcBuf, decode_encode .emitSig,
    decode_encode .emitIhdr, decode_encode .emitIdat, decode_encode .emitIend, decode_encode .emitChunk,
    decode_encode .encode, decode_encode .outClear, decode_encode .softReset, ?reserved⟩
  case crcByte =>
    intro b
    rw [← encode_crcByte, decode_encode]
  case reserved => exact fun w h => decode_ne_ok_of_opcField h

/-- Settles O9: the places by the window's end, the statements of one access by their place, the byte list by induction. -/
theorem hostAssemblyExpansions : Obligations.HostAssemblyExpansions := by
  refine ⟨⟨fun _ => rfl, fun _ => Loc.raw_offset, fun _ => Loc.out_offset, fun _ => rfl,
      fun _ => Loc.raw_offset_outside, fun _ => Loc.out_offset_outside⟩,
    ?access, ?outside, fun _ => rfl, fun _ => assemble_cmdByte, fun _ => assemble_cmdByte_refused, fun _ => rfl, rfl,
    fun _ => rfl, fun _ _ _ _ => rfl, fun _ => rfl, fun _ _ _ _ => assembleBytes_cons,
    fun _ _ _ => assembleBytes_outside (List.cons_ne_nil _ _), rfl, fun _ _ _ _ => assemble_cons⟩
  case access =>
    intro x off h
    simp [Stmt.assemble, h, wr32At, wr8At]
  case outside =>
    intro x h
    simp [Stmt.assemble, h]

end Sys2Proof.Machine
end

section
/-! SUPPORT. The facts the statements of 40_crc.md rest on: the table's index, the CRC of a string, what each CRC command
makes of a state, and a row of CRC_BYTE commands as one run of the CRC unit. -/

namespace Sys2Proof.Machine

/-! ### The CRC function -/

theorem bitSteps_eq_iterate (n : Nat) (c : Word) : bitSteps n c = bitStep^[n] c := by
  induction n generalizing c with
  | zero => rfl
  | succ n ih => exact ih _

/-- The table is the listed one: a closed computation over its 256 indices (40_crc.md R121, section 4). -/
theorem map_crcTable_range : (List.range 256).map (fun i => crcTable (BitVec.ofNat 8 i)) = crcListing := by
  decide +kernel

/-- Taking a byte of a word already drops what the mask 0xFF clears. -/
theorem setWidth_and_0xFF (w : Word) : (w &&& 0xFF#32).setWidth 8 = w.setWidth 8 := by
  have mask : (0xFF#32).setWidth 8 = BitVec.allOnes 8 := rfl
  rw [BitVec.setWidth_and, mask, BitVec.and_allOnes]

theorem crcStep_eq (s : Word) (b : Byte) :
    crcStep s b = crcTable ((s ^^^ b.setWidth 32).setWidth 8) ^^^ (s >>> 8) := by
  rw [crcStep, setWidth_and_0xFF]

/-- The shift of a CRC step is logical: it brings in zeros (00_scope.md R8). -/
theorem ushiftRight_topByte (s : Word) : (s >>> 8).extractLsb' 24 8 = 0 := by
  apply BitVec.eq_of_getLsbD_eq
  intro i _
  have outside : 32 ≤ 8 + (24 + i) := by omega
  simp [BitVec.getLsbD_of_ge _ _ outside]

@[simp] theorem crcRun_nil (s : Word) : crcRun s [] = s := rfl

@[simp] theorem crcRun_cons (s : Word) (b : Byte) (m : Bytes) : crcRun s (b :: m) = crcRun (crcStep s b) m := rfl

/-- The start value reads as the CRC of the empty string (10_state.md R33, R34). -/
theorem crcFinal_crcInitValue : crcFinal crcInitValue = 0 := by decide

/-- The CRC of the IEND chunk, whose payload is empty: the example of 40_crc.md R126. -/
theorem crcRun_tagIEND : crcRun crcInitValue tagIEND = 0x51BD9F7D := by decide +kernel

theorem crc32_tagIEND : crc32 tagIEND = 0xAE426082 := by
  rw [crc32, crcRun_tagIEND]
  rfl

/-! ### The CRC commands -/

/-- The CRC_BYTE word of every byte, 0 included (40_crc.md R125). -/
theorem decode_crcByteWord (b : Byte) : decode ((b.setWidth 32 <<< 8) ||| 0x02) = .ok (.crcByte b) := by
  rw [← encode_crcByte, decode_encode]

/-- `s` after a command that left `c` in CRC_STATE and completed. -/
def State.crcCompleted (c : Word) (s : State) : State := ({ s with crcState := c } : State).complete

section
variable {s : State}

/-- Raw(n) of a positive n has a byte (20_memory.md R82). -/
theorem State.raw_ne_nil {n : Nat} (hn : 0 < n) : s.raw n ≠ [] :=
  List.ne_nil_of_length_pos (by rwa [State.raw, Memory.readBytes_length])

theorem exec_crcInit (s : State) : exec .crcInit s = .next (s.crcCompleted crcInitValue) := rfl

theorem exec_crcByte (b : Byte) (s : State) :
    exec (.crcByte b) s = .next (s.crcCompleted (crcStep s.crcState b)) := rfl

theorem exec_crcBuf_fits (h : s.rawLen.toNat ≤ s.params.rawCap) :
    exec .crcBuf s = .next (s.crcCompleted (crcRun s.crcState (s.raw s.rawLen.toNat))) := by
  rcases rawPayload_cases s with ⟨hr, _⟩ | ⟨_, e⟩
  · exact absurd h (Nat.not_le.2 hr)
  · rw [exec, execCrcBuf, crcBufBody, e, State.finish_ok, State.crcCompleted]

theorem exec_crcBuf_range (h : s.params.rawCap < s.rawLen.toNat) : exec .crcBuf s = .next (s.raise .range) := by
  rcases rawPayload_cases s with ⟨_, e⟩ | ⟨hf, _⟩
  · rw [exec, execCrcBuf, crcBufBody, e, State.finish_error]
  · exact absurd h (Nat.not_lt.2 hf)

/-- A command that ends without error leaves the rest to be performed from its state (60_exceptions.md R238). -/
theorem performAll_cons {i : Instr} {is : List Instr} {t : State} (h : exec i s = .next t) (ht : t.err = false) :
    performAll (i :: is) s = performAll is t := by
  simp [performAll, h, ht]

/-- CRC_BYTE of each byte of a string that is not empty is one run of the CRC unit over it. -/
theorem performAll_crcByte {m : Bytes} (hm : m ≠ []) (he : s.err = false) :
    performAll (m.map Instr.crcByte) s = .next (s.crcCompleted (crcRun s.crcState m)) := by
  induction m generalizing s with
  | nil => exact absurd rfl hm
  | cons b m ih =>
    rw [List.map_cons, performAll_cons (exec_crcByte b s) he]
    cases m with
    | nil => rfl
    | cons b' m => exact ih (List.cons_ne_nil b' m) he

end

/-! ### The statements -/

/-- Settles O14: the two outcomes of the payload check; RAW_LEN = 0 runs over no byte, and CRC_INIT leaves RAW_LEN, RAW_CAP
and RAW_MEM, so that CRC_BUF after it runs from the start value. -/
theorem crcBufResult : Obligations.CrcBufResult := by
  refine ⟨fun s => exec_crcBuf_fits, fun s => exec_crcBuf_range, ?empty, ?afterInit, decode_encode .crcBuf,
    crcRun_tagIEND, crc32_tagIEND⟩
  case empty =>
    intro s h
    have len : s.rawLen.toNat = 0 := by rw [h]; rfl
    rw [exec_crcBuf_fits (len ▸ Nat.zero_le _), len]
    rfl
  case afterInit =>
    intro s t u h ht hu
    rw [exec_crcInit] at ht
    cases ht
    rw [exec_crcBuf_fits (s := s.crcCompleted crcInitValue) h] at hu
    cases hu
    rfl

/-- Settles O15: a buffer that is not empty is run over byte by byte. -/
theorem crcBufIsCrcByteOfEveryByte : Obligations.CrcBufIsCrcByteOfEveryByte := by
  intro s he hpos hle
  rw [performAll_crcByte (State.raw_ne_nil hpos) he, exec_crcBuf_fits hle]

/-- Settles O10: eight bit steps as an iterate, and the listing and the three entries of R121 computed. -/
theorem crcTableIsTheListedOne : Obligations.CrcTableIsTheListedOne :=
  ⟨fun _ => rfl, fun _ => bitSteps_eq_iterate 8 _, map_crcTable_range, by decide, by decide, by decide⟩

/-- Settles O11: the laws of the run by its recursion, the concatenation by induction on the first string. -/
theorem crcStepAndRun : Obligations.CrcStepAndRun :=
  ⟨crcStep_eq, ushiftRight_topByte, crcRun_nil, crcRun_cons, fun _ => rfl, crcFinal_crcInitValue, crcRun_append⟩

/-- Settles O12: CRC_INIT writes the start value and completes, from any state and so from its own result. -/
theorem crcInitResult : Obligations.CrcInitResult := by
  refine ⟨fun s => ⟨_, exec_crcInit s, rfl, crcFinal_crcInitValue, rfl⟩, decode_encode .crcInit, ?illegal⟩
  intro w ho h
  have other : opcField w ≠ 0x02 := fun e => absurd (ho.symm.trans e) (by decide)
  exact decode_ne_ok_of_highBits other h

/-- Settles O13: CRC_BYTE is one CRC step, and the corner cases are computed. -/
theorem crcByteResult : Obligations.CrcByteResult :=
  ⟨exec_crcByte, decode_crcByteWord, by decide, by decide, by decide, by decide⟩

end Sys2Proof.Machine
end

section
/-! SUPPORT. The facts the statements of 41_framer.md rest on: the bytes of a chunk, a state with a string appended to its
stream, and what each framer command makes of a state. -/

namespace Sys2Proof.Machine

/-! ### The bytes of a chunk -/

/-- Byte `n / 8` of a word, put back in its place, has the word's bits there and no other. -/
theorem getLsbD_byte_shifted (v : Word) (n : Nat) {i : Nat} (hi : i < 32) :
    ((v.extractLsb' n 8).setWidth 32 <<< n).getLsbD i = (decide (n ≤ i ∧ i < n + 8) && v.getLsbD i) := by
  rw [BitVec.getLsbD_shiftLeft, BitVec.getLsbD_setWidth, BitVec.getLsbD_extractLsb']
  rcases Nat.lt_or_ge i n with below | above
  · simp [below]
  · have back : n + (i - n) = i := by omega
    have inByte : i - n < 8 ↔ n ≤ i ∧ i < n + 8 := by omega
    have inWord : i - n < 32 := by omega
    simp only [back, inByte, inWord, hi, Nat.not_lt.2 above, decide_true, decide_false, Bool.not_false, Bool.true_and]

/-- A word reads back from its big-endian string (00_scope.md R9). -/
theorem ofBe32_be32 (v : Word) :
    ofBe32 (v.extractLsb' 24 8) (v.extractLsb' 16 8) (v.extractLsb' 8 8) (v.extractLsb' 0 8) = v := by
  apply BitVec.eq_of_getLsbD_eq
  intro i hi
  have lowByte := getLsbD_byte_shifted v 0 hi
  rw [BitVec.shiftLeft_zero] at lowByte
  simp only [ofBe32, BitVec.getLsbD_or, getLsbD_byte_shifted v _ hi, lowByte, ← Bool.and_or_distrib_right]
  have covered : ((24 ≤ i ∧ i < 24 + 8 ∨ 16 ≤ i ∧ i < 16 + 8) ∨ 8 ≤ i ∧ i < 8 + 8) ∨ 0 ≤ i ∧ i < 0 + 8 := by omega
  simp only [← Bool.decide_or, covered, decide_true, Bool.true_and]

theorem readBe32_be32_append (v : Word) (rest : Bytes) : readBe32 (be32 v ++ rest) = some (v, rest) :=
  congrArg (fun w => some (w, rest)) (ofBe32_be32 v)

/-- A reader of the stream gets the length field first (41_framer.md R140). -/
theorem readBe32_chunk (t d : Bytes) :
    readBe32 (chunk t d) = some (BitVec.ofNat 32 d.length, t ++ d ++ be32 (crc32 (t ++ d))) := by
  rw [chunk, List.append_assoc, List.append_assoc, readBe32_be32_append, List.append_assoc]

/-- `Chunk("IEND", [])` is the constant of 41_framer.md R144. -/
theorem chunk_tagIEND :
    chunk tagIEND [] = [0x00, 0x00, 0x00, 0x00, 0x49, 0x45, 0x4E, 0x44, 0xAE, 0x42, 0x60, 0x82] := by
  rw [chunk, List.append_nil tagIEND, crc32_tagIEND]
  rfl

/-- The CRC of the example of 41_framer.md R148. -/
theorem crc32_ihdr100 : crc32 (tagIHDR ++ ihdrData 100 100) = 0x70E29554 := by decide +kernel

/-- The CRC of the example of 41_framer.md R149. -/
theorem crc32_abcd_hi : crc32 (be32 0x61626364 ++ [0x68, 0x69]) = 0x6E9F5A33 := by decide +kernel

/-! ### A string appended to the stream -/

/-- The end of a byte string written reads back where it stands. -/
theorem Memory.readBytes_writeBytes_suffix (m : Memory) (i : Nat) (a b : Bytes) :
    (m.writeBytes i (a ++ b)).readBytes (i + a.length) b.length = b := by
  have whole := m.readBytes_writeBytes i (a ++ b)
  rw [List.length_append, Memory.readBytes_append] at whole
  exact List.append_inj_right whole (Memory.readBytes_length _ _ _)

/-- `s` with `b` at the end of its stream and `c` in CRC_STATE (20_memory.md R83, 41_framer.md R141). -/
def State.extended (b : Bytes) (c : Word) (s : State) : State :=
  { s with
    outMem := s.outMem.writeBytes s.outLen.toNat b
    outLen := BitVec.ofNat 32 (s.outLen.toNat + b.length)
    crcState := c }

section
variable {s : State} {b t d : Bytes}

theorem State.extended_writtenAt (c : Word) : WrittenAt s.outLen.toNat b s (s.extended b c) :=
  ⟨Memory.readBytes_writeBytes _ _ _, fun _ ha => Memory.read_writeBytes_out _ _ _ ha⟩

/-- The new OUT_LEN is exact, because OUT_CAP is far below 2^32 (00_scope.md R6). -/
theorem State.extended_outLen (c : Word) (hp : s.params.wf = true) (h : s.outLen.toNat + b.length ≤ s.params.outCap) :
    (s.extended b c).outLen.toNat = s.outLen.toNat + b.length := by
  have hcap := Params.outCap_bounds hp
  exact Nat.mod_eq_of_lt (by omega)

theorem State.extended_appended (c : Word) (hp : s.params.wf = true)
    (h : s.outLen.toNat + b.length ≤ s.params.outCap) : Appended b c s (s.extended b c).complete :=
  ⟨extended_writtenAt c, extended_outLen c hp h, rfl⟩

theorem outAppend_fits (h : s.outLen.toNat + b.length ≤ s.params.outCap) :
    outAppend b s = .ok (s.extended b s.crcState) := by
  rcases outAppend_cases b s with ⟨hovf, _⟩ | ⟨_, e⟩
  · omega
  · exact e

theorem outAppend_overflow (h : s.params.outCap < s.outLen.toNat + b.length) : outAppend b s = .error .outOvf := by
  rcases outAppend_cases b s with ⟨_, e⟩ | ⟨hfit, _⟩
  · exact e
  · omega

theorem emitChunk_fits (h : s.outLen.toNat + (chunk t d).length ≤ s.params.outCap) :
    emitChunk t d s = .ok (s.extended (chunk t d) (crcRun crcInitValue (t ++ d))) := by
  rw [emitChunk, outAppend_fits h]
  rfl

theorem emitChunk_overflow (h : s.params.outCap < s.outLen.toNat + (chunk t d).length) :
    emitChunk t d s = .error .outOvf := by
  rw [emitChunk, outAppend_overflow h]

/-! ### The framer commands -/

/-- A command that ends in EmitChunk appends its chunk and leaves the CRC of it when the chunk fits. -/
theorem finish_emitChunk_fits (hp : s.params.wf = true) (h : s.outLen.toNat + (chunk t d).length ≤ s.params.outCap) :
    Appended (chunk t d) (crcRun crcInitValue (t ++ d)) s (s.finish (emitChunk t d s)) := by
  rw [emitChunk_fits h]
  exact State.extended_appended _ hp h

theorem finish_emitChunk_overflow (h : s.params.outCap < s.outLen.toNat + (chunk t d).length) :
    s.finish (emitChunk t d s) = s.raise .outOvf := by
  rw [emitChunk_overflow h, State.finish_error]

theorem exec_emitSig (s : State) : exec .emitSig s = .next (s.finish (outAppend sig s)) := rfl

theorem exec_emitIend (s : State) : exec .emitIend s = .next (s.finish (emitChunk tagIEND [] s)) := rfl

theorem exec_emitIhdr_badDim (h : dimOk s.width s.height = false) : exec .emitIhdr s = .next (s.raise .badDim) := by
  rw [exec, execEmitIhdr, emitIhdrBody, if_pos h, State.finish_error]

theorem exec_emitIhdr_dimOk (h : dimOk s.width s.height = true) :
    exec .emitIhdr s = .next (s.finish (emitChunk tagIHDR (ihdrData s.width s.height) s)) := by
  rw [exec, execEmitIhdr, emitIhdrBody, if_neg (by simp [h])]

theorem exec_emitChunk_range (h : s.params.rawCap < s.rawLen.toNat) : exec .emitChunk s = .next (s.raise .range) := by
  rcases rawPayload_cases s with ⟨_, e⟩ | ⟨hfit, _⟩
  · rw [exec, execEmitChunk, emitChunkBody, e, State.finish_error]
  · omega

theorem exec_emitChunk_inRange (h : s.rawLen.toNat ≤ s.params.rawCap) :
    exec .emitChunk s = .next (s.finish (emitChunk (be32 s.chunkType) (s.raw s.rawLen.toNat) s)) := by
  rcases rawPayload_cases s with ⟨hr, _⟩ | ⟨_, e⟩
  · omega
  · rw [exec, execEmitChunk, emitChunkBody, e, typeTag]

/-- The chunk of EMIT_CHUNK takes 12 bytes more than its payload (41_framer.md R149). -/
theorem chunk_raw_length (s : State) :
    (chunk (be32 s.chunkType) (s.raw s.rawLen.toNat)).length = 12 + s.rawLen.toNat := by
  rw [chunk_length, be32_length, State.raw, Memory.readBytes_length]

end

/-! ### The statements -/

/-- Settles O17: the state EmitChunk leaves, written out; its last four bytes are the end of the string just written. -/
theorem emitChunkAction : Obligations.EmitChunkAction := by
  refine ⟨?fits, ?overflow⟩
  case fits =>
    intro t d s hp h
    have len := State.extended_outLen (crcRun crcInitValue (t ++ d)) hp h
    refine ⟨_, emitChunk_fits h, State.extended_writtenAt _, len, rfl, rfl, rfl, ?lastFour⟩
    have crcAt : s.outLen.toNat + (chunk t d).length - 4 =
        s.outLen.toNat + (be32 (BitVec.ofNat 32 d.length) ++ t ++ d).length := by
      simp only [chunk, List.length_append, be32_length]
      omega
    rw [len, crcAt]
    exact Memory.readBytes_writeBytes_suffix _ _ _ _
  case overflow =>
    intro t d s h
    exact ⟨emitChunk_overflow h, by rw [finish_emitChunk_overflow h, State.raise_crcState]⟩

/-- Settles O18: the four parts of the chunk, each cut out at its own length. -/
theorem chunkSerializedForm : Obligations.ChunkSerializedForm := by
  intro t d ht
  have afterLength : (chunk t d).drop 4 = t ++ (d ++ be32 (crc32 (t ++ d))) := by
    rw [chunk, List.append_assoc, List.append_assoc, List.drop_left' (be32_length _)]
  have afterType : (chunk t d).drop 8 = d ++ be32 (crc32 (t ++ d)) := by
    rw [← List.drop_drop (i := 4) (j := 4), afterLength, List.drop_left' ht]
  refine ⟨by rw [chunk_length, ht], ?length, ?type, ?payload, ?crc⟩
  case length => rw [chunk, List.append_assoc, List.append_assoc, List.take_left' (be32_length _)]
  case type => rw [afterLength, List.take_left' ht]
  case payload => rw [afterType, List.take_left' rfl]
  case crc => rw [← List.drop_drop, afterType, List.drop_left' rfl]

/-- Settles O19: a chunk that was framed fits OUT_CAP, which is at most 2^22, so that the 32-bit length field holds the
length of its payload. -/
theorem lengthFieldIsExact : Obligations.LengthFieldIsExact := by
  intro t d s u ht hp hu
  have hcap := Params.outCap_bounds hp
  have fits : s.outLen.toNat + (8 + 4 + d.length) ≤ s.params.outCap := by
    rcases emitChunk_cases t d s with ⟨_, e⟩ | ⟨hfit, _⟩
    · rw [e] at hu
      cases hu
    · rwa [chunk_length, ht] at hfit
  exact ⟨by omega, by omega, by omega, _, _, readBe32_chunk t d, Nat.mod_eq_of_lt (by omega)⟩

/-- Settles O20: the two cases of OutAppend, for the eight bytes of the signature. -/
theorem emitSigResult : Obligations.EmitSigResult := by
  refine ⟨fun s hp h => ⟨_, exec_emitSig s, ?appended⟩, fun s h => ?overflow, decode_encode .emitSig⟩
  case appended =>
    rw [outAppend_fits h]
    exact State.extended_appended _ hp h
  case overflow =>
    rw [exec_emitSig, outAppend_overflow h]
    rfl

/-- Settles O21: the check of the dimensions, then EmitChunk of 25 bytes; the example from its CRC. -/
theorem emitIhdrResult : Obligations.EmitIhdrResult := by
  refine ⟨fun s hp hd h => ⟨_, exec_emitIhdr_dimOk hd, finish_emitChunk_fits hp h⟩, fun s => exec_emitIhdr_badDim,
    fun s hd h => ?overflow, decode_encode .emitIhdr, fun _ _ => rfl, by decide, by decide, fun _ => rfl, ?exampleBytes,
    crc32_ihdr100⟩
  case overflow =>
    rw [exec_emitIhdr_dimOk hd, finish_emitChunk_overflow h]
    rfl
  case exampleBytes =>
    rw [chunk, crc32_ihdr100]
    rfl

/-- Settles O22: the check of RAW_LEN, then EmitChunk of its 12 + RAW_LEN bytes; with the tag of IEND and no payload that is
EMIT_IEND's own EmitChunk; the example from its CRC. -/
theorem emitChunkResult : Obligations.EmitChunkResult := by
  refine ⟨fun s hp hr h => ⟨_, exec_emitChunk_inRange hr, finish_emitChunk_fits hp ?fits⟩, fun s => exec_emitChunk_range,
    fun s hr h => ?overflow, fun s ht hl => ?iend, fun t ht => by rw [chunk_length, ht]; rfl, decode_encode .emitChunk,
    by decide, ?exampleBytes⟩
  case fits => rwa [chunk_raw_length, ← Nat.add_assoc]
  case overflow =>
    rw [exec_emitChunk_inRange hr, finish_emitChunk_overflow (by rwa [chunk_raw_length, ← Nat.add_assoc])]
    rfl
  case iend =>
    have len : s.rawLen.toNat = 0 := by rw [hl]; rfl
    have tag : be32 0x49454E44 = tagIEND := by decide
    rw [exec_emitChunk_inRange (len ▸ Nat.zero_le _), exec_emitIend, ht, tag, len]
    rfl
  case exampleBytes =>
    rw [chunk, crc32_abcd_hi]
    rfl

/-- Settles O23: EmitChunk of the IEND chunk, whose twelve bytes and CRC are constants. -/
theorem emitIendResult : Obligations.EmitIendResult := by
  refine ⟨fun s hp h => ?appended, fun s h => ?overflow, decode_encode .emitIend, chunk_tagIEND⟩
  case appended =>
    have appended := finish_emitChunk_fits (t := tagIEND) (d := []) hp h
    rw [List.append_nil, crcRun_tagIEND, chunk_tagIEND] at appended
    have ⟨_, _, frame⟩ := appended
    have crc : (s.finish (emitChunk tagIEND [] s)).crcState = 0x51BD9F7D := congrArg State.crcState frame
    exact ⟨_, exec_emitIend s, appended, congrArg crcFinal crc⟩
  case overflow =>
    rw [exec_emitIend, finish_emitChunk_overflow h]
    rfl

end Sys2Proof.Machine
end

section
/-! SUPPORT. The facts the statements of 42_deflate.md rest on: STORED as a row of blocks, how the decompressor reads a
stored block, Adler-32 as a fold, where a byte of the scanline buffer stands, and what EMIT_IDAT makes of a state. -/

namespace Sys2Proof.Machine

/-! ### Adler-32 -/

/-- One byte of Adler-32 (42_deflate.md R176). -/
def adlerStep (p : Nat × Nat) (v : Byte) : Nat × Nat :=
  ((p.1 + v.toNat) % 65521, (p.2 + (p.1 + v.toNat) % 65521) % 65521)

theorem adlerSums_eq_foldl (a b : Nat) (x : Bytes) : adlerSums a b x = x.foldl adlerStep (a, b) := by
  induction x generalizing a b with
  | nil => rfl
  | cons v x ih => exact ih _ _

/-- Both sums stay below the modulus. -/
theorem adlerSums_lt {a b : Nat} (x : Bytes) (ha : a < 65521) (hb : b < 65521) :
    (adlerSums a b x).1 < 65521 ∧ (adlerSums a b x).2 < 65521 := by
  induction x generalizing a b with
  | nil => exact ⟨ha, hb⟩
  | cons v x ih => exact ih (Nat.mod_lt _ (by decide)) (Nat.mod_lt _ (by decide))

/-- The two sums fit the 32-bit checksum, so that nothing of them is lost. -/
theorem adler32_toNat (x : Bytes) : (adler32 x).toNat = (adlerSums 1 0 x).2 * 65536 + (adlerSums 1 0 x).1 := by
  obtain ⟨ha, hb⟩ := adlerSums_lt x (a := 1) (b := 0) (by decide) (by decide)
  exact Nat.mod_eq_of_lt (by omega)

/-! ### STORED as a row of blocks -/

@[simp] theorem le16_length (v : BitVec 16) : (le16 v).length = 2 := rfl

@[simp] theorem storedBlock_length (header : Byte) (b : Bytes) : (storedBlock header b).length = 5 + b.length := by
  simp only [storedBlock, List.length_append, List.length_singleton, le16_length]

/-- The blocks that are not the last, one after another. -/
def nonfinalBlocks (full : List Bytes) : Bytes := (full.map (storedBlock 0x00)).flatten

theorem nonfinalBlocks_cons (b : Bytes) (full : List Bytes) :
    nonfinalBlocks (b :: full) = storedBlock 0x00 b ++ nonfinalBlocks full := rfl

/-- `full` and `last` are `x` cut into the contents of its stored blocks (42_deflate.md R175). -/
structure StoredCut (x : Bytes) (full : List Bytes) (last : Bytes) : Prop where
  whole : x = full.flatten ++ last
  full_length : ∀ b ∈ full, b.length = 65535
  last_length_le : last.length ≤ 65535
  last_length_pos : x ≠ [] → 1 ≤ last.length

theorem StoredCut.single {x : Bytes} (h : x.length ≤ 65535) : StoredCut x [] x :=
  ⟨rfl, by simp, h, List.length_pos_of_ne_nil⟩

/-- A cut of what follows the first 65535 bytes is one of the whole. -/
theorem StoredCut.cons {x : Bytes} {full : List Bytes} {last : Bytes} (h : 65535 < x.length)
    (c : StoredCut (x.drop 65535) full last) : StoredCut x (x.take 65535 :: full) last where
  whole := by rw [List.flatten_cons, List.append_assoc, ← c.whole, List.take_append_drop]
  full_length := by
    rintro b (_ | ⟨_, hb⟩)
    · exact List.length_take_of_le h.le
    · exact c.full_length b hb
  last_length_le := c.last_length_le
  last_length_pos _ := c.last_length_pos fun e => by
    have none_left := congrArg List.length e
    rw [List.length_drop, List.length_nil] at none_left
    omega

theorem storedBlocks_cut {n : Nat} {x : Bytes} (h : x.length ≤ n) :
    ∃ full last, StoredCut x full last ∧ storedBlocks n x = nonfinalBlocks full ++ storedBlock 0x01 last := by
  induction n generalizing x with
  | zero => exact ⟨[], x, .single (by omega), rfl⟩
  | succ n ih =>
    rw [storedBlocks]
    split
    · exact ⟨[], x, .single ‹_›, rfl⟩
    · have long : 65535 < x.length := Nat.not_le.1 ‹_›
      obtain ⟨full, last, cut, e⟩ := ih (x := x.drop 65535) (by rw [List.length_drop]; omega)
      refine ⟨x.take 65535 :: full, last, cut.cons long, ?_⟩
      rw [maxStored, e, nonfinalBlocks_cons, List.append_assoc]

/-- STORED is a zlib header, its blocks and the checksum. -/
theorem stored_cut (x : Bytes) : ∃ full last, StoredCut x full last ∧
    stored x = [0x78, 0x01] ++ (nonfinalBlocks full ++ storedBlock 0x01 last) ++ be32 (adler32 x) := by
  obtain ⟨full, last, cut, e⟩ := storedBlocks_cut (Nat.le_refl x.length)
  exact ⟨full, last, cut, by rw [stored, e]⟩

theorem length_flatten_of_full {full : List Bytes} (h : ∀ b ∈ full, b.length = 65535) :
    full.flatten.length = 65535 * full.length := by
  rw [List.length_flatten, List.map_congr_left h, List.map_const', List.sum_replicate, smul_eq_mul, Nat.mul_comm]

theorem nonfinalBlocks_length (full : List Bytes) :
    (nonfinalBlocks full).length = 5 * full.length + full.flatten.length := by
  induction full with
  | nil => rfl
  | cons b full ih =>
    rw [nonfinalBlocks_cons, List.length_append, storedBlock_length, ih, List.length_cons, List.flatten_cons,
      List.length_append]
    omega

/-- The length of STORED output (42_deflate.md R177): a cut of `n` bytes has max(1, ⌈n / 65535⌉) blocks. -/
theorem stored_length (x : Bytes) : (stored x).length = x.length + 6 + 5 * max 1 ((x.length + 65534) / 65535) := by
  obtain ⟨full, last, cut, e⟩ := stored_cut x
  have contents : x.length = full.flatten.length + last.length := by rw [← List.length_append, ← cut.whole]
  rw [length_flatten_of_full cut.full_length] at contents
  have nonempty : x.length = 0 ∨ 1 ≤ last.length :=
    (eq_or_ne x []).imp List.length_eq_zero_iff.2 cut.last_length_pos
  have last_le := cut.last_length_le
  have count : max 1 ((x.length + 65534) / 65535) = full.length + 1 := by omega
  rw [count, e]
  simp only [List.length_append, nonfinalBlocks_length, length_flatten_of_full cut.full_length, storedBlock_length,
    be32_length, List.length_cons, List.length_nil]
  omega

/-! ### Reading bits and bytes -/

namespace Inflate

@[simp] theorem byteBits_length (b : Byte) : (byteBits b).length = 8 := rfl

@[simp] theorem bitsOf_length (z : Bytes) : (bitsOf z).length = 8 * z.length := by
  induction z with
  | nil => rfl
  | cons b z ih => rw [bitsOf, List.length_append, ih, byteBits_length, List.length_cons]; omega

theorem bitsOf_append (y z : Bytes) : bitsOf (y ++ z) = bitsOf y ++ bitsOf z := by
  induction y with
  | nil => rfl
  | cons b y ih => rw [List.cons_append, bitsOf, ih, bitsOf, List.append_assoc]

/-- A byte is the number its bits are, least significant first (RFC 1951, 3.1.1). -/
theorem toNat_eq_sum_bits (b : Byte) :
    (b.getLsbD 0).toNat + 2 * ((b.getLsbD 1).toNat + 2 * ((b.getLsbD 2).toNat + 2 * ((b.getLsbD 3).toNat +
      2 * ((b.getLsbD 4).toNat + 2 * ((b.getLsbD 5).toNat + 2 * ((b.getLsbD 6).toNat +
      2 * (b.getLsbD 7).toNat)))))) = b.toNat := by
  have lt := b.isLt
  simp only [BitVec.getLsbD, Nat.toNat_testBit]
  omega

theorem takeBits_byteBits (b : Byte) (s : Bits) : takeBits 8 (byteBits b ++ s) = some (b.toNat, s) := by
  rw [← toNat_eq_sum_bits b]
  rfl

theorem takeBits_cons (n : Nat) (b : Bool) (s : Bits) :
    takeBits (n + 1) (b :: s) = (takeBits n s).map fun p => (b.toNat + 2 * p.1, p.2) := by
  rw [takeBits]
  cases takeBits n s with
  | none => rfl
  | some p => rfl

/-- Bits read later stand above those already read. -/
theorem takeBits_add {n v : Nat} {s s₁ : Bits} (k : Nat) (h : takeBits n s = some (v, s₁)) :
    takeBits (n + k) s = (takeBits k s₁).map fun p => (v + 2 ^ n * p.1, p.2) := by
  induction n generalizing v s with
  | zero =>
    cases h
    simp
  | succ n ih =>
    cases s with
    | nil => cases h
    | cons b s =>
      rw [takeBits_cons, Option.map_eq_some_iff] at h
      obtain ⟨⟨w, s₂⟩, e, h⟩ := h
      cases h
      have weights (p : Nat) : b.toNat + 2 * (w + 2 ^ n * p) = b.toNat + 2 * w + 2 ^ (n + 1) * p := by ring
      rw [Nat.add_right_comm, takeBits_cons, ih e, Option.map_map]
      simp only [Function.comp_def, weights]

/-- A 16-bit number is read back from its little-endian string (RFC 1951, 3.2.4). -/
theorem takeBits_le16 (v : BitVec 16) (s : Bits) : takeBits 16 (bitsOf (le16 v) ++ s) = some (v.toNat, s) := by
  have twoBytes : bitsOf (le16 v) ++ s = byteBits (v.extractLsb' 0 8) ++ (byteBits (v.extractLsb' 8 8) ++ s) := rfl
  have value : (v.extractLsb' 0 8).toNat + 2 ^ 8 * (v.extractLsb' 8 8).toNat = v.toNat := by
    have lt := v.isLt
    simp only [BitVec.extractLsb'_toNat, Nat.shiftRight_eq_div_pow]
    omega
  rw [twoBytes, takeBits_add 8 (takeBits_byteBits _ _), takeBits_byteBits, Option.map_some, value]

theorem takeBytes_bitsOf (z : Bytes) (s : Bits) : takeBytes z.length (bitsOf z ++ s) = some (z, s) := by
  induction z with
  | nil => rfl
  | cons b z ih =>
    rw [List.length_cons, takeBytes, bitsOf, List.append_assoc, takeBits_byteBits]
    simp only [ih, BitVec.ofNat_toNat, BitVec.setWidth_eq]

/-- The padding of a byte begun is skipped, whole bytes are not. -/
theorem align_append_bitsOf {p : Bits} (z : Bytes) (hp : p.length < 8) : align (p ++ bitsOf z) = bitsOf z := by
  have padding : (p ++ bitsOf z).length % 8 = p.length := by
    rw [List.length_append, bitsOf_length]
    omega
  rw [align, padding, List.drop_left]

theorem align_bitsOf (z : Bytes) : align (bitsOf z) = bitsOf z := align_append_bitsOf (p := []) z (by decide)

/-! ### Reading stored blocks -/

/-- NLEN is the complement of LEN (RFC 1951, 3.2.4). -/
theorem toNat_add_toNat_xor_ones (v : BitVec 16) : v.toNat + (v ^^^ 0xFFFF#16).toNat = 65535 := by
  have complement : v ^^^ 0xFFFF#16 = ~~~v := BitVec.xor_allOnes
  have lt := v.isLt
  rw [complement, BitVec.toNat_not]
  omega

/-- The contents of a stored block, read from behind its header bits; the rest of the header byte is padding. -/
theorem storedData_append {p : Bits} {b : Bytes} (z out : Bytes) (hp : p.length < 8) (hb : b.length ≤ 65535) :
    storedData (p ++ bitsOf (le16 (BitVec.ofNat 16 b.length) ++ le16 (BitVec.ofNat 16 b.length ^^^ 0xFFFF#16) ++ b ++ z))
      out = some (b.reverse ++ out, bitsOf z) := by
  have len : (BitVec.ofNat 16 b.length).toNat = b.length := Nat.mod_eq_of_lt (by omega)
  rw [storedData, align_append_bitsOf _ hp]
  simp only [bitsOf_append, List.append_assoc, takeBits_le16, toNat_add_toNat_xor_ones, if_true]
  rw [len, takeBytes_bitsOf, Option.map_some]

/-- BTYPE 0 is a stored block (RFC 1951, 3.2.3). -/
theorem blockData_stored (window : Nat) (s : Bits) (out : Bytes) :
    blockData window (false :: false :: s) out = storedData s out := rfl

/-- A block that is read ends the stream exactly when its BFINAL bit is set (RFC 1951, 3.2.3). -/
theorem blocks_cons {window : Nat} {s s₁ : Bits} {out out₁ : Bytes} (fuel : Nat) (final : Bool)
    (h : blockData window s out = some (out₁, s₁)) :
    blocks window (fuel + 1) (final :: s) out = if final then some (out₁, s₁) else blocks window fuel s₁ out₁ := by
  have bfinal : takeBits 1 (final :: s) = some (final.toNat, s) := rfl
  simp only [blocks, bfinal, h, Bool.toNat_eq_one]

section
variable {b : Bytes} (window fuel : Nat) (z out : Bytes)

/-- The data of a stored block, behind its BFINAL bit. -/
theorem blockData_storedBlock (header : Byte) (hb : b.length ≤ 65535) :
    blockData window (false :: false :: (List.replicate 5 false ++ bitsOf ((storedBlock header b).tail ++ z))) out =
      some (b.reverse ++ out, bitsOf z) := by
  rw [blockData_stored]
  exact storedData_append z out (by decide) hb

theorem blocks_storedBlock_nonfinal (hb : b.length ≤ 65535) :
    blocks window (fuel + 1) (bitsOf (storedBlock 0x00 b ++ z)) out = blocks window fuel (bitsOf z) (b.reverse ++ out) :=
  blocks_cons fuel false (blockData_storedBlock window z out 0x00 hb)

theorem blocks_storedBlock_final (hb : b.length ≤ 65535) :
    blocks window (fuel + 1) (bitsOf (storedBlock 0x01 b ++ z)) out = some (b.reverse ++ out, bitsOf z) :=
  blocks_cons fuel true (blockData_storedBlock window z out 0x01 hb)

/-- A row of stored blocks decompresses to their contents; the fuel is spent once a block. -/
theorem blocks_nonfinalBlocks {full : List Bytes} {last : Bytes} (hfull : ∀ b ∈ full, b.length = 65535)
    (hlast : last.length ≤ 65535) (hfuel : full.length < fuel) :
    blocks window fuel (bitsOf (nonfinalBlocks full ++ storedBlock 0x01 last ++ z)) out =
      some ((full.flatten ++ last).reverse ++ out, bitsOf z) := by
  induction full generalizing fuel out with
  | nil =>
    obtain ⟨fuel, rfl⟩ := Nat.exists_eq_add_of_lt hfuel
    exact blocks_storedBlock_final window _ z out hlast
  | cons b full ih =>
    obtain ⟨fuel, rfl⟩ := Nat.exists_eq_succ_of_ne_zero (Nat.ne_zero_of_lt hfuel)
    obtain ⟨hb, hfull⟩ := List.forall_mem_cons.1 hfull
    rw [nonfinalBlocks_cons, List.append_assoc, List.append_assoc, blocks_storedBlock_nonfinal window fuel _ out hb.le,
      ← List.append_assoc, ih fuel _ hfull (Nat.lt_of_succ_lt_succ hfuel)]
    simp

end

/-- The header STORED writes is a zlib header (RFC 1950, 2.2). -/
theorem headerOk_stored : headerOk 0x78 0x01 = true := by decide

/-- A stream whose blocks give `x` and are followed by the checksum of `x` decompresses to `x`. -/
theorem decompress_of_blocks {cmf flg : Byte} {z x : Bytes} (hh : headerOk cmf flg = true)
    (h : blocks (windowOf cmf) ((bitsOf z).length + 1) (bitsOf z) [] = some (x.reverse, bitsOf (be32 (adler32 x)))) :
    decompress (cmf :: flg :: z) = some x := by
  have checksum : takeBytes 4 (bitsOf (be32 (adler32 x))) = some (be32 (adler32 x), []) := by
    have whole := takeBytes_bitsOf (be32 (adler32 x)) []
    rwa [List.append_nil] at whole
  rw [decompress, if_pos hh]
  simp only [h, List.reverse_reverse, align_bitsOf, checksum]
  exact if_pos (ofBe32_be32 (adler32 x))

/-- STORED conforms: its stream decompresses to its input (42_deflate.md R172, R175). -/
theorem decompress_stored (x : Bytes) : decompress (stored x) = some x := by
  obtain ⟨full, last, cut, e⟩ := stored_cut x
  rw [e]
  refine decompress_of_blocks (z := nonfinalBlocks full ++ storedBlock 0x01 last ++ be32 (adler32 x)) headerOk_stored ?_
  rw [blocks_nonfinalBlocks _ _ _ _ cut.full_length cut.last_length_le ?fuel, ← cut.whole, List.append_nil]
  case fuel =>
    simp only [bitsOf_length, List.length_append, nonfinalBlocks_length]
    omega

end Inflate

/-! ### COMPRESS -/

theorem compress_stored (x : Bytes) : compress .stored x = some (stored x) := rfl

theorem compress_storedUpTo_eq_some {limit : Nat} {x z : Bytes} (h : compress (.storedUpTo limit) x = some z) :
    z = stored x := by
  rw [compress] at h
  split at h
  · exact (Option.some.inj h).symm
  · cases h

/-- An OPEN compressor answers nothing that the law of 42_deflate.md R172 does not allow (log 4). -/
theorem decompress_of_compress_vendor {k : Nat} {x z : Bytes} (h : compress (.vendor k) x = some z) :
    Inflate.decompress z = some x := by
  rw [compress] at h
  split at h
  · cases h
  · split at h
    · cases h
      assumption
    · cases h

/-! ### The scanline buffer -/

theorem rowStride_pos (w : Nat) : 0 < rowStride w := Nat.lt_add_right _ Nat.one_pos

theorem offset_lt_rowStride {w x c : Nat} (hx : x < w) (hc : c < 4) : 1 + 4 * x + c < rowStride w := by
  rw [rowStride]
  omega

/-- Behind the filter byte of its row, pixel by pixel and channel by channel (42_deflate.md R170). -/
theorem channelIndex_eq (w r x c : Nat) : channelIndex w r x c = r * rowStride w + (1 + 4 * x + c) := by
  simp only [channelIndex, Nat.add_assoc]

/-- A place in a row of the image is a place in the buffer. -/
theorem row_add_offset_lt {w h r o : Nat} (hr : r < h) (ho : o < rowStride w) : r * rowStride w + o < rawLenOf w h :=
  calc r * rowStride w + o
    _ < r * rowStride w + rowStride w := Nat.add_lt_add_left ho _
    _ = (r + 1) * rowStride w := (Nat.succ_mul _ _).symm
    _ ≤ h * rowStride w := Nat.mul_le_mul_right _ hr

/-- A place in the buffer is in one row only and at one offset of it only. -/
theorem row_add_offset_inj {w r r' o o' : Nat} (ho : o < rowStride w) (ho' : o' < rowStride w)
    (e : r * rowStride w + o = r' * rowStride w + o') : r = r' ∧ o = o' := by
  rw [Nat.add_comm, Nat.mul_comm, Nat.add_comm _ o', Nat.mul_comm r'] at e
  obtain ⟨hr, ho⟩ := (Nat.div_mod_unique (rowStride_pos w)).2 ⟨e, ho⟩
  obtain ⟨hr', ho'⟩ := (Nat.div_mod_unique (rowStride_pos w)).2 ⟨rfl, ho'⟩
  exact ⟨hr.symm.trans hr', ho.symm.trans ho'⟩

theorem filterIndex_ne_channelIndex {w x c : Nat} (r r' : Nat) (hx : x < w) (hc : c < 4) :
    filterIndex w r' ≠ channelIndex w r x c := by
  intro e
  rw [filterIndex, channelIndex_eq] at e
  have ⟨_, atZero⟩ := row_add_offset_inj (o := 0) (rowStride_pos w) (offset_lt_rowStride hx hc) e
  omega

/-- RawLenOf of two dimensions that pass DimOK fits 64 bits (42_deflate.md R171). -/
theorem rawLenOf_lt {w h : Nat} (hw : w < 2 ^ 31) (hh : h < 2 ^ 31) : rawLenOf w h < 2 ^ 64 :=
  calc rawLenOf w h
    _ = h * (1 + 4 * w) := rfl
    _ < 2 ^ 31 * 2 ^ 33 := Nat.mul_lt_mul'' hh (by omega)

/-! ### DimOK -/

/-- The positive two's-complement values of a word are 1 to 0x7FFFFFFF. -/
theorem toInt_pos_iff (v : Word) : 0 < v.toInt ↔ 1 ≤ v.toNat ∧ v.toNat ≤ 0x7FFFFFFF := by
  have lt := v.isLt
  rw [BitVec.toInt_eq_toNat_cond]
  split
  · omega
  · omega

theorem dimOk_iff (w h : Word) :
    dimOk w h = true ↔ (1 ≤ w.toNat ∧ w.toNat ≤ 0x7FFFFFFF) ∧ 1 ≤ h.toNat ∧ h.toNat ≤ 0x7FFFFFFF := by
  rw [dimOk, decide_eq_true_iff, and_assoc]

/-! ### EMIT_IDAT -/

section
variable {s : State}

theorem idatPayload_badDim (hd : dimOk s.width s.height = false) : s.idatPayload = .error .badDim := if_pos hd

variable (hd : dimOk s.width s.height = true)
include hd

theorem idatPayload_range (hr : s.params.rawCap < s.rawLen.toNat) : s.idatPayload = .error .range := by
  rw [State.idatPayload, if_neg (ne_false_of_eq_true hd), if_pos hr]

variable (hr : s.rawLen.toNat ≤ s.params.rawCap)
include hr

theorem idatPayload_badLen (hl : s.rawLen.toNat ≠ rawLenOf s.width.toNat s.height.toNat) :
    s.idatPayload = .error .badLen := by
  rw [State.idatPayload, if_neg (ne_false_of_eq_true hd), if_neg (Nat.not_lt.2 hr), if_pos hl]

variable (hl : s.rawLen.toNat = rawLenOf s.width.toNat s.height.toNat)
include hl

theorem idatPayload_compFail (hz : compress s.params.compressor (s.raw s.rawLen.toNat) = none) :
    s.idatPayload = .error .compFail := by
  rw [State.idatPayload, if_neg (ne_false_of_eq_true hd), if_neg (Nat.not_lt.2 hr), if_neg (not_not.2 hl), hz]

theorem idatPayload_ok {z : Bytes} (hz : compress s.params.compressor (s.raw s.rawLen.toNat) = some z) :
    s.idatPayload = .ok z := by
  rw [State.idatPayload, if_neg (ne_false_of_eq_true hd), if_neg (Nat.not_lt.2 hr), if_neg (not_not.2 hl), hz]

end

theorem exec_emitIdat_refused {s : State} {e : CmdError} (hz : s.idatPayload = .error e) :
    exec .emitIdat s = .next (s.raise e) := by
  rw [exec, execEmitIdat, emitIdatBody, hz, State.finish_error]

theorem exec_emitIdat_payload {s : State} {z : Bytes} (hz : s.idatPayload = .ok z) :
    exec .emitIdat s = .next (s.finish (emitChunk tagIDAT z s)) := by
  rw [exec, execEmitIdat, emitIdatBody, hz]

/-- The IDAT chunk takes 12 bytes more than its payload (42_deflate.md R179). -/
theorem chunk_idat_length (z : Bytes) : (chunk tagIDAT z).length = 12 + z.length := chunk_length _ _

/-- The checksum an appending command leaves is the one named. -/
theorem Appended.crcState_eq {b : Bytes} {c : Word} {s t : State} (h : Appended b c s t) : t.crcState = c := by
  obtain ⟨_, _, frame⟩ := h
  rw [frame]

/-- STORED of the one-pixel scanline of the example of 42_deflate.md R179. -/
theorem stored_onePixel : stored [0x00, 0xF9, 0xF4, 0xE8, 0x05] =
    [0x78, 0x01, 0x01, 0x05, 0x00, 0xFA, 0xFF, 0x00, 0xF9, 0xF4, 0xE8, 0x05, 0x08, 0x9A, 0x02, 0xDB] := by decide

/-- The CRC of the same example. -/
theorem crc32_idat_onePixel : crc32 (tagIDAT ++ stored [0x00, 0xF9, 0xF4, 0xE8, 0x05]) = 0x41511C66 := by
  rw [stored_onePixel]
  decide +kernel

/-! ### The statements -/

/-- Settles O26: STORED's blocks are read back one by one; an OPEN compressor answers only what decompresses. -/
theorem compressedStreamDecompresses : Obligations.CompressedStreamDecompresses := by
  refine ⟨fun c x z h => ?conforms, compress_stored⟩
  cases c with
  | stored =>
    cases h
    exact Inflate.decompress_stored x
  | storedUpTo limit =>
    rw [compress_storedUpTo_eq_some h]
    exact Inflate.decompress_stored x
  | vendor k => exact decompress_of_compress_vendor h

/-- Settles O25: an index is its row and its offset in the row, which are its quotient and remainder by the row stride; an
offset past the filter byte is a pixel and a channel in the same way. -/
theorem scanlineLayoutTilesTheBuffer : Obligations.ScanlineLayoutTilesTheBuffer := by
  refine ⟨fun w h i hi => ?covered, fun w h r hr => ⟨rfl, ?filterBelow, fun x hx c hc => ⟨rfl, ?channelBelow,
    fun r' => filterIndex_ne_channelIndex r r' hx hc⟩⟩, ?channelInj, by decide, fun w h => rawLenOf_lt⟩
  case covered =>
    have row : i / (1 + 4 * w) < h := Nat.div_lt_of_lt_mul (by rwa [Nat.mul_comm])
    have offset := Nat.mod_lt i (show 1 + 4 * w > 0 by omega)
    have place := Nat.div_add_mod' i (1 + 4 * w)
    rcases Nat.eq_zero_or_pos (i % (1 + 4 * w)) with filter | channel
    · exact .inl ⟨_, row, by omega⟩
    · exact .inr ⟨_, row, (i % (1 + 4 * w) - 1) / 4, by omega, (i % (1 + 4 * w) - 1) % 4, by omega, by omega⟩
  case filterBelow => exact row_add_offset_lt hr (rowStride_pos w)
  case channelBelow =>
    rw [channelIndex_eq]
    exact row_add_offset_lt hr (offset_lt_rowStride hx hc)
  case channelInj =>
    intro w r x c r' x' c' hx hx' hc hc' e
    rw [channelIndex_eq, channelIndex_eq] at e
    obtain ⟨row, offset⟩ := row_add_offset_inj (offset_lt_rowStride hx hc) (offset_lt_rowStride hx' hc') e
    exact ⟨row, by omega, by omega⟩

/-- Settles O27: every block but the last has 65535 bytes and the last at most that, so that there are
max(1, ⌈n / 65535⌉) of them. -/
theorem storedOutputLength : Obligations.StoredOutputLength := by
  refine ⟨stored_length, fun x hx => ?oneBlock, fun x hx => ?image⟩
  case oneBlock =>
    rw [stored_length]
    omega
  case image => rw [stored_length, hx]; rfl

/-- Settles O28: the cut of the input into the contents of the blocks; the two sums of Adler-32 are a fold over the bytes
and fit 16 bits each. -/
theorem storedBlockStructure : Obligations.StoredBlockStructure := by
  refine ⟨fun x => ?blocks, fun x => ?adler, rfl⟩
  case blocks =>
    obtain ⟨full, last, cut, e⟩ := stored_cut x
    refine ⟨full, last, cut.whole, cut.full_length, cut.last_length_le, cut.last_length_pos, ?bytes⟩
    rw [e, ← List.append_assoc]
    rfl
  case adler =>
    rw [adler32_toNat, adlerSums_eq_foldl]
    rfl

/-- Settles O29: the checks in their order, then EmitChunk of 12 + len(z) bytes; the example from its CRC. -/
theorem emitIdatResult : Obligations.EmitIdatResult := by
  refine ⟨fun s z hp hd hr hl hz h => ?appended, fun s hd => exec_emitIdat_refused (idatPayload_badDim hd),
    fun s hd hr => exec_emitIdat_refused (idatPayload_range hd hr),
    fun s hd hr hl => exec_emitIdat_refused (idatPayload_badLen hd hr hl),
    fun s hd hr hl hz => exec_emitIdat_refused (idatPayload_compFail hd hr hl hz),
    fun s z hd hr hl hz h => ?overflow, decode_encode .emitIdat, ?exampleBytes⟩
  case appended =>
    have appended := finish_emitChunk_fits (t := tagIDAT) (d := z) hp (by rwa [chunk_idat_length, ← Nat.add_assoc])
    exact ⟨_, exec_emitIdat_payload (idatPayload_ok hd hr hl hz), appended, congrArg crcFinal appended.crcState_eq⟩
  case overflow =>
    rw [exec_emitIdat_payload (idatPayload_ok hd hr hl hz),
      finish_emitChunk_overflow (by rwa [chunk_idat_length, ← Nat.add_assoc])]
    rfl
  case exampleBytes =>
    rw [chunk, crc32_idat_onePixel, stored_onePixel]
    rfl

/-- Settles O24: field by field, the range is that of the positive two's-complement values. -/
theorem dimOkIsPositiveAsSigned : Obligations.DimOkIsPositiveAsSigned := by
  intro w h
  rw [toInt_pos_iff, toInt_pos_iff]
  exact ⟨dimOk_iff w h, dimOk_iff w h⟩

end Sys2Proof.Machine
end

section
/-! SUPPORT. The facts the statements of 43_encode.md rest on: the length of the stream and how it reads back, the state
ENCODE leaves, what its answer depends on, and the step sequence of R191 one command after another. -/

namespace Sys2Proof.Machine

/-! ### The stream and its reader -/

theorem chunk_ihdr_length (w h : Word) : (chunk tagIHDR (ihdrData w h)).length = 25 := by
  rw [chunk_length, ihdrData_length]
  rfl

theorem chunk_iend_length : (chunk tagIEND []).length = 12 := chunk_length _ _

/-- The stream is 57 bytes longer than its IDAT payload (43_encode.md R190). -/
theorem pngStream_length (w h : Word) (z : Bytes) : (pngStream w h z).length = 57 + z.length := by
  simp only [pngStream, List.length_append, sig_length, chunk_ihdr_length, chunk_idat_length, chunk_iend_length]
  omega

/-- The CRC of the IHDR chunk of the example of 43_encode.md R190. -/
theorem crc32_ihdr_onePixel : crc32 (tagIHDR ++ ihdrData 1 1) = 0x1F15C489 := by decide +kernel

section
variable {t d : Bytes}

/-- A framed chunk reads back: its length field and its CRC agree with its bytes (43_encode.md R192(b)). -/
theorem readChunk_chunk_append (rest : Bytes) (ht : t.length = 4) (hd : d.length < 2 ^ 32) :
    readChunk (chunk t d ++ rest) = some ((t, d), rest) := by
  have len : (BitVec.ofNat 32 d.length).toNat = d.length := Nat.mod_eq_of_lt hd
  have parts : chunk t d ++ rest =
      be32 (BitVec.ofNat 32 d.length) ++ (t ++ (d ++ (be32 (crc32 (t ++ d)) ++ rest))) := by
    simp only [chunk, List.append_assoc]
  have afterType := List.drop_left' (l₂ := d ++ (be32 (crc32 (t ++ d)) ++ rest)) ht
  have afterPayload : (t ++ (d ++ (be32 (crc32 (t ++ d)) ++ rest))).drop (4 + d.length) =
      be32 (crc32 (t ++ d)) ++ rest := by
    rw [← List.drop_drop, afterType, List.drop_left' rfl]
  rw [parts]
  simp only [readChunk, readBe32_be32_append, len, List.take_left' ht, afterType, List.take_left' rfl, afterPayload, ht,
    and_self, if_true]

theorem readChunks_nil (fuel : Nat) : readChunks fuel [] = some [] := by
  cases fuel with
  | zero => rfl
  | succ fuel => rfl

/-- The reader takes a framed chunk off the front. -/
theorem readChunks_chunk_append (fuel : Nat) (rest : Bytes) (ht : t.length = 4) (hd : d.length < 2 ^ 32) :
    readChunks (fuel + 1) (chunk t d ++ rest) = (readChunks fuel rest).map fun cs => (t, d) :: cs := by
  have front := readChunk_chunk_append rest ht hd
  obtain ⟨b, p, e⟩ : ∃ b p, chunk t d ++ rest = b :: p := ⟨_, _, rfl⟩
  rw [e] at front ⊢
  rw [readChunks, front]

end

/-- The stream is the signature and exactly its three chunks (43_encode.md R192(a), (b)). -/
theorem readPng_pngStream (w h : Word) {z : Bytes} (hz : z.length < 2 ^ 32) :
    readPng (pngStream w h z) = some [(tagIHDR, ihdrData w h), (tagIDAT, z), (tagIEND, [])] := by
  have parts : pngStream w h z =
      sig ++ (chunk tagIHDR (ihdrData w h) ++ (chunk tagIDAT z ++ (chunk tagIEND [] ++ []))) := by
    simp only [pngStream, List.append_assoc, List.append_nil]
  have fuel : (pngStream w h z).length = 54 + z.length + 1 + 1 + 1 := by
    rw [pngStream_length]
    omega
  rw [readPng, fuel, parts, if_pos (List.take_left' sig_length), List.drop_left' sig_length,
    readChunks_chunk_append _ _ rfl (by rw [ihdrData_length]; decide), readChunks_chunk_append _ _ rfl hz,
    readChunks_chunk_append _ _ rfl (by decide), readChunks_nil]
  rfl

/-- The IHDR payload parses back to its fields (43_encode.md R192(c)). -/
theorem readIhdr_ihdrData (w h : Word) : readIhdr (ihdrData w h) = some (Ihdr.mk w h 8 6 0 0 0) := by
  have height := readBe32_be32_append h [0x08, 0x06, 0x00, 0x00, 0x00]
  rw [readIhdr, ihdrData, List.append_assoc, readBe32_be32_append]
  simp only [height]

theorem Memory.readBytes_getElem? (m : Memory) (i : Nat) {n j : Nat} (h : j < n) :
    (m.readBytes i n)[j]? = some (m.read (i + j)) := by
  induction n generalizing i j with
  | zero => omega
  | succ n ih =>
    cases j with
    | zero => rfl
    | succ j =>
      rw [Memory.readBytes, List.getElem?_cons_succ, ih _ (by omega), Nat.add_assoc, Nat.add_comm 1]

/-! ### What ENCODE leaves -/

section
variable {s : State} {b p : Bytes}

theorem State.extended_outStream (c : Word) (hp : s.params.wf = true) (h : s.outLen.toNat + b.length ≤ s.params.outCap) :
    (s.extended b c).outStream = s.outStream ++ b := by
  have before : (s.extended b c).outMem.readBytes 0 s.outLen.toNat = s.outStream :=
    Memory.readBytes_writeBytes_before _ _ (by omega)
  have written : (s.extended b c).outMem.readBytes s.outLen.toNat b.length = b := Memory.readBytes_writeBytes _ _ _
  rw [State.outStream, State.extended_outLen c hp h, Memory.readBytes_append, before, Nat.zero_add, written]

theorem State.encoded_writtenAt (p : Bytes) (s : State) : WrittenAt 0 p s (s.encoded p) :=
  ⟨Memory.readBytes_writeBytes _ _ _, fun _ ha => Memory.read_writeBytes_out _ _ _ ha⟩

/-- ENCODE leaves the CRC of its last chunk, a constant, and nothing but the stream and the completion bits beside it. -/
theorem State.encoded_frame (p : Bytes) (s : State) : s.encoded p =
    { s with
      outMem := (s.encoded p).outMem
      outLen := (s.encoded p).outLen
      crcState := 0x51BD9F7D
      busy := false
      done := true } := by
  rw [← crcRun_tagIEND]
  rfl

variable (hp : s.params.wf = true) (h : p.length ≤ s.params.outCap)
include hp h

theorem State.encoded_outLen : (s.encoded p).outLen.toNat = p.length := by
  have hcap := Params.outCap_bounds hp
  exact Nat.mod_eq_of_lt (by omega)

theorem State.encoded_outStream : (s.encoded p).outStream = p := by
  rw [State.outStream, encoded_outLen hp h]
  exact Memory.readBytes_writeBytes _ _ _

end

/-- A payload is had only of RawLenOf bytes, and it is COMPRESS's answer for them. -/
theorem idatPayload_eq_ok {s : State} {z : Bytes} (hz : s.idatPayload = .ok z) :
    s.rawLen.toNat = rawLenOf s.width.toNat s.height.toNat ∧
      compress s.params.compressor (s.raw s.rawLen.toNat) = some z := by
  rcases idatPayload_cases s with ⟨_, e⟩ | ⟨_, _, e⟩ | ⟨_, _, _, e⟩ | ⟨_, _, _, _, e⟩ | ⟨_, _, hl, _, hc, e⟩
  case inr.inr.inr.inr =>
    cases e.symm.trans hz
    exact ⟨hl, hc⟩
  all_goals cases e.symm.trans hz

/-- The payload, or why there is none, is a function of what ENCODE reads (42_deflate.md R173, 43_encode.md R193). -/
theorem idatPayload_congr {s s' : State} (hp : s.params = s'.params) (hw : s.width = s'.width) (hh : s.height = s'.height)
    (hl : s.rawLen = s'.rawLen)
    (hr : s.raw (min s.rawLen.toNat s.params.rawCap) = s'.raw (min s.rawLen.toNat s.params.rawCap)) :
    s.idatPayload = s'.idatPayload := by
  simp only [State.idatPayload, ← hp, ← hw, ← hh, ← hl]
  rcases Nat.lt_or_ge s.params.rawCap s.rawLen.toNat with long | within
  · simp only [long, if_true]
  · rw [Nat.min_eq_left within] at hr
    rw [hr]

/-- ENCODE that has no payload, or whose stream does not fit, ends in an error. -/
theorem exec_encode_fails {s : State} (h : ∀ z, s.idatPayload = .ok z → s.params.outCap < 57 + z.length) :
    ∃ e, exec .encode s = .next (s.raise e) := by
  rcases hz : s.idatPayload with e | z
  · exact ⟨e, exec_encode_refused hz⟩
  · exact ⟨.outOvf, exec_encode_overflow hz rfl (by rw [pngStream_length]; exact h z hz)⟩

/-- ENCODE that ends without error has a payload whose stream fits, and leaves that stream. -/
theorem exec_encode_succeeds {s t : State} (ht : exec .encode s = .next t) (he : t.err = false) :
    ∃ z, s.idatPayload = .ok z ∧ (pngStream s.width s.height z).length ≤ s.params.outCap ∧
      t = s.encoded (pngStream s.width s.height z) := by
  have notRaised {e : CmdError} (h : exec .encode s = .next (s.raise e)) : False := by
    cases ht.symm.trans h
    cases he
  rcases hz : s.idatPayload with e | z
  · exact (notRaised (exec_encode_refused hz)).elim
  · rcases Nat.lt_or_ge s.params.outCap (pngStream s.width s.height z).length with long | fits
    · exact (notRaised (exec_encode_overflow hz rfl long)).elim
    · cases ht.symm.trans (exec_encode_fits hz rfl fits)
      exact ⟨z, rfl, fits, rfl⟩

/-- A row of Raw(RAW_LEN) starts with 0 exactly where the host's buffer has one (42_deflate.md R170). -/
theorem raw_filterIndex_eq_zero_iff {s : State} {r : Nat} (hl : s.rawLen.toNat = rawLenOf s.width.toNat s.height.toNat)
    (hr : r < s.height.toNat) : (s.raw s.rawLen.toNat)[filterIndex s.width.toNat r]? = some 0 ↔
      s.rawMem.read (filterIndex s.width.toNat r) = 0 := by
  have inside : filterIndex s.width.toNat r < s.rawLen.toNat := hl ▸ row_add_offset_lt hr (rowStride_pos _)
  rw [State.raw, Memory.readBytes_getElem? _ _ inside, Nat.zero_add, Option.some_inj]

/-! ### The step sequence of R191 -/

/-- The commands that build the stream step by step (43_encode.md R191). -/
def encodeSteps : List Instr := [.outClear, .emitSig, .emitIhdr, .emitIdat, .emitIend]

section
variable {i : Instr} {is js : List Instr} {s v : State}

theorem performAll_cons_err (h : exec i s = .next v) (hv : v.err = true) : performAll (i :: is) s = .next v := by
  simp [performAll, h, hv]

/-- Commands that end without error leave the rest to be performed from their state. -/
theorem performAll_append (h : performAll is s = .next v) (hv : v.err = false) :
    performAll (is ++ js) s = performAll js v := by
  induction is generalizing s with
  | nil =>
    cases h
    rfl
  | cons i is ih =>
    obtain ⟨t, ht⟩ := exec_next i s
    cases hte : t.err with
    | true =>
      cases (performAll_cons_err ht hte).symm.trans h
      cases hte.symm.trans hv
    | false =>
      rw [List.cons_append, performAll_cons ht hte]
      exact ih (by rwa [performAll_cons ht hte] at h)

end

/-- `i` performed on `v` appends `b` to the stream and leaves `c` in CRC_STATE when `b` fits, and else ends in OUT_OVF. -/
structure Emits (i : Instr) (b : Bytes) (c : Word) (v : State) : Prop where
  fits : v.outLen.toNat + b.length ≤ v.params.outCap → exec i v = .next (v.extended b c).complete
  overflow : v.params.outCap < v.outLen.toNat + b.length → exec i v = .next (v.raise .outOvf)

theorem emits_sig (v : State) : Emits .emitSig sig v.crcState v where
  fits h := by rw [exec_emitSig, outAppend_fits h, State.finish_ok]
  overflow h := by rw [exec_emitSig, outAppend_overflow h, State.finish_error]

theorem emits_of_emitChunk {i : Instr} {t d : Bytes} {v : State} (hi : exec i v = .next (v.finish (emitChunk t d v))) :
    Emits i (chunk t d) (crcRun crcInitValue (t ++ d)) v where
  fits h := by rw [hi, emitChunk_fits h, State.finish_ok]
  overflow h := by rw [hi, emitChunk_overflow h, State.finish_error]

/-- From `s` the commands `is` all succeed and end at `v`, which has the stream `b` and is `s` in everything no framer
command writes. -/
structure Reached (s : State) (is : List Instr) (b : Bytes) (v : State) : Prop where
  run : performAll is s = .next v
  frame : ({ v with
    outMem := s.outMem, outLen := s.outLen, crcState := s.crcState, busy := s.busy, done := s.done } : State) = s
  len : v.outLen.toNat = b.length
  stream : v.outStream = b

namespace Reached

variable {s v : State} {is : List Instr} {b : Bytes} {i : Instr} {c : Bytes} {k : Word}

/-- OUT_CLEAR alone leaves the empty stream (44_control.md R211). -/
theorem outClear (he : s.err = false) : Reached s [.outClear] [] ({ s with outLen := 0 } : State).complete where
  run := by rw [performAll_cons (t := ({ s with outLen := 0 } : State).complete) rfl he, performAll]
  frame := rfl
  len := rfl
  stream := rfl

theorem err_eq (r : Reached s is b v) : v.err = s.err := (congrArg State.err r.frame :)

theorem params_eq (r : Reached s is b v) : v.params = s.params := (congrArg State.params r.frame :)

theorem payload_eq (r : Reached s is b v) : v.idatPayload = s.idatPayload := (congrArg State.idatPayload r.frame :)

theorem width_eq (r : Reached s is b v) : v.width = s.width := (congrArg State.width r.frame :)

theorem height_eq (r : Reached s is b v) : v.height = s.height := (congrArg State.height r.frame :)

/-- A command that appends is one command more when its bytes fit, and else ends the sequence in OUT_OVF. -/
theorem emit (r : Reached s is b v) (hp : s.params.wf = true) (he : s.err = false) (em : Emits i c k v) :
    (s.params.outCap < b.length + c.length ∧ exec i v = .next (v.raise .outOvf)) ∨
      (b.length + c.length ≤ s.params.outCap ∧ Reached s (is ++ [i]) (b ++ c) (v.extended c k).complete) := by
  rw [← r.params_eq, ← r.len]
  rcases Nat.lt_or_ge v.params.outCap (v.outLen.toNat + c.length) with long | fits
  · exact .inl ⟨long, em.overflow long⟩
  · have hpv : v.params.wf = true := r.params_eq ▸ hp
    have hev : v.err = false := r.err_eq.trans he
    refine .inr ⟨fits, ?run, r.frame, ?len, ?stream⟩
    case run => rw [performAll_append r.run hev, performAll_cons (em.fits fits) hev, performAll]
    case len => rw [State.complete_outLen, State.extended_outLen k hpv fits, r.len, List.length_append]
    case stream => exact (State.extended_outStream k hpv fits).trans (congrArg (· ++ c) r.stream)

theorem emits_ihdr (r : Reached s is b v) (hd : dimOk s.width s.height = true) :
    Emits .emitIhdr (chunk tagIHDR (ihdrData s.width s.height))
      (crcRun crcInitValue (tagIHDR ++ ihdrData s.width s.height)) v := by
  rw [← r.width_eq, ← r.height_eq] at hd ⊢
  exact emits_of_emitChunk (exec_emitIhdr_dimOk hd)

theorem emits_idat (r : Reached s is b v) {z : Bytes} (hz : s.idatPayload = .ok z) :
    Emits .emitIdat (chunk tagIDAT z) (crcRun crcInitValue (tagIDAT ++ z)) v :=
  emits_of_emitChunk (exec_emitIdat_payload (r.payload_eq.trans hz))

end Reached

/-- What stands in the stream of the sequence before the command `failing`: the signature and the chunks framed so far
(43_encode.md R191). -/
def FramedBefore (s : State) (failing : Instr) (b : Bytes) : Prop :=
  (failing = .emitSig ∧ b = []) ∨ (failing = .emitIhdr ∧ b = sig) ∨
    (failing = .emitIdat ∧ b = sig ++ chunk tagIHDR (ihdrData s.width s.height)) ∨
    (failing = .emitIend ∧ ∃ z, compress s.params.compressor (s.raw s.rawLen.toNat) = some z ∧
      b = sig ++ chunk tagIHDR (ihdrData s.width s.height) ++ chunk tagIDAT z)

/-- The sequence stops at `failing`: the commands before it succeed and leave `v`, and it ends in the error `e`. -/
structure Stops (s : State) (failing : Instr) (v : State) (e : CmdError) : Prop where
  before : ∃ done rest, encodeSteps = done ++ failing :: rest ∧ ∃ b, Reached s done b v ∧ FramedBefore s failing b
  fails : exec failing v = .next (v.raise e)

/-- The sequence stops at its first command that fails, and ENCODE then has no payload or no room; or every command of it
succeeds, and the stream of ENCODE's payload fits. -/
theorem encodeSteps_cases {s : State} (hp : s.params.wf = true) (he : s.err = false) :
    ((∃ failing v e, Stops s failing v e) ∧ ∀ z, s.idatPayload = .ok z → s.params.outCap < 57 + z.length) ∨
      ∃ z v, s.idatPayload = .ok z ∧ 57 + z.length ≤ s.params.outCap ∧
        Reached s encodeSteps (pngStream s.width s.height z) v ∧ v.crcState = crcRun crcInitValue tagIEND := by
  have cleared := Reached.outClear he
  rcases cleared.emit hp he (emits_sig _) with ⟨long, fails⟩ | ⟨_, sigDone⟩
  · rw [List.length_nil, sig_length] at long
    exact .inl ⟨⟨_, _, _, ⟨_, _, rfl, _, cleared, .inl ⟨rfl, rfl⟩⟩, fails⟩, fun z _ => by omega⟩
  cases hd : dimOk s.width s.height with
  | false =>
    have refused := idatPayload_badDim hd
    have fails := exec_emitIhdr_badDim (by rwa [sigDone.width_eq, sigDone.height_eq])
    exact .inl ⟨⟨_, _, _, ⟨_, _, rfl, _, sigDone, .inr (.inl ⟨rfl, rfl⟩)⟩, fails⟩,
      fun z hz => by cases refused.symm.trans hz⟩
  | true =>
  rcases sigDone.emit hp he (sigDone.emits_ihdr hd) with ⟨long, fails⟩ | ⟨_, ihdrDone⟩
  · rw [List.nil_append, sig_length, chunk_ihdr_length] at long
    exact .inl ⟨⟨_, _, _, ⟨_, _, rfl, _, sigDone, .inr (.inl ⟨rfl, rfl⟩)⟩, fails⟩, fun z _ => by omega⟩
  have atIdat : FramedBefore s .emitIdat (sig ++ chunk tagIHDR (ihdrData s.width s.height)) :=
    .inr (.inr (.inl ⟨rfl, rfl⟩))
  rcases hz : s.idatPayload with e | z
  · have fails := exec_emitIdat_refused (ihdrDone.payload_eq.trans hz)
    exact .inl ⟨⟨_, _, _, ⟨_, _, rfl, _, ihdrDone, atIdat⟩, fails⟩, fun z h => by cases h⟩
  obtain ⟨_, answer⟩ := idatPayload_eq_ok hz
  rcases ihdrDone.emit hp he (ihdrDone.emits_idat hz) with ⟨long, fails⟩ | ⟨_, idatDone⟩
  · simp only [List.nil_append, List.length_append, sig_length, chunk_ihdr_length, chunk_idat_length] at long
    exact .inl ⟨⟨_, _, _, ⟨_, _, rfl, _, ihdrDone, atIdat⟩, fails⟩, fun z' h => by cases h; omega⟩
  rcases idatDone.emit hp he (emits_of_emitChunk (exec_emitIend _)) with ⟨long, fails⟩ | ⟨fits, allDone⟩
  · rw [← List.length_append] at long
    exact .inl ⟨⟨_, _, _, ⟨_, _, rfl, _, idatDone, .inr (.inr (.inr ⟨rfl, z, answer, rfl⟩))⟩, fails⟩, fun z' h => by
      cases h
      rwa [← pngStream_length s.width s.height]⟩
  · rw [← List.length_append] at fits
    exact .inr ⟨z, _, rfl, by rwa [← pngStream_length s.width s.height], allDone, rfl⟩

/-! ### The statements -/

/-- Settles O32: the stream ENCODE leaves is read back chunk by chunk, and its IDAT payload is COMPRESS's answer, whose law
gives back the scanlines. -/
theorem encodeOutputReadsBack : Obligations.EncodeOutputReadsBack := by
  intro s t hp ht he
  obtain ⟨z, hz, fits, rfl⟩ := exec_encode_succeeds ht he
  obtain ⟨hl, answer⟩ := idatPayload_eq_ok hz
  have hcap := Params.outCap_bounds hp
  have length := pngStream_length s.width s.height z
  rw [State.encoded_outStream hp fits]
  refine ⟨List.take_left' sig_length, z, _, readPng_pngStream _ _ (by omega), readIhdr_ihdrData _ _,
    compressedStreamDecompresses.1 _ _ _ answer, rfl, ?rawLength, ?rowStarts⟩
  case rawLength => rw [State.raw, Memory.readBytes_length, hl]
  case rowStarts => exact forall₂_congr fun r hr => raw_filterIndex_eq_zero_iff hl hr

/-- Settles O30: the checks in their order, then the stream of 57 + len(z) bytes written from offset 0; the example from the
CRCs of its chunks. -/
theorem encodeResult : Obligations.EncodeResult := by
  refine ⟨fun s z hp hd hr hl hz h => ?written, fun s hd => exec_encode_refused (idatPayload_badDim hd),
    fun s hd hr => exec_encode_refused (idatPayload_range hd hr),
    fun s hd hr hl => exec_encode_refused (idatPayload_badLen hd hr hl),
    fun s hd hr hl hz => exec_encode_refused (idatPayload_compFail hd hr hl hz),
    fun s z hd hr hl hz h => ?overflow, fun w h x hx => ?stored, fun _ _ _ => rfl, decode_encode .encode, ?exampleBytes⟩
  case written =>
    have length := pngStream_length s.width s.height z
    have fits := length.trans_le h
    refine ⟨_, _, exec_encode_fits (idatPayload_ok hd hr hl hz) rfl fits, rfl, length, State.encoded_writtenAt _ s,
      State.encoded_outLen hp fits, State.encoded_outStream hp fits, State.encoded_frame _ s⟩
  case overflow => exact exec_encode_overflow (idatPayload_ok hd hr hl hz) rfl (by rwa [pngStream_length])
  case stored =>
    rw [pngStream_length, stored_length]
    omega
  case exampleBytes =>
    rw [pngStream, chunk_tagIEND, chunk, chunk, crc32_ihdr_onePixel, crc32_idat_onePixel, stored_onePixel]
    rfl

/-- Settles O31: the sequence is followed command by command; where one fails ENCODE has no payload or no room, and where
none does both leave the same stream. -/
theorem encodeEqualsTheStepSequence : Obligations.EncodeEqualsTheStepSequence := by
  intro s hp he
  rcases encodeSteps_cases hp he with ⟨⟨failing, v, e, before, fails⟩, noRoom⟩ | ⟨z, v, hz, fits, reached, crc⟩
  case inl =>
    obtain ⟨e', refused⟩ := exec_encode_fails noRoom
    obtain ⟨done, rest, split, _, reached, framed⟩ := before
    obtain rfl := reached.stream
    have running : v.err = false := reached.err_eq.trans he
    have stopped : performAll encodeSteps s = .next (v.raise e) := by
      rw [split, performAll_append reached.run running, performAll_cons_err fails rfl]
    refine ⟨s.raise e', v.raise e, refused, stopped, rfl, ?noSuccess, ?kept⟩
    case noSuccess => exact fun h => absurd h Bool.true_eq_false.mp
    case kept =>
      exact fun _ => ⟨rfl, rfl, rfl, done, failing, rest, v, split, reached.run, running, fails, rfl, rfl, rfl, framed⟩
  case inr =>
    have fits : (pngStream s.width s.height z).length ≤ s.params.outCap := by rwa [pngStream_length]
    have length := State.encoded_outLen hp fits
    exact ⟨_, _, exec_encode_fits hz rfl fits, reached.run, reached.err_eq.symm, fun _ =>
      ⟨(State.encoded_outStream hp fits).trans reached.stream.symm, BitVec.eq_of_toNat_eq (length.trans reached.len.symm),
        crc.symm⟩, fun h => absurd (he.symm.trans h) Bool.false_ne_true⟩

/-- Settles O33: the payload and the stream are functions of the inputs named, and so is the outcome. -/
theorem encodeDependsOnItsInputsOnly : Obligations.EncodeDependsOnItsInputsOnly := by
  intro s s' t t' hp params width height rawLen raw he he' ht ht'
  have payload := idatPayload_congr params width height rawLen raw
  have hp' : s'.params.wf = true := params ▸ hp
  rcases hz : s.idatPayload with e | z
  · cases ht.symm.trans (exec_encode_refused hz)
    cases ht'.symm.trans (exec_encode_refused (payload.symm.trans hz))
    exact ⟨rfl, fun _ => rfl, fun h => absurd h Bool.true_eq_false.mp⟩
  have stream : pngStream s'.width s'.height z = pngStream s.width s.height z := by rw [width, height]
  rcases Nat.lt_or_ge s.params.outCap (pngStream s.width s.height z).length with long | fits
  · cases ht.symm.trans (exec_encode_overflow hz rfl long)
    cases ht'.symm.trans (exec_encode_overflow (payload.symm.trans hz) stream (params ▸ long))
    exact ⟨rfl, fun _ => rfl, fun h => absurd h Bool.true_eq_false.mp⟩
  · have fits' := params ▸ fits
    cases ht.symm.trans (exec_encode_fits hz rfl fits)
    cases ht'.symm.trans (exec_encode_fits (payload.symm.trans hz) stream fits')
    exact ⟨he.trans he'.symm, fun h => absurd (he.symm.trans h) Bool.false_ne_true, fun _ =>
      ⟨(State.encoded_outStream hp fits).trans (State.encoded_outStream hp' fits').symm, rfl, rfl⟩⟩

end Sys2Proof.Machine
end

section
/-! SUPPORT. The facts the statements of 44_control.md rest on: what each control command makes of a state, when a CMD write
is dropped and when it is the soft reset, and the STATUS words of an idle PNGE without error. -/

namespace Sys2Proof.Machine

/-! ### The control commands -/

theorem exec_nop (s : State) : exec .nop s = .next s.complete := rfl

theorem exec_outClear (s : State) : exec .outClear s = .next ({ s with outLen := 0 } : State).complete := rfl

theorem exec_softReset (s : State) : exec .softReset s = .next s.softReset := rfl

/-- A CMD write of any word but SOFT_RESET's is dropped while BUSY = 1 or ERR = 1 (70_reset_and_hazards.md R274). -/
theorem State.cmdWrite_dropped {w : Word} {s : State} (hw : w ≠ 0x000000FF#32) (h : s.busy = true ∨ s.err = true) :
    s.cmdWrite w = s.dropped := by
  rcases State.cmdWrite_cases w s with ⟨hr, _⟩ | ⟨_, _, e⟩ | ⟨_, hb, he, _⟩
  · exact absurd hr hw
  · exact e
  · simp [hb, he] at h

/-- The CMD write of SOFT_RESET's word is the soft reset itself, in every state (30_encoding.md R96). -/
theorem step_softResetWrite {s : State} {r : List Event}
    (hs : s.script = .host (.write Reg.cmd.offset 4 0x000000FF#32) :: r) :
    step s = .next ({ s with script := r, reply := some .ok } : State).softReset := by
  rw [step_regWrite hs]
  rfl

/-! ### The STATUS words -/

/-- STATUS = 0 says that every flag is down and no code is held: each field is its bits (10_state.md R27). -/
theorem State.fields_of_statusWord_eq_zero {s : State} (h : s.statusWord = 0) :
    s.busy = false ∧ s.done = false ∧ s.err = false ∧ s.drop = false ∧ s.errCode = 0 := by
  obtain ⟨fields, _⟩ := statusWordAndWrite
  obtain ⟨busy, done, err, drop, _, code, _⟩ := fields s
  rw [h] at busy done err drop code
  exact ⟨busy.symm, done.symm, err.symm, drop.symm, code.symm⟩

/-- After a completion without error or drop STATUS holds DONE alone. -/
theorem State.complete_statusWord {s : State} (he : s.err = false) (hd : s.drop = false) (hc : s.errCode = 0) :
    s.complete.statusWord = 0x00000002 := by
  simp only [State.statusWord, State.complete_busy, State.complete_done, State.complete_err, State.complete_drop,
    State.complete_errCode, he, hd, hc]
  rfl

theorem State.softReset_statusWord (s : State) : s.softReset.statusWord = 0 := by
  simp [State.statusWord, flagBit]

/-! ### The statements -/

/-- Settles O34: NOP is its completion; from STATUS = 0 its word is accepted and the ENGINE's turn completes it. -/
theorem nopResult : Obligations.NopResult := by
  refine ⟨decode_encode .nop, exec_nop, fun s h => State.cmdWrite_dropped (by decide) h, ?fromIdle⟩
  case fromIdle =>
    intro s r hb h hs
    obtain ⟨_, _, he, hd, hc⟩ := State.fields_of_statusWord_eq_zero h
    refine ⟨(({ s with script := r, reply := some .ok } : State).accept 0x00000000).complete, ?run,
      State.complete_statusWord he hd hc, rfl⟩
    refine safeRun_succ.2 ⟨_, step_accept hs (by decide) hb he, safeRun_succ.2 ⟨_, ?performed, safeRun_zero.2 rfl⟩⟩
    exact (step_decoded (.inr rfl) rfl (decode_encode .nop)).trans (exec_nop _)

/-- Settles O35: OUT_CLEAR writes OUT_LEN and completes; the stream of length 0 is empty. -/
theorem outClearResult : Obligations.OutClearResult :=
  ⟨decode_encode .outClear, fun s => ⟨_, exec_outClear s, rfl, rfl, fun _ => rfl⟩⟩

/-- Settles O36: the soft reset field by field, its OUT_MEM a fresh draw exactly when BUSY was 1; the write is that reset. -/
theorem softResetResult : Obligations.SoftResetResult := by
  refine ⟨fun s => ⟨_, exec_softReset s, rfl, s.softReset_statusWord, State.irq_eq_false rfl rfl, ?idle, ?aborted⟩, ?write⟩
  case idle =>
    intro hb
    simp [hb]
  case aborted =>
    intro hb
    simp [hb]
  case write =>
    intro s r hs
    rw [step_softResetWrite hs, exec_softReset]

end Sys2Proof.Machine
end

section
/-! SUPPORT. The facts the statements of 60_exceptions.md rest on: the steps at which an access is refused, when DROP falls,
and what a turn of the ENGINE and a step leave of a state once a command has failed. -/

namespace Sys2Proof.Machine

/-! ### Refused accesses -/

section
variable {s : State} {v : Word} {r : List Event}

theorem State.locked_busy (h : s.busy = true) (effect : State) : s.locked effect = s.dropped := if_pos h

/-- A CMD write that is refused is a drop (60_exceptions.md R234). -/
theorem step_refusedCmdWrite (hs : s.script = .host (.write Reg.cmd.offset 4 v) :: r) (hv : v ≠ 0x000000FF#32)
    (h : s.busy = true ∨ s.err = true) : step s = .next ({ s with script := r, reply := some .ok } : State).dropped := by
  rw [step_regWrite hs]
  exact congrArg Host.Outcome.next (State.cmdWrite_dropped hv h)

/-- A write of a configuration register while BUSY = 1 is a drop (20_memory.md R70). -/
theorem State.regWrite_locked {g : Reg} (hg : g ∈ [Reg.width, .height, .rawLen, .chunkType]) (hb : s.busy = true) :
    s.regWrite v g = s.dropped := by
  simp only [List.mem_cons, List.not_mem_nil, or_false] at hg
  rcases hg with rfl | rfl | rfl | rfl <;> exact State.locked_busy hb _

theorem step_lockedRegWrite {g : Reg} (hg : g ∈ [Reg.width, .height, .rawLen, .chunkType])
    (hs : s.script = .host (.write g.offset 4 v) :: r) (hb : s.busy = true) :
    step s = .next ({ s with script := r, reply := some .ok } : State).dropped := by
  rw [step_regWrite hs]
  exact congrArg Host.Outcome.next (State.regWrite_locked hg hb)

/-- A write to the RAW window while BUSY = 1 is a drop (20_memory.md R70). -/
theorem step_lockedRawWrite {off : Offset} {n : Nat} (hs : s.script = .host (.write off n v) :: r)
    (hp : s.params.wf = true) (hn : n = 1 ∨ n = 4 ∧ off.toNat % 4 = 0) (hlo : 0x400000 ≤ off.toNat)
    (hhi : off.toNat < 0x400000 + s.params.rawCap) (hb : s.busy = true) :
    step s = .next ({ s with script := r, reply := some .ok } : State).dropped := by
  rw [offset_eq_base_add hlo] at hs
  rw [step_rawWrite hp (by omega) (by omega) hs, if_pos hb]
  rfl

end

/-- A step at which DROP falls in a PNGE state takes a reset or a STATUS write with bit 3: every other step copies DROP or
sets it, and the ENGINE has no SOFT_RESET to perform. -/
theorem drop_falls {s t : State} (h : s.Inv) (hd : s.drop = true) (ht : step s = .next t) (htd : t.drop = false) :
    ∃ e r, s.script = e :: r ∧ (e.clearsError = true ∨
      ∃ v : Word, e = .host (.write Reg.status.offset 4 v) ∧ v.getLsbD 3 = true) := by
  have up : t.drop ≠ true := by simp [htd]
  rcases s.head_clearsError_or with hc | ⟨e, r, hs, hce⟩
  · rcases step_cases ht hc with ⟨_, rfl, _⟩ | ⟨hb, _, ⟨_, rfl⟩ | ⟨hr, _⟩ | ⟨_, _, _, rfl⟩⟩ |
      ⟨_, r, hs, _, ⟨_, _, rfl⟩, hq⟩
    · exact absurd hd up
    · exact absurd hd up
    · exact absurd hr (h.decode_pending hb)
    · exact absurd hd up
    · rcases hq with rfl | ⟨_, rfl⟩ | ⟨_, _, _, _, _, _, rfl⟩ | ⟨v, rfl, rfl⟩ | ⟨_, _, rfl⟩ |
        ⟨_, _, _, ⟨_, rfl⟩ | ⟨_, _, rfl⟩⟩
      · exact absurd hd up
      · exact absurd rfl up
      · exact absurd hd up
      · exact ⟨_, r, hs, .inr ⟨v, rfl, by simpa [hd] using htd⟩⟩
      · exact absurd hd up
      · exact absurd rfl up
      · exact absurd hd up
  · exact ⟨e, r, hs, .inl hce⟩

/-! ### Commands that fail and commands that do not -/

/-- An error recorded raises IRQ when ERR_IE = 1 (60_exceptions.md R232). -/
theorem State.raise_irq_of_errIe {s : State} (h : s.errIe = true) (e : CmdError) : (s.raise e).irq = true := by
  simp [State.raise_irq, h]

/-- A command that ends without an error, SOFT_RESET apart, leaves ERR_CODE and completes. -/
theorem exec_unraised {i : Instr} {s t : State} (hi : i ≠ .softReset) (ht : exec i s = .next t) (hte : t.err = false) :
    t.errCode = s.errCode ∧ t.busy = false ∧ t.done = true := by
  rcases exec_cases i s with ⟨hr, _⟩ | ⟨_, _, e⟩ | ⟨_, _, _, _, _, e, _⟩
  · exact absurd hr hi
  · cases e.symm.trans ht; simp at hte
  · cases e.symm.trans ht; exact ⟨rfl, rfl, rfl⟩

/-- A turn of the ENGINE that sets ERR is one error recording, for a legal word and for an illegal one. -/
theorem engineTurn_raised {s t : State} (he : s.err = false) (ht : engineTurn s = .next t) (hte : t.err = true) :
    ∃ e, t = s.raise e := by
  rcases engineTurn_cases s with ⟨_, e⟩ | ⟨_, _, e⟩ | ⟨_, i, _, e⟩
  · cases e.symm.trans ht; simp [he] at hte
  · cases e.symm.trans ht; exact ⟨_, rfl⟩
  · exact exec_raised he (e.symm.trans ht) hte

/-! ### The statements -/

/-- Settles O51: each refused access is the drop alone, which IRQ does not read; that DROP falls nowhere else is
`drop_falls`. -/
theorem dropsSetOnlyDrop : Obligations.DropsSetOnlyDrop := by
  refine ⟨?command, ?register, ?raw, fun _ _ h hd ht htd => drop_falls h hd ht htd⟩
  case command =>
    intro s w r hw h hs
    exact ⟨_, step_refusedCmdWrite hs hw h, rfl, rfl⟩
  case register =>
    intro s g v r hg hb hs
    exact ⟨_, step_lockedRegWrite hg hs hb, rfl, rfl⟩
  case raw =>
    intro s off n v r hb hp hn hlo hhi hs
    exact ⟨_, step_lockedRawWrite hs hp hn hlo hhi hb, rfl, rfl⟩

/-- Settles O52: a command's failure and the ENGINE's is one error recording on the state before it. -/
theorem commandErrorsAreTransactional : Obligations.CommandErrorsAreTransactional := by
  refine ⟨fun i s t he ht => ⟨?raised, ?unraised⟩, ?engine⟩
  case raised =>
    intro hte
    obtain ⟨e, rfl⟩ := exec_raised he ht hte
    obtain ⟨hlo, hhi⟩ := e.code_range
    exact ⟨e, rfl, hlo, hhi, fun h => State.raise_irq_of_errIe h e⟩
  case unraised =>
    intro hte
    exact or_iff_not_imp_left.2 fun hi => exec_unraised hi ht hte
  case engine =>
    intro s t he _ ht hte
    obtain ⟨e, rfl⟩ := engineTurn_raised he ht hte
    exact ⟨e, rfl, fun h => State.raise_irq_of_errIe h e⟩

/-- Settles O53: ERR = 1 means BUSY = 0, so the ENGINE idles, and the one write that would start a command is dropped. -/
theorem errorIsSticky : Obligations.ErrorIsSticky := by
  intro s t h he ht hc
  have idle : s.busy = false := Bool.eq_false_iff.2 fun hb => by simp [h.busyErr hb] at he
  rcases step_cases ht hc with ⟨_, rfl, _⟩ | ⟨hb, _⟩ | ⟨_, _, _, _, ⟨_, _, rfl⟩, hq⟩
  · exact ⟨he, rfl, idle, rfl, rfl, rfl, rfl⟩
  · simp [idle] at hb
  · rcases hq with rfl | ⟨_, rfl⟩ | ⟨_, _, _, _, _, _, rfl⟩ | ⟨_, _, rfl⟩ | ⟨_, _, rfl⟩ |
      ⟨_, _, _, ⟨_, rfl⟩ | ⟨_, hne, _⟩⟩
    any_goals exact ⟨he, rfl, idle, rfl, rfl, rfl, rfl⟩
    -- The acceptance of a command is left, which asks for ERR = 0.
    simp [he] at hne

end Sys2Proof.Machine
end

section
/-! SUPPORT. The facts the statements of 70_reset_and_hazards.md rest on: the answer of every step, a poll and a `wait`,
that no step reads an event but the first, and when a run is over. -/

namespace Sys2Proof.Machine

/-! ### Registers -/

/-- ID, RAW_CAP and OUT_CAP move with the parameters alone (10_state.md R25, R36, R37). -/
theorem State.regView_constant {s t : State} (h : t.params = s.params) :
    ∀ c ∈ [Reg.id, .rawCap, .outCap], t.regView c = s.regView c := by
  intro c hc
  simp only [List.mem_cons, List.not_mem_nil, or_false] at hc
  rcases hc with rfl | rfl | rfl <;> simp [State.regView, h]

theorem State.statusWord_busy (s : State) : s.statusWord.getLsbD 0 = s.busy := by
  rw [s.statusWord_getLsbD (by decide)]; simp

theorem State.statusWord_done (s : State) : s.statusWord.getLsbD 1 = s.done := by
  rw [s.statusWord_getLsbD (by decide)]; simp

theorem State.hardReset_statusWord (s : State) : s.hardReset.statusWord = 0 := by
  simp [State.statusWord, flagBit]

theorem State.hardReset_intEnWord (s : State) : s.hardReset.intEnWord = 0 := by
  simp [State.intEnWord, flagBit]

/-! ### The answer of a step -/

theorem engineTurn_idle {s : State} (hb : s.busy = false) : engineTurn s = .next s := by simp [engineTurn, hb]

theorem engineTurn_illegal {s : State} (hb : s.busy = true) (hd : ∀ i, decode s.pending ≠ .ok i) :
    engineTurn s = .next (s.raise .badCmd) :=
  illegalWordsCompleteWithBadCmd.1 s hb hd

/-- The ENGINE's turn next with BUSY = 0 is a stutter (log 12). -/
theorem step_idle {s : State} (hs : s.script = [] ∨ s.script.head? = some .engine) (hb : s.busy = false) :
    step s = .next s.advance :=
  (step_engine hs).trans (engineTurn_idle hb)

/-- Whatever is pending, an ENGINE's turn ends with BUSY = 0. -/
theorem engineTurn_busy {s t : State} (ht : engineTurn s = .next t) : t.busy = false := by
  rcases engineTurn_cases s with ⟨hb, e⟩ | ⟨_, _, e⟩ | ⟨_, i, _, e⟩
  · cases e.symm.trans ht; exact hb
  · cases e.symm.trans ht; rfl
  · rcases exec_cases i s with ⟨_, e'⟩ | ⟨_, _, e'⟩ | ⟨_, _, _, _, _, e', _⟩ <;>
      cases (e.trans e').symm.trans ht <;> rfl

/-- The ENGINE has an answer in every state. -/
theorem engineTurn_next (s : State) : ∃ t, engineTurn s = .next t := by
  rcases engineTurn_cases s with ⟨_, e⟩ | ⟨_, _, e⟩ | ⟨_, i, _, e⟩
  · exact ⟨_, e⟩
  · exact ⟨_, e⟩
  · obtain ⟨t, ht⟩ := exec_next i s
    exact ⟨t, e.trans ht⟩

/-- In a PNGE state the ENGINE's turn leaves DONE = 1 behind a pending command, which is no SOFT_RESET. -/
theorem State.Inv.engineTurn_done {s t : State} (h : s.Inv) (hb : s.busy = true)
    (ht : Machine.engineTurn s = .next t) : t.done = true := by
  rcases engineTurn_cases s with ⟨hi, _⟩ | ⟨_, _, e⟩ | ⟨_, i, hd, e⟩
  · simp [hb] at hi
  · cases e.symm.trans ht; rfl
  · exact (exec_done (fun hi => h.decode_pending hb (hi ▸ hd)) (e.symm.trans ht)).1

/-- A step is a next state, or the bus error of the host's access next (60_exceptions.md R235). -/
theorem step_outcome (s : State) :
    (∃ t, step s = .next t) ∨ ∃ a r, s.script = .host a :: r ∧ step s = .fault (.busError a) := by
  rcases hs : s.script with _ | ⟨e, r⟩
  · exact .inl (step_engine (.inl hs) ▸ engineTurn_next _)
  · cases e with
    | engine => exact .inl (step_engine (.inr (congrArg List.head? hs)) ▸ engineTurn_next _)
    | reset => exact .inl ⟨_, step_reset hs⟩
    | host a =>
      have access : (∃ t, step s = .next t) ∨ step s = .fault (.busError a) := by
        rw [step_host hs]
        cases a with
        | read off n => exact (hostAccess_outcome (.inl ⟨rfl, rfl⟩) _).symm.imp And.right And.right
        | write off n v => exact (hostAccess_outcome (.inr ⟨rfl, v, rfl⟩) _).symm.imp And.right And.right
      exact access.imp_right fun e => ⟨a, r, rfl, e⟩

theorem script_of_busError {s : State} {a : Access} (h : step s = .fault (.busError a)) :
    ∃ r, s.script = .host a :: r := by
  rcases step_outcome s with ⟨t, ht⟩ | ⟨b, r, hs, hf⟩
  · cases ht.symm.trans h
  · cases hf.symm.trans h
    exact ⟨r, hs⟩

/-! ### A word about to run -/

theorem State.withFetchWord_softReset (s : State) : s.withFetchWord 32 (0x000000FF#32).toNat =
    { s with script := .host (.write Reg.cmd.offset 4 0x000000FF) :: s.script } := rfl

theorem State.withFetchWord_accept {s : State} {w : Word} (hw : w ≠ 0x000000FF#32) :
    s.withFetchWord 32 w.toNat = { s.accept w with script := .engine :: s.script } := by
  have word : BitVec.ofNat 32 (w.toNat % 2 ^ 32) = w := by
    rw [Nat.mod_eq_of_lt w.isLt, BitVec.ofNat_toNat, BitVec.setWidth_eq]
  rw [State.withFetchWord, word]
  exact if_neg hw

/-! ### Polls -/

theorem step_poll {s : State} {r : List Event} (hs : s.script = pollStatus :: r) :
    step s = .next { s with script := r, reply := some (.data s.statusWord) } :=
  step_regRead (g := .status) hs (.inr rfl)

/-- Polls of STATUS change nothing but the host's answer, in every state (20_memory.md R72). -/
theorem safeRun_polls {s : State} {n : Nat} {r : List Event} (hs : s.script = List.replicate n pollStatus ++ r) :
    ∃ rep, SafeRun n s { s with script := r, reply := rep } := by
  induction n generalizing s with
  | zero =>
    refine ⟨s.reply, safeRun_zero.2 ?_⟩
    rw [List.replicate_zero, List.nil_append] at hs
    rw [← hs]
  | succ n ih =>
    have first : step s = .next { s with
        script := List.replicate n pollStatus ++ r, reply := some (.data s.statusWord) } := step_poll hs
    obtain ⟨rep, hrun⟩ := ih (step_script first |>.trans (congrArg List.tail hs))
    exact ⟨rep, safeRun_succ.2 ⟨_, first, hrun⟩⟩

/-- A `wait` is its polls, one turn of the ENGINE on the state they leave, and the last poll (30_encoding.md R99). -/
theorem safeRun_wait {s : State} {polls : Nat} {es r : List Event} (hes : (Stmt.wait polls).assemble = some es)
    (hs : s.script = es ++ r) :
    ∃ rep t, engineTurn { s with script := pollStatus :: r, reply := rep } = .next t ∧
      SafeRun es.length s { t with script := r, reply := some (.data t.statusWord) } := by
  obtain rfl : List.replicate polls pollStatus ++ [.engine, pollStatus] = es := Option.some.inj hes
  obtain ⟨rep, hpolls⟩ := safeRun_polls (hs.trans (List.append_assoc ..))
  obtain ⟨t, ht⟩ := engineTurn_next { s with script := pollStatus :: r, reply := rep }
  have turn : step { s with script := [.engine, pollStatus] ++ r, reply := rep } = .next t :=
    (step_engine (.inr rfl)).trans ht
  have last : SafeRun 1 t { t with script := r, reply := some (.data t.statusWord) } :=
    safeRun_succ.2 ⟨_, step_poll (step_script turn), safeRun_zero.2 rfl⟩
  refine ⟨rep, t, ht, ?_⟩
  rw [List.length_append, List.length_replicate]
  exact safeRun_add hpolls (safeRun_succ.2 ⟨t, turn, last⟩)

/-! ### The events to come -/

section
variable {s t : State} (es : List Event)

theorem State.finish_withScript (r : Except CmdError State) :
    (s.withScript es).finish (r.map (·.withScript es)) = (s.finish r).withScript es := by cases r <;> rfl

theorem outAppend_withScript (b : Bytes) : outAppend b (s.withScript es) = (outAppend b s).map (·.withScript es) := by
  rcases outAppend_cases b s with ⟨h, e⟩ | ⟨h, e⟩ <;> rw [e]
  · exact if_pos h
  · exact if_neg (Nat.not_lt.2 h)

theorem outReplace_withScript (b : Bytes) : outReplace b (s.withScript es) = (outReplace b s).map (·.withScript es) := by
  rcases outReplace_cases b s with ⟨h, e⟩ | ⟨h, e⟩ <;> rw [e]
  · exact if_pos h
  · exact if_neg (Nat.not_lt.2 h)

theorem emitChunk_withScript (tag d : Bytes) :
    emitChunk tag d (s.withScript es) = (emitChunk tag d s).map (·.withScript es) := by
  rw [emitChunk, outAppend_withScript, emitChunk]
  cases outAppend (chunk tag d) s <;> rfl

theorem crcBufBody_withScript : crcBufBody (s.withScript es) = (crcBufBody s).map (·.withScript es) := by
  have payload : (s.withScript es).rawPayload = s.rawPayload := rfl
  rw [crcBufBody, payload, crcBufBody]
  cases s.rawPayload <;> rfl

theorem emitIhdrBody_withScript : emitIhdrBody (s.withScript es) = (emitIhdrBody s).map (·.withScript es) := by
  rw [emitIhdrBody, emitChunk_withScript, emitIhdrBody, apply_ite (Except.map _)]
  rfl

theorem emitChunkBody_withScript : emitChunkBody (s.withScript es) = (emitChunkBody s).map (·.withScript es) := by
  have payload : (s.withScript es).rawPayload = s.rawPayload := rfl
  rw [emitChunkBody, payload, emitChunkBody]
  cases s.rawPayload with
  | error e => rfl
  | ok d => exact emitChunk_withScript es (typeTag s.chunkType) d

theorem emitIdatBody_withScript : emitIdatBody (s.withScript es) = (emitIdatBody s).map (·.withScript es) := by
  have payload : (s.withScript es).idatPayload = s.idatPayload := rfl
  rw [emitIdatBody, payload, emitIdatBody]
  cases s.idatPayload with
  | error e => rfl
  | ok z => exact emitChunk_withScript es tagIDAT z

theorem encodeBody_withScript : encodeBody (s.withScript es) = (encodeBody s).map (·.withScript es) := by
  have payload : (s.withScript es).idatPayload = s.idatPayload := rfl
  rw [encodeBody, payload, encodeBody]
  cases s.idatPayload with
  | error e => rfl
  | ok z =>
    have stream : pngStream (s.withScript es).width (s.withScript es).height z = pngStream s.width s.height z := rfl
    dsimp only
    rw [stream, outReplace_withScript]
    cases outReplace (pngStream s.width s.height z) s <;> rfl

/-- A command whose pseudocode `b` does not read the events to come ends, completed or failed, without reading them. -/
theorem next_finish_withScript {b b' : Except CmdError State} (hb : b' = b.map (·.withScript es))
    (h : (.next (s.finish b) : Host.Outcome State Fault Refusal) = .next t) :
    (.next ((s.withScript es).finish b') : Host.Outcome State Fault Refusal) = .next (t.withScript es) := by
  cases h
  rw [hb, State.finish_withScript]

/-- No command reads the events to come. -/
theorem exec_withScript {i : Instr} (h : exec i s = .next t) : exec i (s.withScript es) = .next (t.withScript es) := by
  cases i with
  | nop => exact next_finish_withScript es (b := .ok _) rfl h
  | crcInit => exact next_finish_withScript es (b := .ok _) rfl h
  | crcByte b => exact next_finish_withScript es (b := .ok _) rfl h
  | crcBuf => exact next_finish_withScript es (crcBufBody_withScript es) h
  | emitSig => exact next_finish_withScript es (outAppend_withScript es sig) h
  | emitIhdr => exact next_finish_withScript es (emitIhdrBody_withScript es) h
  | emitIdat => exact next_finish_withScript es (emitIdatBody_withScript es) h
  | emitIend => exact next_finish_withScript es (emitChunk_withScript es tagIEND []) h
  | emitChunk => exact next_finish_withScript es (emitChunkBody_withScript es) h
  | encode => exact next_finish_withScript es (encodeBody_withScript es) h
  | outClear => exact next_finish_withScript es (b := .ok _) rfl h
  | softReset => cases h; rfl

theorem engineTurn_withScript (h : engineTurn s = .next t) : engineTurn (s.withScript es) = .next (t.withScript es) := by
  rcases engineTurn_cases s with ⟨hb, e⟩ | ⟨hb, hd, e⟩ | ⟨hb, i, hd, e⟩
  · cases e.symm.trans h
    exact engineTurn_idle hb
  · cases e.symm.trans h
    exact engineTurn_illegal (s := s.withScript es) hb hd
  · exact (engineTurn_decoded (s := s.withScript es) hb hd).trans (exec_withScript es (e.symm.trans h))

theorem State.locked_withScript (effect : State) :
    (s.withScript es).locked (effect.withScript es) = (s.locked effect).withScript es := by
  cases hb : s.busy
  · rw [State.locked_idle hb, State.locked_idle (s := s.withScript es) hb]
  · rw [State.locked_busy hb, State.locked_busy (s := s.withScript es) hb]
    rfl

theorem State.cmdWrite_withScript (w : Word) : (s.withScript es).cmdWrite w = (s.cmdWrite w).withScript es := by
  rcases State.cmdWrite_cases w s with ⟨hw, e⟩ | ⟨hw, h, e⟩ | ⟨hw, hb, he, e⟩
  · rw [e, hw]; rfl
  · rw [e, State.cmdWrite_dropped (s := s.withScript es) hw h]; rfl
  · rw [e]
    simp [State.cmdWrite, State.withScript, State.accept, hw, hb, he]

theorem State.regWrite_withScript (v : Word) (g : Reg) :
    (s.withScript es).regWrite v g = (s.regWrite v g).withScript es := by
  cases g with
  | cmd => exact State.cmdWrite_withScript es v
  | width => exact State.locked_withScript es { s with width := v }
  | height => exact State.locked_withScript es { s with height := v }
  | rawLen => exact State.locked_withScript es { s with rawLen := v }
  | chunkType => exact State.locked_withScript es { s with chunkType := v }
  | _ => rfl

theorem writeTarget_withScript (n : Nat) (v : Word) (g : Target) :
    writeTarget (s.withScript es) n v g = (writeTarget s n v g).withScript es := by
  cases g with
  | reg o =>
    simp only [writeTarget]
    rcases Reg.at o with _ | r
    · rfl
    · exact State.regWrite_withScript es v r
  | raw i => exact State.locked_withScript es { s with rawMem := s.rawMem.writeBytes i (storedBytes n v) }
  | out i => rfl

@[simp] theorem State.withScript_busy : (s.withScript es).busy = s.busy := rfl

@[simp] theorem State.withScript_outMem : (s.withScript es).outMem = s.outMem := rfl

@[simp] theorem State.withScript_regView (r : Reg) : (s.withScript es).regView r = s.regView r := by cases r <;> rfl

theorem State.freshValue_withScript (n : Nat) :
    (s.withScript es).freshValue n = ((s.freshValue n).1, (s.freshValue n).2.withScript es) := rfl

theorem readTarget_withScript (n : Nat) (g : Target) :
    readTarget (s.withScript es) n g = ((readTarget s n g).1, (readTarget s n g).2.withScript es) := by
  cases g with
  | reg o =>
    rcases hr : Reg.at o with _ | r
    · simp [readTarget, hr]
    · by_cases hv : s.busy = true ∧ r.volatile = true
      · simp [readTarget, hr, hv, State.freshValue_withScript]
      · simp [readTarget, hr, hv]
  | raw i => rfl
  | out i =>
    cases hb : s.busy
    · simp [readTarget, hb]
    · simp [readTarget, hb, State.freshValue_withScript]

theorem hostAccess_read {off : Offset} {n : Nat} {g : Target} (hg : target s.params false off n = some g) :
    hostAccess (.read off n) s = .next { (readTarget s n g).2 with reply := some (.data (readTarget s n g).1) } := by
  simp only [hostAccess, hg]

theorem hostAccess_write {off : Offset} {n : Nat} {v : Word} {g : Target} (hg : target s.params true off n = some g) :
    hostAccess (.write off n v) s = .next (writeTarget { s with reply := some .ok } n v g) := by
  simp only [hostAccess, hg]

/-- No access of the host reads the events after it. -/
theorem hostAccess_withScript {a : Access} (h : hostAccess a s = .next t) :
    hostAccess a (s.withScript es) = .next (t.withScript es) := by
  cases a with
  | read off n =>
    rcases hg : target s.params false off n with _ | g
    · simp [hostAccess, hg] at h
    · cases (hostAccess_read hg).symm.trans h
      rw [hostAccess_read (s := s.withScript es) hg, readTarget_withScript]
      rfl
  | write off n v =>
    rcases hg : target s.params true off n with _ | g
    · simp [hostAccess, hg] at h
    · cases (hostAccess_write hg).symm.trans h
      rw [hostAccess_write (s := s.withScript es) hg]
      exact congrArg Host.Outcome.next (writeTarget_withScript (s := { s with reply := some .ok }) es n v g)

/-- A step takes the first event and reads none of the others. -/
theorem step_withScript {e : Event} {r : List Event} (hs : s.script = e :: r) (h : step s = .next t) :
    step (s.withScript (e :: es)) = .next (t.withScript es) := by
  cases e with
  | host a =>
    rw [step_host hs] at h
    exact (step_host (s := s.withScript _) rfl).trans (hostAccess_withScript (s := { s with script := r }) es h)
  | engine =>
    rw [step_engine (.inr (congrArg List.head? hs))] at h
    exact (step_engine (s := s.withScript _) (.inr rfl)).trans (engineTurn_withScript (s := s.advance) es h)
  | reset =>
    cases (step_reset hs).symm.trans h
    exact step_reset (s := s.withScript _) rfl

/-- Events put behind a run's own do not move it: each state of the run has them behind its own events. -/
theorem safeRun_append {k : Nat} (hk : k ≤ s.script.length) (h : SafeRun k s t) :
    SafeRun k (s.withScript (s.script ++ es)) (t.withScript (t.script ++ es)) := by
  induction k generalizing s with
  | zero =>
    obtain rfl := safeRun_zero.1 h
    exact safeRun_zero.2 rfl
  | succ k ih =>
    obtain ⟨u, hu, hrun⟩ := safeRun_succ.1 h
    obtain ⟨e, r, hs⟩ := List.exists_cons_of_length_pos (Nat.zero_lt_of_lt hk)
    have hr : u.script = r := (step_script hu).trans (congrArg List.tail hs)
    have len : k ≤ u.script.length := by simpa [hs, hr] using hk
    have first : step (s.withScript (e :: (u.script ++ es))) = .next (u.withScript (u.script ++ es)) :=
      step_withScript _ hs hu
    rw [hs, ← hr]
    exact safeRun_succ.2 ⟨_, first, ih len hrun⟩

end

/-! ### The end of a run -/

theorem Event.isHost_iff {e : Event} : e.isHost = true ↔ ∃ a, e = .host a := by cases e <;> simp

theorem State.runOver_iff {s : State} : s.runOver = true ↔ s.busy = false ∧ ∀ a : Access, .host a ∉ s.script := by
  have none : s.script.any Event.isHost = false ↔ ∀ a : Access, .host a ∉ s.script := by
    rw [List.any_eq_false]
    refine ⟨fun h a ha => h _ ha rfl, fun h e he hh => ?_⟩
    obtain ⟨a, rfl⟩ := Event.isHost_iff.1 hh
    exact h a he
  simp [State.runOver, none, and_comm]

/-- A run that is over stays over. -/
theorem step_runOver {s t : State} (h : s.runOver = true) (ht : step s = .next t) : t.runOver = true := by
  obtain ⟨hb, hno⟩ := State.runOver_iff.1 h
  have left (a : Access) : .host a ∉ t.script := fun ha => hno a (List.mem_of_mem_tail (step_script ht ▸ ha))
  refine State.runOver_iff.2 ⟨?_, left⟩
  rcases step_next ht with ⟨e, _⟩ | ⟨a, r, hs, _⟩ | ⟨r, _, rfl⟩
  · exact engineTurn_busy e
  · exact absurd (hs ▸ List.mem_cons_self) (hno a)
  · rfl

theorem safeRun_runOver {k : Nat} {s t : State} (h : s.runOver = true) (hrun : SafeRun k s t) : t.runOver = true :=
  safeRun_induct (P := fun u => u.runOver = true) (fun _ _ => step_runOver) h hrun

theorem runOver_of_busError {s : State} {a : Access} (h : step s = .fault (.busError a)) : s.runOver = false :=
  (script_of_busError h).elim fun _ hs => runOver_host hs

/-- The start of a run is a run. -/
theorem safeRun_take {j k : Nat} {s t : State} (hjk : j ≤ k) (h : SafeRun k s t) :
    ∃ u, SafeRun j s u ∧ SafeRun (k - j) u t := by
  induction j generalizing k s with
  | zero => exact ⟨s, safeRun_zero.2 rfl, h⟩
  | succ j ih =>
    obtain ⟨k, rfl⟩ := Nat.exists_eq_succ_of_ne_zero (Nat.ne_zero_of_lt hjk)
    obtain ⟨v, hv, hrun⟩ := safeRun_succ.1 h
    obtain ⟨u, hu, hut⟩ := ih (Nat.le_of_succ_le_succ hjk) hrun
    exact ⟨u, safeRun_succ.2 ⟨v, hv, hu⟩, by rwa [Nat.succ_sub_succ]⟩

/-- A run of `k + 1` steps is a run of `k` and one step. -/
theorem safeRun_last {k : Nat} {s t : State} (h : SafeRun (k + 1) s t) : ∃ u, SafeRun k s u ∧ step u = .next t := by
  obtain ⟨u, hu, hut⟩ := safeRun_take (Nat.le_succ k) h
  rw [Nat.succ_eq_add_one, Nat.add_sub_cancel_left] at hut
  obtain ⟨v, hv, hvt⟩ := safeRun_succ.1 hut
  exact ⟨u, hu, safeRun_zero.1 hvt ▸ hv⟩

/-- Before a state at which a run is not over, it is over at none. -/
theorem runOver_before {j k : Nat} {s t u : State} (hk : SafeRun k s t) (ht : t.runOver = false) (hjk : j ≤ k)
    (hj : SafeRun j s u) : u.runOver = false := by
  obtain ⟨v, hv, hvt⟩ := safeRun_take hjk hk
  obtain rfl := safeRun_unique hv hj
  by_contra hu
  exact absurd (safeRun_runOver (Bool.not_eq_false _ ▸ hu) hvt) (by simp [ht])

/-- A step before the end of a run. -/
theorem RunEnds.cons {k : Nat} {s u t : State} (hs : s.runOver = false) (hu : step s = .next u) (h : RunEnds k u t) :
    RunEnds (k + 1) s t := by
  obtain ⟨hrun, ht, hfirst⟩ := h
  refine ⟨safeRun_succ.2 ⟨u, hu, hrun⟩, ht, fun j hj v hv => ?_⟩
  cases j with
  | zero => exact safeRun_zero.1 hv ▸ hs
  | succ j =>
    obtain ⟨w, hw, hv⟩ := safeRun_succ.1 hv
    cases hu.symm.trans hw
    exact hfirst j (Nat.lt_of_succ_lt_succ hj) v hv

theorem RunEnds.zero {s : State} (h : s.runOver = true) : RunEnds 0 s s :=
  ⟨safeRun_zero.2 rfl, h, fun _ hj => absurd hj (Nat.not_lt_zero _)⟩

theorem RunFaults.cons {k : Nat} {s u : State} {a : Access} (hu : step s = .next u) (h : RunFaults k u a) :
    RunFaults (k + 1) s a :=
  h.imp fun _ ⟨hrun, hf⟩ => ⟨safeRun_succ.2 ⟨u, hu, hrun⟩, hf⟩

/-- Every run ends: an event a step, and one turn of the ENGINE more when none is left (70_reset_and_hazards.md R279). -/
theorem runEnds_or_runFaults (l : List Event) {s : State} (hs : s.script = l) :
    (∃ k t, k ≤ l.length + 1 ∧ RunEnds k s t) ∨ ∃ k a, k < l.length ∧ RunFaults k s a := by
  induction l generalizing s with
  | nil =>
    cases ho : s.runOver
    · obtain ⟨t, ht⟩ := engineTurn_next s.advance
      have hstep : step s = .next t := (step_engine (.inl hs)).trans ht
      have hnil : t.script = [] := (step_script hstep).trans (congrArg List.tail hs)
      have hover : t.runOver = true := runOver_nil hnil (engineTurn_busy ht)
      exact .inl ⟨1, t, le_rfl, .cons ho hstep (.zero hover)⟩
    · exact .inl ⟨0, s, Nat.zero_le _, .zero ho⟩
  | cons e r ih =>
    cases ho : s.runOver
    · rcases step_outcome s with ⟨u, hu⟩ | ⟨a, _, _, hf⟩
      · rcases ih ((step_script hu).trans (congrArg List.tail hs)) with ⟨k, t, hk, h⟩ | ⟨k, a, hk, h⟩
        · exact .inl ⟨k + 1, t, Nat.succ_le_succ hk, .cons ho hu h⟩
        · exact .inr ⟨k + 1, a, Nat.succ_lt_succ hk, .cons hu h⟩
      · exact .inr ⟨0, a, Nat.succ_pos _, s, safeRun_zero.2 rfl, hf⟩
    · exact .inl ⟨0, s, Nat.zero_le _, .zero ho⟩

theorem RunEnds.le {j k : Nat} {s t u : State} (h : RunEnds j s t) (h' : RunEnds k s u) : j ≤ k := by
  obtain ⟨_, _, hfirst⟩ := h
  obtain ⟨hrun, hover, _⟩ := h'
  by_contra hlt
  simp [hfirst k (Nat.lt_of_not_le hlt) u hrun] at hover

/-- A run ends at one state, once. -/
theorem RunEnds.unique {j k : Nat} {s t u : State} (h : RunEnds j s t) (h' : RunEnds k s u) : j = k ∧ t = u := by
  obtain rfl := Nat.le_antisymm (h.le h') (h'.le h)
  exact ⟨rfl, safeRun_unique h.1 h'.1⟩

/-- A run that ends does not fault: not before its end, where each step has a next state, and not at it or after, where no
access is left. -/
theorem RunEnds.not_runFaults {j k : Nat} {s t : State} {a : Access} (h : RunEnds k s t) : ¬ RunFaults j s a := by
  rintro ⟨u, hu, hf⟩
  obtain ⟨hrun, hover, _⟩ := h
  rcases Nat.lt_or_ge j k with hjk | hkj
  · obtain ⟨w, hw, _⟩ := safeRun_take hjk hrun
    obtain ⟨v, hv, hstep⟩ := safeRun_last hw
    obtain rfl := safeRun_unique hu hv
    cases hstep.symm.trans hf
  · simp [runOver_before hu (runOver_of_busError hf) hkj hrun] at hover

theorem runOver_append {s : State} {es : List Event} (hes : ∀ a : Access, .host a ∉ es) :
    (s.withScript (s.script ++ es)).runOver = s.runOver := by
  rw [Bool.eq_iff_iff, State.runOver_iff, State.runOver_iff]
  simp [State.withScript, hes]

/-- Events other than accesses, behind a run that ends by its own events, are no part of it (R279). -/
theorem RunEnds.append {k : Nat} {s t : State} {es : List Event} (hk : k ≤ s.script.length) (h : RunEnds k s t)
    (hes : ∀ a : Access, .host a ∉ es) :
    RunEnds k (s.withScript (s.script ++ es)) (t.withScript (t.script ++ es)) := by
  obtain ⟨hrun, hover, hfirst⟩ := h
  refine ⟨safeRun_append es hk hrun, (runOver_append hes).trans hover, fun j hj v hv => ?_⟩
  obtain ⟨u, hu, _⟩ := safeRun_take hj.le hrun
  obtain rfl := safeRun_unique (safeRun_append es (hj.le.trans hk) hu) hv
  exact (runOver_append hes).trans (hfirst j hj u hu)

/-! ### The statements -/

/-- Settles O57: a run ends because each step takes an event; it is over for good, so its end is one, apart from every
fault; and no step reads an event but the first, so what stands behind does not matter. -/
theorem everyRunEnds : Obligations.EveryRunEnds := by
  refine ⟨fun _ => State.runOver_iff, ?png, fun s => runEnds_or_runFaults s.script rfl,
    fun _ _ _ _ _ h => h.not_runFaults, fun _ _ _ _ _ h h' => h.unique h', ?faults, ?stutter,
    fun _ _ _ _ hk h hes => h.append hk hes⟩
  case png =>
    intro s
    exact ⟨fun he => by simp [State.png, State.outStream, he], fun he => by simp [State.png, he]⟩
  case faults =>
    rintro s k a ⟨t, hrun, hf⟩
    obtain ⟨r, hs⟩ := script_of_busError hf
    exact ⟨t, r, hrun, hs, fun j hj u hu => runOver_before hrun (runOver_host hs) hj hu⟩
  case stutter =>
    intro s h hs
    exact step_idle hs (State.runOver_iff.1 h).1

/-- Settles O39: a `wait` is its polls, the ENGINE's turn and a last poll; only that turn moves anything but the answer,
and it ends every command. -/
theorem everyWaitTerminates : Obligations.EveryWaitTerminates := by
  refine ⟨?pending, ?idle⟩
  case pending =>
    intro s polls es r h hb hes hs
    obtain ⟨rep, t, ht, hrun⟩ := safeRun_wait hes hs
    have hbusy : t.busy = false := engineTurn_busy ht
    have hdone : t.done = true := (h.answered _ rep le_rfl).engineTurn_done hb ht
    exact ⟨_, t.statusWord, hrun, rfl, hbusy, hdone, rfl, t.statusWord_busy.trans hbusy, t.statusWord_done.trans hdone⟩
  case idle =>
    intro s polls es r hb hes hs
    obtain ⟨rep, t, ht, hrun⟩ := safeRun_wait hes hs
    cases (engineTurn_idle (s := { s with script := pollStatus :: r, reply := rep }) hb).symm.trans ht
    exact ⟨s.statusWord, hrun, rfl, s.statusWord_busy.trans hb⟩

/-- Settles O1: each reset field by field; the two buffers of a hardware reset are two draws. -/
theorem resetAndSoftResetState : Obligations.ResetAndSoftResetState := by
  refine ⟨?hardware, ?soft⟩
  case hardware =>
    intro s r hs
    refine ⟨_, step_reset hs, rfl, rfl, rfl, rfl, rfl, crcFinal_crcInitValue, rfl, State.hardReset_intEnWord _,
      State.hardReset_statusWord _, rfl, rfl, rfl, rfl, rfl, rfl, rfl, ?draws, State.regView_constant rfl, rfl⟩
    exact ⟨s.draws, s.draws + 1, le_rfl, Nat.le_succ _, (Nat.lt_succ_self _).ne, fun _ => rfl, fun _ => rfl⟩
  case soft =>
    intro s r hs
    refine ⟨_, step_softResetWrite hs, rfl, rfl, rfl, rfl, rfl, rfl, rfl, State.softReset_statusWord _, rfl, rfl, rfl, rfl,
      rfl, rfl, fun _ => rfl, ?idle, ?aborted, State.regView_constant rfl, rfl⟩
    case idle =>
      intro hb i
      simp [hb]
    case aborted =>
      intro hb
      exact ⟨s.draws, le_rfl, fun i => by simp [hb]⟩

/-- Settles O37: the three cases of a CMD write; an illegal word is no SOFT_RESET, so it is accepted and then reported. -/
theorem cmdWriteAcceptsOrDrops : Obligations.CmdWriteAcceptsOrDrops := by
  refine ⟨fun s w r hs => ⟨?reset, fun hw h => step_refusedCmdWrite hs hw h, ?accepted⟩, ?illegal⟩
  case reset =>
    rintro rfl
    exact step_softResetWrite hs
  case accepted =>
    intro hw hb he
    exact ⟨_, step_accept hs hw hb he, rfl, State.statusWord_busy _⟩
  case illegal =>
    intro s w r hd hb he hs
    have hw : w ≠ 0x000000FF#32 := by
      rintro rfl
      exact hd .softReset (decode_encode .softReset)
    refine safeRun_succ.2 ⟨_, step_accept hs hw hb he, ?_⟩
    exact safeRun_succ.2 ⟨_, step_illegal (.inr rfl) rfl hd, safeRun_zero.2 rfl⟩

/-- Settles O38: the three turns of the ENGINE, and the word put in front as the step it is made for. -/
theorem stepPerformsThePendingCommand : Obligations.StepPerformsThePendingCommand := by
  refine ⟨fun _ _ hb hs hd => step_decoded hs hb hd, fun _ hb hs hd => step_illegal hs hb hd,
    fun _ hb hs => step_idle hs hb, ?fetched⟩
  case fetched =>
    intro s w i hd
    by_cases hw : w = 0x000000FF#32
    · subst hw
      cases (decode_encode .softReset).symm.trans hd
      refine ⟨{ s with reply := some .ok }, ?_, rfl, rfl, rfl, rfl, rfl, rfl, rfl, rfl, rfl, rfl⟩
      rw [State.withFetchWord_softReset]
      exact step_softResetWrite rfl
    · refine ⟨s.accept w, ?_, rfl, rfl, rfl, rfl, rfl, rfl, rfl, rfl, rfl, rfl⟩
      rw [State.withFetchWord_accept hw]
      exact step_decoded (.inr rfl) rfl hd

end Sys2Proof.Machine
end
